-- ==== Sys2Proof/Word.lean ====
section
/-! DEFINITION. The widths of the block: bytes, 64-bit words, 48-bit keys, 16-bit coordinates, 3-bit octants. -/

namespace Sys2Proof

/-- One byte of memory or one byte lane of the host bus (R40). -/
abbrev Byte := BitVec 8

/-- A register or a memory word (R7: host register width 64, batch memory word 64). -/
abbrev Word := BitVec 64

/-- A Morton or Hilbert key (R6: key width 48 bits). -/
abbrev Key := BitVec 48

/-- One coordinate (R6: 16 bits per axis, unsigned). -/
abbrev Coord := BitVec 16

/-- A 3-bit group with one bit per axis: bit 0 is x, bit 1 is y, bit 2 is z (R12). -/
abbrev Octant := BitVec 3

/-- A cell: its three unsigned coordinates (R6). -/
structure Coords where
  x : Coord
  y : Coord
  z : Coord
deriving DecidableEq, Repr

end Sys2Proof
end

