-- ==== Sys2Proof/Syntax.lean ====
section
/-! DEFINITION. The command set (R65): the ten functions, the fields of the command word (R59), and one
constructor of Instr per row of spec/opcode_table.json. -/

namespace Sys2Proof

/-- The ten functions of the block, FUNC 1 to 10 (R65). -/
inductive Func where
  | menc | mdec | henc | hdec | m2h | h2m | pchk | nbrc | nbrm | nbrh
deriving DecidableEq, Repr

/-- The fields of the 64-bit command word (R59). -/
structure CmdFields where
  func     : BitVec 7
  b        : Bool
  f        : Bool
  a        : Bool
  reserved : BitVec 54
deriving DecidableEq, Repr

/-- A legal command: one constructor per row of the opcode table. `f` is the neighbor boundary policy,
`a` the batch failure policy (R59); a constructor has only the modifiers that are legal for its row. -/
inductive Instr where
  | menc
  | mdec
  | henc
  | hdec
  | m2h
  | h2m
  | pchk
  | nbrc (f : Bool)
  | nbrm (f : Bool)
  | nbrh (f : Bool)
  | bmenc (a : Bool)
  | bmdec (a : Bool)
  | bhenc (a : Bool)
  | bhdec (a : Bool)
  | bm2h (a : Bool)
  | bh2m (a : Bool)
  | bpchk (a : Bool)
  | bnbrc (f a : Bool)
  | bnbrm (f a : Bool)
  | bnbrh (f a : Bool)
  | abort
deriving DecidableEq, Repr

end Sys2Proof
end

