-- ==== Sys2Proof/WellFormed.lean ====
section
/-! DEFINITION. Which command words are commands: the predicate `legal` of R66, check by check. An Instr has
no ill-formed terms (its constructors carry only the modifiers legal for their row); the terms that can be
ill-formed are the fields of a command word. -/

namespace Sys2Proof

/-- ABORT is exactly the value 0xFF: FUNC = 0x7F, B = 1, nothing else (R65, R82). -/
def CmdFields.isAbort (c : CmdFields) : Bool :=
  c.func == 0x7F#7 && c.b && !c.f && !c.a && c.reserved == 0#54

/-- Bits [63:10] are zero (R59). -/
def CmdFields.reservedClear (c : CmdFields) : Bool := c.reserved == 0#54

/-- FUNC is one of 1 to 10 (R66). -/
def CmdFields.funcDefined (c : CmdFields) : Bool := 1 ≤ c.func.toNat && c.func.toNat ≤ 10

/-- F is set only with FUNC 8, 9 or 10 (R59). -/
def CmdFields.failBitAllowed (c : CmdFields) : Bool := !c.f || (8 ≤ c.func.toNat && c.func.toNat ≤ 10)

/-- A is set only with B (R59). -/
def CmdFields.batchPolicyAllowed (c : CmdFields) : Bool := !c.a || c.b

/-- `legal(c)` of R66, over the fields of the word. -/
def CmdFields.wellFormed (c : CmdFields) : Bool :=
  c.isAbort ||
    (c.reservedClear && c.funcDefined && c.failBitAllowed && c.batchPolicyAllowed)

/-- `legal(c)` of R66, over the word, in the spec's own words. -/
def legal (c : Word) : Prop :=
  c = 0xFF#64 ∨
    (c.extractLsb' 10 54 = 0#54 ∧
      1 ≤ (c.extractLsb' 0 7).toNat ∧ (c.extractLsb' 0 7).toNat ≤ 10 ∧
      (c.getLsbD 8 = false ∨ (c.extractLsb' 0 7).toNat ∈ [8, 9, 10]) ∧
      (c.getLsbD 9 = false ∨ c.getLsbD 7 = true))

end Sys2Proof
end

