-- ==== Sys2Proof/Decode.lean ====
section
/-! DEFINITION. The decoder of the command word, total, rejecting by name, and the encoder (R59, R65, R66). -/

namespace Sys2Proof

/-- Why a CMD value is no command (R67). On the machine each of them is ILLEGAL_COMMAND. -/
inductive DecodeError where
  /-- a bit of [63:10] is set -/
  | reservedBits
  /-- FUNC is 0 or 11 to 126, or 127 in a value other than 0xFF -/
  | reservedFunc
  /-- F = 1 with FUNC outside 8, 9, 10 -/
  | failBitNotAllowed
  /-- A = 1 with B = 0 -/
  | batchPolicyNotAllowed
deriving DecidableEq, Repr

/-- The value of the FUNC field of a function (R65). -/
def Func.code : Func → BitVec 7
  | .menc => 1 | .mdec => 2 | .henc => 3 | .hdec => 4 | .m2h => 5
  | .h2m => 6 | .pchk => 7 | .nbrc => 8 | .nbrm => 9 | .nbrh => 10

/-- The functions F is legal with, which have 14 output words per element (R59, R65). -/
def Func.isNeighbor : Func → Bool
  | .nbrc | .nbrm | .nbrh => true
  | _ => false

/-- The function a FUNC value names (R65); none for the values R67 reserves. -/
def funcOfCode (n : BitVec 7) : Option Func :=
  match n.toNat with
  | 1 => some .menc
  | 2 => some .mdec
  | 3 => some .henc
  | 4 => some .hdec
  | 5 => some .m2h
  | 6 => some .h2m
  | 7 => some .pchk
  | 8 => some .nbrc
  | 9 => some .nbrm
  | 10 => some .nbrh
  | _ => none

/-- The fields of a command word (R59). -/
def fieldsOf (c : Word) : CmdFields :=
  { func := c.extractLsb' 0 7, b := c.getLsbD 7, f := c.getLsbD 8, a := c.getLsbD 9,
    reserved := c.extractLsb' 10 54 }

/-- The word of given fields (R59). -/
def wordOf (c : CmdFields) : Word :=
  c.reserved ++ BitVec.ofBool c.a ++ BitVec.ofBool c.f ++ BitVec.ofBool c.b ++ c.func

/-- The scalar command of a function (R65, column B = 0). -/
def scalarInstr (fn : Func) (f : Bool) : Instr :=
  match fn with
  | .menc => .menc
  | .mdec => .mdec
  | .henc => .henc
  | .hdec => .hdec
  | .m2h => .m2h
  | .h2m => .h2m
  | .pchk => .pchk
  | .nbrc => .nbrc f
  | .nbrm => .nbrm f
  | .nbrh => .nbrh f

/-- The batch command of a function (R65, column B = 1). -/
def batchInstr (fn : Func) (f a : Bool) : Instr :=
  match fn with
  | .menc => .bmenc a
  | .mdec => .bmdec a
  | .henc => .bhenc a
  | .hdec => .bhdec a
  | .m2h => .bm2h a
  | .h2m => .bh2m a
  | .pchk => .bpchk a
  | .nbrc => .bnbrc f a
  | .nbrm => .bnbrm f a
  | .nbrh => .bnbrh f a

/-- The decoder, on fields (R66): total, and each rejection has its name. -/
def decodeFields (c : CmdFields) : Except DecodeError Instr :=
  if c = { func := 0x7F#7, b := true, f := false, a := false, reserved := 0#54 } then .ok .abort
  else if c.reserved ≠ 0#54 then .error .reservedBits
  else match funcOfCode c.func with
    | none => .error .reservedFunc
    | some fn =>
      if c.f && !fn.isNeighbor then .error .failBitNotAllowed
      else if c.a && !c.b then .error .batchPolicyNotAllowed
      else .ok (if c.b then batchInstr fn c.f c.a else scalarInstr fn c.f)

/-- The decoder (R65, R66): every 64-bit value is one row of the map with its modifiers, or illegal. -/
def decode (c : Word) : Except DecodeError Instr := decodeFields (fieldsOf c)

/-- The fields of a scalar command (R65). -/
def scalarFields (fn : Func) (f : Bool) : CmdFields :=
  { func := fn.code, b := false, f := f, a := false, reserved := 0#54 }

/-- The fields of a batch command (R65). -/
def batchFields (fn : Func) (f a : Bool) : CmdFields :=
  { func := fn.code, b := true, f := f, a := a, reserved := 0#54 }

/-- The fields of a command (R65). -/
def Instr.fields : Instr → CmdFields
  | .menc => scalarFields .menc false
  | .mdec => scalarFields .mdec false
  | .henc => scalarFields .henc false
  | .hdec => scalarFields .hdec false
  | .m2h => scalarFields .m2h false
  | .h2m => scalarFields .h2m false
  | .pchk => scalarFields .pchk false
  | .nbrc f => scalarFields .nbrc f
  | .nbrm f => scalarFields .nbrm f
  | .nbrh f => scalarFields .nbrh f
  | .bmenc a => batchFields .menc false a
  | .bmdec a => batchFields .mdec false a
  | .bhenc a => batchFields .henc false a
  | .bhdec a => batchFields .hdec false a
  | .bm2h a => batchFields .m2h false a
  | .bh2m a => batchFields .h2m false a
  | .bpchk a => batchFields .pchk false a
  | .bnbrc f a => batchFields .nbrc f a
  | .bnbrm f a => batchFields .nbrm f a
  | .bnbrh f a => batchFields .nbrh f a
  | .abort => { func := 0x7F#7, b := true, f := false, a := false, reserved := 0#54 }

/-- The encoder: the CMD value of a command (R65). -/
def encode (i : Instr) : Word := wordOf i.fields

/-- The instruction the decoder reads from a CMD value whose low `nbits` bits are `w`, the rest zero. A
command is one 64-bit value, written whole (R58, R40), so there are no further words to lay out. -/
def decodeTableWord (nbits w : Nat) : Option Instr :=
  match decode (BitVec.ofNat 64 (w % 2 ^ nbits)) with
  | .ok i => some i
  | .error _ => none

end Sys2Proof
end

