-- ==== Sys2Proof/Machine/Bits.lean ====
section
/-! DEFINITION. Bit-field and byte-order helpers: a vector given bit by bit, and the little-endian byte lanes
of a word (R9, R40, R43). -/

namespace Sys2Proof.Machine

/-- The `w`-bit value whose bit `i` is `f i` (R9: bit 0 is the least significant). -/
def bitsOf : (w : Nat) → (Nat → Bool) → BitVec w
  | 0, _ => 0#0
  | w + 1, f => BitVec.cons (f w) (bitsOf w f)

/-- Byte lane `j` of a word: its bits [8j+7:8j] (R40, R42). -/
def laneOf (v : Word) (j : Nat) : Byte := v.extractLsb' (8 * j) 8

/-- The eight bytes of a word, lowest address first (R40, R42). -/
def bytesOf (v : Word) : List Byte := (List.range 8).map (laneOf v)

/-- The word whose byte lane `j` is the `j`-th of the bytes given (R40, R41). -/
def wordOfBytes : List Byte → Word
  | [] => 0#64
  | b :: bs => b.setWidth 64 ||| (wordOfBytes bs <<< 8)

end Sys2Proof.Machine
end

