-- ==== Sys2Proof/Config.lean ====
section
/-! DEFINITION. What is fixed for the block by the spec's parameters (R6, R7) and what the platform fixes
for a run (R8, R143): the place of the register window, the verdict on each master-port access, and the moves
of the agents. -/

namespace Sys2Proof

/-- The constant value of the ID register (R21). -/
def Config.idValue : Word := 0x000000013358494F#64

/-- The size of the register window in bytes (R7, R17). -/
def Config.windowBytes : Nat := 0x100

/-- ERR_INDEX when no element is meant (R32). -/
def Config.noElement : BitVec 32 := 0xFFFFFFFF#32

/-- What a byte of memory reads as when nothing has written it.
DESIGN CHOICE (entry 1, unsafe): zero, the memory every vector of 95_test_vectors.md starts from. -/
def Config.freshByte : Byte := 0#8

/-- The kind of a master-port access, as P_MEM_ADMIT sees it (R8). -/
inductive AccessKind where
  | read
  | write
deriving DecidableEq, Repr

/-- A range of addresses, `first ≤ a < limit`, at which the platform refuses accesses of one kind (R8, R132). -/
structure RefusedRange where
  kind  : AccessKind
  first : Nat
  limit : Nat
deriving DecidableEq, Repr

/-- What the platform fixes before the first access and keeps for the run (R8, R143): P_BASE, and
P_MEM_ADMIT as the list of the ranges it refuses. DESIGN CHOICE (entries 2 and 3): plain data held in
State, so that a statement about every state is a statement about every platform. The spec gives 64-bit
addresses for the master port only (R7, R38b); that a host-bus address, and so P_BASE, has 64 bits too is a
DESIGN CHOICE (entry 3). -/
structure Platform where
  base    : Word
  refused : List RefusedRange
deriving DecidableEq, Repr

/-- One access of HOST on the host bus (R38a, R39): a read of `width` bytes, or a write of the byte lanes
given, lowest address first (R40). A host-bus address has 64 bits: DESIGN CHOICE (entry 3). -/
inductive HostAccess where
  | read (addr : Word) (width : Nat)
  | write (addr : Word) (lanes : List Byte)
deriving DecidableEq, Repr

/-- One move of an agent (R13, R71, R72, R141). A move in memory is in one 8-byte word, `word` being the upper
61 bits of its address, since races are resolved per word (R52): an access over several words is one move for
each of them, in any order and with other agents' moves between (entry 8). -/
inductive Event where
  /-- ENGINE is scheduled. -/
  | engine
  /-- HOST makes one access on the host bus. -/
  | host (a : HostAccess)
  /-- HOST or another agent of the memory space stores the bytes given, lane by lane, into a word (R43, R50,
  R52). This is the moment the store is visible at the master port in that word. -/
  | memStore (word : BitVec 61) (lanes : List (Fin 8 × Byte))
  /-- HOST or another agent reads the byte lanes given from a word (R43). Where the read races with the command
  in progress (R52), `old` chooses the word's value before the command. -/
  | memLoad (word : BitVec 61) (lanes : List (Fin 8)) (old : Bool)
  /-- The platform asserts the reset input (R141). -/
  | reset
deriving DecidableEq, Repr, Inhabited

/-- P_SCHED (R8c): the moves of the agents in a run, one after the other, without end. A free value: nothing is
known of it, so it stands for every interleaving (entry 4). -/
opaque Config.schedule : Nat → Event

end Sys2Proof
end

