-- ==== Sys2Proof/Machine/State.lean ====
section
/-! DEFINITION. The state of the machine (R14), what stands around the block (memory, platform, the agents'
coming moves), the reasons a step can stop, and the state after reset (R37). -/

namespace Sys2Proof.Machine

/-- The error codes STATUS.ERR and the ST nibble can name (R130). Codes 11 to 15 are never produced, so they
have no constructor; `invalidField` and `decodeError` are the source's kinds the block never raises (R131). -/
inductive Err where
  | ok
  | invalidField
  | parityViolation
  | outOfRange
  | decodeError
  | illegalCommand
  | misaligned
  | overlap
  | busError
  | aborted
  | addrRange
deriving DecidableEq, Repr

/-- The registers of the window (R17); `reserved` stands for the offsets the map does not list. -/
inductive Reg where
  | id | ctrl | status | cmd | coordIn | keyIn | result | nbrMask
  | srcAddr | dstAddr | count | progress | errIndex | failCount
  | nbr (k : Fin 14)
  | reserved
deriving DecidableEq, Repr

/-- The answer HOST's last access got. -/
inductive HostReply where
  /-- no access yet, or an access that was not to the register window -/
  | none
  /-- a write to the window completed (R19, R39) -/
  | written
  /-- a read completed with these byte lanes (R20, R40) -/
  | data (lanes : List Byte)
  /-- the error response of a malformed access (R39, R133) -/
  | error
deriving DecidableEq, Repr

/-- One access ENGINE made on the master port (R41, R42, R46): its kind and its byte address. -/
structure BusAccess where
  kind : AccessKind
  addr : Word
deriving DecidableEq, Repr

/-- The state. The fields from `irqEn` to `cursor` are the architectural state of R14; ID, CMD and IRQ have
no storage (R21, R24, R137). `mem` and `platform` are what stands around the block (R14, R38, R47).
The last five are the MODEL's own (entries 4, 7, 8, 11). -/
structure State where
  /-- CTRL.IRQ_EN (R22) -/
  irqEn : Bool
  /-- STATUS.BUSY (R23) -/
  busy : Bool
  /-- STATUS.DONE (R23) -/
  done : Bool
  /-- STATUS.OVR (R23) -/
  ovr : Bool
  /-- STATUS.ABRT (R23) -/
  abrt : Bool
  /-- STATUS.VPHASE (R23) -/
  vphase : Bool
  /-- STATUS.ERR (R23) -/
  err : Err
  /-- STATUS.LAST_CMD (R23) -/
  lastCmd : BitVec 10
  /-- COORD_IN (R25) -/
  coordIn : Word
  /-- KEY_IN (R26) -/
  keyIn : Word
  /-- RESULT (R27) -/
  result : Word
  /-- NBR_MASK.MASK (R28) -/
  nbrMask : BitVec 14
  /-- SRC_ADDR (R29) -/
  srcAddr : Word
  /-- DST_ADDR (R29) -/
  dstAddr : Word
  /-- COUNT.N (R30) -/
  count : BitVec 32
  /-- PROGRESS.P (R31) -/
  progress : BitVec 32
  /-- ERR_INDEX.I (R32) -/
  errIndex : BitVec 32
  /-- FAIL_COUNT.C (R33) -/
  failCount : BitVec 32
  /-- NBR0 to NBR13 (R34) -/
  nbr : Vector Word 14
  /-- ENG.CURSOR (R35) -/
  cursor : Nat
  /-- the memory space (R38b): (address, byte) pairs in the canonical form of `Memory.wf` -/
  mem : List Host.Cell
  /-- P_BASE and P_MEM_ADMIT (R8) -/
  platform : Platform
  /-- the coming moves of the agents that are placed, the next one first (P_SCHED, R8; entry 4) -/
  sched : List Event
  /-- how many moves were taken from `Config.schedule`, which goes on where `sched` ends (entry 4) -/
  turn : Nat
  /-- the answer HOST's last access got (entry 7) -/
  port : HostReply
  /-- the memory when the command in progress was accepted, for the races of R52 (entry 8) -/
  memAtIssue : List Host.Cell
  /-- ENGINE's master-port accesses so far, newest first (R46, R49; entry 11) -/
  bus : List BusAccess
deriving DecidableEq, Repr

/-- Why a step stops the machine. -/
inductive Fault where
  /-- ENGINE has a step (BUSY = 1) and STATUS.LAST_CMD is no legal command, or is ABORT. Raised by ENGINE's
  turn only. No run reaches such a state (R73, R74: BUSY is set only after LAST_CMD was). Safe (entry 9). -/
  | noAcceptedCommand
deriving DecidableEq, Repr

/-- Why a step gives an instruction no meaning. -/
inductive Refusal where
  /-- The instruction has no meaning yet. Raised by an arm of exec only; no arm does. Safe. -/
  | notModelled (mnemonic : String)
deriving DecidableEq, Repr

/-- The machine right after reset (R37, R141), with nothing placed around it: memory with nothing listed,
a platform that admits every access, no move placed (entries 1 to 4). -/
def State.reset : State :=
  { irqEn := false, busy := false, done := false, ovr := false, abrt := false, vphase := false
    err := .ok, lastCmd := 0#10
    coordIn := 0#64, keyIn := 0#64, result := 0#64, nbrMask := 0#14
    srcAddr := 0#64, dstAddr := 0#64, count := 0#32
    progress := 0#32, errIndex := Config.noElement, failCount := 0#32
    nbr := Vector.replicate 14 0#64, cursor := 0
    mem := [], platform := { base := 0#64, refused := [] }
    sched := [], turn := 0, port := .none, memAtIssue := [], bus := [] }

end Sys2Proof.Machine
end

