-- ==== Sys2Proof/Machine/Operands.lean ====
section
/-! DEFINITION. The data words (R60 to R63): how an operand word is read and how a result word is made; and
where a scalar command takes its operand word from (R64). -/

namespace Sys2Proof.Machine

/-- The value of an error code, as STATUS.ERR and the ST nibble hold it (R130). -/
def Err.code : Err → BitVec 4
  | .ok => 0 | .invalidField => 1 | .parityViolation => 2 | .outOfRange => 3 | .decodeError => 4
  | .illegalCommand => 5 | .misaligned => 6 | .overlap => 7 | .busError => 8 | .aborted => 9
  | .addrRange => 10

/-- What the element function gives for one operand word: its output words and its status (R79). -/
structure ElemResult where
  outs : List Word
  st   : Err
deriving DecidableEq, Repr

/-- The cell a coordinate word names: X = [15:0], Y = [31:16], Z = [47:32]; the bits above are ignored (R60). -/
def cwCell (w : Word) : Coords :=
  { x := w.extractLsb' 0 16, y := w.extractLsb' 16 16, z := w.extractLsb' 32 16 }

/-- The key a key word holds, bits [47:0]; the bits above are ignored (R61). -/
def kwKey (w : Word) : Key := w.extractLsb' 0 48

/-- The element status nibble of a word, bits [59:56] (R62). -/
def wordStatus (w : Word) : BitVec 4 := w.extractLsb' 56 4

/-- A result word with value `k` in [47:0] and status in [59:56]; all other bits are zero (R62, mkKW). -/
def mkKW (k : Key) (st : Err) : Word := k.setWidth 64 ||| (st.code.setWidth 64 <<< 56)

/-- A coordinate word (R62, mkCW). -/
def mkCW (p : Coords) (st : Err) : Word := mkKW (p.z ++ p.y ++ p.x) st

/-- A parity word (R63, mkPW). -/
def mkPW (valid : Bool) (st : Err) : Word := mkKW ((BitVec.ofBool valid).setWidth 48) st

/-- Whether a function's operand is a coordinate word; otherwise it is a key word (R64, R65). -/
def takesCoords : Func → Bool
  | .menc | .henc | .pchk | .nbrc => true
  | .mdec | .hdec | .m2h | .h2m | .nbrm | .nbrh => false

/-- The operand word of a scalar command (R64). -/
def scalarOperand (fn : Func) (s : State) : Word := if takesCoords fn then s.coordIn else s.keyIn

end Sys2Proof.Machine
end

