-- ==== Sys2Proof/Machine/Flags.lean ====
section
/-! DEFINITION. The status computations: STATUS as HOST reads it (R23), the IRQ output (R137), NBR_MASK
(R80, R108). -/

namespace Sys2Proof.Machine

/-- STATUS as a register: BUSY [0], DONE [1], OVR [2], ABRT [3], VPHASE [4], ERR [11:8], LAST_CMD [25:16],
all other bits zero (R23). -/
def statusWord (s : State) : Word :=
  (0#38 ++ s.lastCmd ++ 0#4 ++ s.err.code ++ 0#3 ++ BitVec.ofBool s.vphase ++ BitVec.ofBool s.abrt
    ++ BitVec.ofBool s.ovr ++ BitVec.ofBool s.done ++ BitVec.ofBool s.busy : BitVec 64)

/-- The IRQ output: level, active high (R137). -/
def irq (s : State) : Bool := s.done && s.irqEn

/-- NBR_MASK of 14 output words: bit `k` says that word `k` has ST = 0 (R80, R108). -/
def maskOf (outs : List Word) : BitVec 14 :=
  bitsOf 14 fun k => wordStatus (outs.getD k 0#64) == 0#4

/-- NBR0 to NBR13 of 14 output words (R80). -/
def nbrOf (outs : List Word) : Vector Word 14 := Vector.ofFn fun k => outs.getD k.val 0#64

end Sys2Proof.Machine
end

