-- ==== Sys2Proof/Machine/Memory.lean ====
section
/-! DEFINITION. Memory as data: bytes by address in one canonical form, and words in little-endian order
(R38b, R41 to R43). -/

namespace Sys2Proof.Machine

/-- Every entry of the list lies above `lo`, addresses strictly rise, each is below 2^64, and no entry equals
what an unlisted address reads as. -/
def memSortedFrom (lo : Nat) : List Host.Cell → Bool
  | [] => true
  | (a, b) :: m =>
    decide (lo ≤ a) && decide (a < 2 ^ 64) && decide (b ≠ Config.freshByte) && memSortedFrom (a + 1) m

/-- The canonical form of memory: equal memories are equal lists. -/
def Memory.wf (m : List Host.Cell) : Bool := memSortedFrom 0 m

/-- The byte at an address; an unlisted address reads as `Config.freshByte` (entry 1). -/
def readByte : List Host.Cell → Nat → Byte
  | [], _ => Config.freshByte
  | (a, b) :: m, k => if a = k then b else readByte m k

/-- Put a byte into the list at its place; a fresh byte is not listed. -/
def consByte (k : Nat) (v : Byte) (m : List Host.Cell) : List Host.Cell :=
  if v = Config.freshByte then m else (k, v) :: m

/-- Set the byte at an address. -/
def writeByte : List Host.Cell → Nat → Byte → List Host.Cell
  | [], k, v => consByte k v []
  | (a, b) :: m, k, v =>
    if k < a then consByte k v ((a, b) :: m)
    else if a = k then consByte k v m
    else (a, b) :: writeByte m k v

/-- The address of byte lane `j` of the word at `addr` (R41, R42). -/
def laneAddr (addr : Word) (j : Nat) : Nat := (addr + BitVec.ofNat 64 j).toNat

/-- The 8-byte little-endian word at an address (R41). -/
def readWord (m : List Host.Cell) (addr : Word) : Word :=
  wordOfBytes ((List.range 8).map fun j => readByte m (laneAddr addr j))

/-- Store an 8-byte little-endian word at an address (R42). -/
def writeWord (m : List Host.Cell) (addr : Word) (v : Word) : List Host.Cell :=
  (List.range 8).foldl (fun m j => writeByte m (laneAddr addr j) (laneOf v j)) m

/-- The address of byte lane `j` of an 8-byte word, given by the upper 61 bits of its address (R43). -/
def wordLane (word : BitVec 61) (j : Fin 8) : Nat := 8 * word.toNat + j.val

/-- Store the byte lanes given into one word, as an agent of the memory space other than ENGINE does (R43). -/
def storeLanes : List Host.Cell → BitVec 61 → List (Fin 8 × Byte) → List Host.Cell
  | m, _, [] => m
  | m, word, (j, b) :: ls => storeLanes (writeByte m (wordLane word j) b) word ls

end Sys2Proof.Machine
end

