-- ==== Sys2Proof/Machine/Ops.lean ====
section
/-! DEFINITION. The named operations over registers and memory: the register window (R17 to R34, R39, R40,
R76), the prologue, rejection, acceptance and completion of a command (R73 to R78), the master port (R41,
R42, R132), and reset (R141). Errors are completions, not traps (R138): `raiseError` and `reject` are the
whole of taking one, and there is no return from one. -/

namespace Sys2Proof.Machine

/-! ### The register window -/

/-- The register at a byte offset of the window (R17). -/
def regAt (off : Nat) : Reg :=
  match off with
  | 0x000 => .id
  | 0x008 => .ctrl
  | 0x010 => .status
  | 0x018 => .cmd
  | 0x020 => .coordIn
  | 0x028 => .keyIn
  | 0x030 => .result
  | 0x038 => .nbrMask
  | 0x040 => .srcAddr
  | 0x048 => .dstAddr
  | 0x050 => .count
  | 0x058 => .progress
  | 0x060 => .errIndex
  | 0x068 => .failCount
  | 0x080 => .nbr 0
  | 0x088 => .nbr 1
  | 0x090 => .nbr 2
  | 0x098 => .nbr 3
  | 0x0A0 => .nbr 4
  | 0x0A8 => .nbr 5
  | 0x0B0 => .nbr 6
  | 0x0B8 => .nbr 7
  | 0x0C0 => .nbr 8
  | 0x0C8 => .nbr 9
  | 0x0D0 => .nbr 10
  | 0x0D8 => .nbr 11
  | 0x0E0 => .nbr 12
  | 0x0E8 => .nbr 13
  | _ => .reserved

/-- What a register reads as (R18, R20, R21 to R34); a read has no side effect (R20). -/
def readReg (r : Reg) (s : State) : Word :=
  match r with
  | .id => Config.idValue
  | .ctrl => (BitVec.ofBool s.irqEn).setWidth 64
  | .status => statusWord s
  | .cmd => 0#64
  | .coordIn => s.coordIn
  | .keyIn => s.keyIn
  | .result => s.result
  | .nbrMask => s.nbrMask.setWidth 64
  | .srcAddr => s.srcAddr
  | .dstAddr => s.dstAddr
  | .count => s.count.setWidth 64
  | .progress => s.progress.setWidth 64
  | .errIndex => s.errIndex.setWidth 64
  | .failCount => s.failCount.setWidth 64
  | .nbr k => s.nbr[k]
  | .reserved => 0#64

/-- A write to an operand register: `s'` when idle; while busy it is ignored and sets OVR (R76). -/
def guardedWrite (s s' : State) : State := if s.busy then { s with ovr := true } else s'

/-- A write to STATUS: a 1 in bit 1 clears DONE, a 1 in bit 2 clears OVR (R23). -/
def writeStatus (v : Word) (s : State) : State :=
  { s with done := s.done && !v.getLsbD 1, ovr := s.ovr && !v.getLsbD 2 }

/-- HOST writes a register other than CMD (R18, R19, R22, R23, R25, R26, R29, R30, R76). CMD has no storage
(R24): its write is `cmdWrite` of Machine/Agents.lean. -/
def writeReg (r : Reg) (v : Word) (s : State) : State :=
  match r with
  | .ctrl => { s with irqEn := v.getLsbD 0 }
  | .status => writeStatus v s
  | .coordIn => guardedWrite s { s with coordIn := v }
  | .keyIn => guardedWrite s { s with keyIn := v }
  | .srcAddr => guardedWrite s { s with srcAddr := v }
  | .dstAddr => guardedWrite s { s with dstAddr := v }
  | .count => guardedWrite s { s with count := v.setWidth 32 }
  | .id | .cmd | .result | .nbrMask | .progress | .errIndex | .failCount | .nbr _ | .reserved => s

/-- The offset of an address in the window, or none outside it (R38a). -/
def windowOffset (base addr : Word) : Option Nat :=
  let off := (addr - base).toNat
  if off < Config.windowBytes then some off else none

/-- A host access is well formed iff it is 8 bytes wide at a multiple of 8 (R39). -/
def goodAccess (addr : Word) (width : Nat) : Bool := width == 8 && addr.toNat % 8 == 0

/-! ### Issue and completion -/

/-- The prologue (R74). -/
def prologue (c : Word) (s : State) : State :=
  { s with
    done := false, err := .ok, abrt := false, vphase := false
    lastCmd := c.extractLsb' 0 10
    progress := 0#32, errIndex := Config.noElement, failCount := 0#32 }

/-- `reject(code)`: completion inside the CMD write (R75). -/
def reject (e : Err) (s : State) : State := { s with err := e, done := true }

/-- Acceptance (R73); the memory is remembered for the races of R52 (entry 8). -/
def accept (c : Word) (s : State) : State :=
  { s with
    busy := true, cursor := 0, vphase := c.getLsbD 7 && c.getLsbD 9
    memAtIssue := s.mem }

/-- `finish()` (R77). -/
def finish (s : State) : State :=
  { s with busy := false, done := true, abrt := false, vphase := false }

/-- Record an element index, if one is given (R78). -/
def setErrIndex (index : Option (BitVec 32)) (s : State) : State :=
  match index with
  | some i => { s with errIndex := i }
  | none => s

/-- `raise Error(code, index)`: the command ends with an error (R78). -/
def raiseError (e : Err) (index : Option (BitVec 32)) (s : State) : State :=
  finish (setErrIndex index { s with err := e })

/-! ### The master port -/

/-- P_MEM_ADMIT(addr, kind): the platform's verdict on an access (R8, R132). -/
def admits (p : Platform) (kind : AccessKind) (addr : Word) : Bool :=
  p.refused.all fun r => !(r.kind == kind && decide (r.first ≤ addr.toNat) && decide (addr.toNat < r.limit))

/-- `MemRead(addr, 8)`: the word, or none for a bus error (R41). -/
def portRead (addr : Word) (s : State) : Option (Word × State) :=
  if admits s.platform .read addr then
    some (readWord s.mem addr, { s with bus := ⟨.read, addr⟩ :: s.bus })
  else none

/-- `MemWrite(addr, 8, v)`: the state after the write, or none for a bus error (R42). -/
def portWrite (addr v : Word) (s : State) : Option State :=
  if admits s.platform .write addr then
    some { s with mem := writeWord s.mem addr v, bus := ⟨.write, addr⟩ :: s.bus }
  else none

/-- The writes of one output element, word after word at ascending addresses (R118): the state after the
writes made, and whether all of them were admitted. -/
def portWrites (addr : Word) : List Word → State → State × Bool
  | [], s => (s, true)
  | v :: vs, s =>
    match portWrite addr v s with
    | none => (s, false)
    | some s' => portWrites (addr + 8#64) vs s'

/-! ### Reset -/

/-- The reset input is asserted (R141): every register takes its reset value; memory and what the platform
fixed stay, and so does what is the model's own. -/
def resetBlock (s : State) : State :=
  { State.reset with
    mem := s.mem, platform := s.platform, sched := s.sched, turn := s.turn, port := s.port
    memAtIssue := s.memAtIssue, bus := s.bus }

end Sys2Proof.Machine
end

