-- ==== Sys2Proof/Machine/Abort.lean ====
section
/-! DEFINITION. ABORT (R82), the one command that acts on the block's control state (R83). -/

namespace Sys2Proof.Machine

/-- ABORT: a pending abort while a command is in progress, no effect at all while idle (R73, R82). ENGINE
takes the pending abort at its next step (`engineStep`, R72). -/
def execAbort (s : State) : Host.Outcome State Fault Refusal :=
  .next (if s.busy then { s with abrt := true } else s)

end Sys2Proof.Machine
end

