-- ==== Sys2Proof/Machine/MortonCodec.lean ====
section
/-! DEFINITION. The Morton codec (R84, R85) and the element functions of FUNC 1 and 2 (R87, R88). -/

namespace Sys2Proof.Machine

/-- Bit `i` of axis `j` of a cell, axis 0 = x, 1 = y, 2 = z (R12). -/
def axisBit (p : Coords) (j i : Nat) : Bool :=
  match j with
  | 0 => p.x.getLsbD i
  | 1 => p.y.getLsbD i
  | _ => p.z.getLsbD i

/-- `morton_enc`: key bit `3i + j` is bit `i` of axis `j` (R84). -/
def mortonEnc (p : Coords) : Key := bitsOf 48 fun n => axisBit p (n % 3) (n / 3)

/-- `morton_dec` (R85). -/
def mortonDec (k : Key) : Coords :=
  { x := bitsOf 16 fun i => k.getLsbD (3 * i)
    y := bitsOf 16 fun i => k.getLsbD (3 * i + 1)
    z := bitsOf 16 fun i => k.getLsbD (3 * i + 2) }

/-- `elem(1, 0, w)` (R87). -/
def elemMenc (w : Word) : ElemResult := { outs := [mkKW (mortonEnc (cwCell w)) .ok], st := .ok }

/-- `elem(2, 0, w)` (R88). -/
def elemMdec (w : Word) : ElemResult := { outs := [mkCW (mortonDec (kwKey w)) .ok], st := .ok }

end Sys2Proof.Machine
end

