-- ==== Sys2Proof/Machine/HilbertCodec.lean ====
section
/-! DEFINITION. The Hilbert codec: the constant tables (R89), the per-level transform (R90), encode and decode
(R91, R92), and the element functions of FUNC 3 to 6 (R94 to R97). The tables are the spec's own choice
from general knowledge (93_implementation_defined.md G1), normative for this hardware. -/

namespace Sys2Proof.Machine

/-- An entry of an 8-entry table of 3-bit values (R89). -/
def tableAt (t : List Octant) (v : Octant) : Octant := t.getD v.toNat 0#3

/-- GC, the Gray code (R89). -/
def gc (v : Octant) : Octant := tableAt [0, 1, 3, 2, 6, 7, 5, 4] v

/-- GCINV, the inverse Gray code (R89). -/
def gcInv (v : Octant) : Octant := tableAt [0, 1, 3, 2, 7, 6, 4, 5] v

/-- ENTRY, the entry corner of child `w` (R89). -/
def entryOf (w : Octant) : Octant := tableAt [0, 0, 0, 3, 3, 6, 6, 5] w

/-- DIR, the direction inside child `w` (R89). -/
def dirOf (w : Octant) : Nat := (tableAt [0, 1, 1, 2, 2, 1, 1, 0] w).toNat

/-- `rotr3(v, r)`, with r taken mod 3 (R90). -/
def rotr3 (v : Octant) (r : Nat) : Octant := (v >>> (r % 3)) ||| (v <<< (3 - r % 3))

/-- `rotl3(v, r)`, with r taken mod 3 (R90). -/
def rotl3 (v : Octant) (r : Nat) : Octant := (v <<< (r % 3)) ||| (v >>> (3 - r % 3))

/-- The state of the recursion: the reflection mask and the rotation (R90). -/
structure Orient where
  e : Octant
  d : Nat
deriving DecidableEq, Repr

/-- The recursion starts at e = 0, d = 0 (R90). -/
def Orient.start : Orient := { e := 0#3, d := 0 }

/-- `T(e, d, l)`: reflect by e, then rotate the axes (R90). -/
def Orient.toCurve (o : Orient) (l : Octant) : Octant := rotr3 (l ^^^ o.e) (o.d + 1)

/-- `Tinv(e, d, t)` (R90). -/
def Orient.fromCurve (o : Orient) (t : Octant) : Octant := rotl3 t (o.d + 1) ^^^ o.e

/-- The update after digit `w` (R90). -/
def Orient.next (o : Orient) (w : Octant) : Orient :=
  { e := o.e ^^^ rotl3 (entryOf w) (o.d + 1), d := (o.d + dirOf w + 1) % 3 }

/-- The digits emitted for a list of octants, coarsest level first: the loop body of R91. -/
def encDigits : Orient → List Octant → List Octant
  | _, [] => []
  | o, l :: ls =>
    let w := gcInv (o.toCurve l)
    w :: encDigits (o.next w) ls

/-- The octants named by a list of digits, coarsest level first: the loop body of R92. -/
def decDigits : Orient → List Octant → List Octant
  | _, [] => []
  | o, w :: ws => o.fromCurve (gc w) :: decDigits (o.next w) ws

/-- The levels, 15 down to 0 (R91). -/
def levels : List Nat := (List.range 16).map (15 - ·)

/-- The octant of a cell at level `i`: `{z[i], y[i], x[i]}` (R91). -/
def octantAt (p : Coords) (i : Nat) : Octant := bitsOf 3 fun j => axisBit p j i

/-- The 3-bit group of a key at level `i`: bits [3i+2:3i] (R91, R92). -/
def digitAt (k : Key) (i : Nat) : Octant := k.extractLsb' (3 * i) 3

/-- The key whose level-`i` group is entry `15 - i` of the list (R91). -/
def keyOfDigits (ds : List Octant) : Key :=
  bitsOf 48 fun n => (ds.getD (15 - n / 3) 0#3).getLsbD (n % 3)

/-- The cell whose level-`i` octant is entry `15 - i` of the list (R92). -/
def cellOfOctants (ls : List Octant) : Coords :=
  { x := bitsOf 16 fun i => (ls.getD (15 - i) 0#3).getLsbD 0
    y := bitsOf 16 fun i => (ls.getD (15 - i) 0#3).getLsbD 1
    z := bitsOf 16 fun i => (ls.getD (15 - i) 0#3).getLsbD 2 }

/-- `hilbert_enc` (R91). -/
def hilbertEnc (p : Coords) : Key := keyOfDigits (encDigits .start (levels.map (octantAt p)))

/-- `hilbert_dec` (R92). -/
def hilbertDec (h : Key) : Coords := cellOfOctants (decDigits .start (levels.map (digitAt h)))

/-- `elem(3, 0, w)` (R94). -/
def elemHenc (w : Word) : ElemResult := { outs := [mkKW (hilbertEnc (cwCell w)) .ok], st := .ok }

/-- `elem(4, 0, w)` (R95). -/
def elemHdec (w : Word) : ElemResult := { outs := [mkCW (hilbertDec (kwKey w)) .ok], st := .ok }

/-- `elem(5, 0, w)` (R96). -/
def elemM2h (w : Word) : ElemResult :=
  { outs := [mkKW (hilbertEnc (mortonDec (kwKey w))) .ok], st := .ok }

/-- `elem(6, 0, w)` (R97). -/
def elemH2m (w : Word) : ElemResult :=
  { outs := [mkKW (mortonEnc (hilbertDec (kwKey w))) .ok], st := .ok }

end Sys2Proof.Machine
end

