-- ==== Sys2Proof/Machine/NeighborTable.lean ====
section
/-! DEFINITION. The neighbor topology engine: the offset table in its fixed order (R101, R102), the neighbor
function (R103), and the element functions of FUNC 8 to 10 (R109 to R111). -/

namespace Sys2Proof.Machine

/-- One integer offset vector (R101). -/
structure Offset where
  dx : Int
  dy : Int
  dz : Int
deriving DecidableEq, Repr

/-- OFF[0] to OFF[13] (R102). -/
def offsets : List Offset :=
  [⟨1, 1, 1⟩, ⟨1, 1, -1⟩, ⟨1, -1, 1⟩, ⟨1, -1, -1⟩,
   ⟨-1, 1, 1⟩, ⟨-1, 1, -1⟩, ⟨-1, -1, 1⟩, ⟨-1, -1, -1⟩,
   ⟨2, 0, 0⟩, ⟨-2, 0, 0⟩, ⟨0, 2, 0⟩, ⟨0, -2, 0⟩, ⟨0, 0, 2⟩, ⟨0, 0, -2⟩]

/-- Whether an integer is a coordinate: in [0, 65535] (R6, R103). -/
def inDomain (n : Int) : Bool := decide (0 ≤ n) && decide (n ≤ 65535)

/-- The neighbor of a cell at an offset, over unbounded integers, or none when it leaves the domain (R103). -/
def neighborAt (p : Coords) (o : Offset) : Option Coords :=
  let nx : Int := p.x.toNat + o.dx
  let ny : Int := p.y.toNat + o.dy
  let nz : Int := p.z.toNat + o.dz
  if inDomain nx && inDomain ny && inDomain nz then
    some { x := BitVec.ofInt 16 nx, y := BitVec.ofInt 16 ny, z := BitVec.ofInt 16 nz }
  else none

/-- The word of an out-of-range slot, whatever the output format (R103). -/
def outOfRangeWord : Word := mkKW 0#48 .outOfRange

/-- `neighbors(x, y, z, F, enc)` (R103, R104). -/
def neighbors (p : Coords) (f : Bool) (enc : Coords → Word) : ElemResult :=
  let cells := offsets.map (neighborAt p)
  if f && cells.any Option.isNone then
    { outs := List.replicate 14 outOfRangeWord, st := .outOfRange }
  else
    { outs := cells.map fun c => (c.map enc).getD outOfRangeWord, st := .ok }

/-- `elem(8, F, w)` (R109). -/
def elemNbrc (f : Bool) (w : Word) : ElemResult := neighbors (cwCell w) f fun p => mkCW p .ok

/-- `elem(9, F, w)` (R110). -/
def elemNbrm (f : Bool) (w : Word) : ElemResult :=
  neighbors (mortonDec (kwKey w)) f fun p => mkKW (mortonEnc p) .ok

/-- `elem(10, F, w)` (R111). -/
def elemNbrh (f : Bool) (w : Word) : ElemResult :=
  neighbors (hilbertDec (kwKey w)) f fun p => mkKW (hilbertEnc p) .ok

end Sys2Proof.Machine
end

