-- ==== Sys2Proof/Machine/ParityRule.lean ====
section
/-! DEFINITION. The BCC parity rule (R98) and the element function of FUNC 7 (R100). -/

namespace Sys2Proof.Machine

/-- `even(x, y, z)`, as the hardware computes it (R98). -/
def evenCell (p : Coords) : Bool := !(xor (xor (p.x.getLsbD 0) (p.y.getLsbD 0)) (p.z.getLsbD 0))

/-- `elem(7, 0, w)` (R100). -/
def elemPchk (w : Word) : ElemResult :=
  if evenCell (cwCell w) then { outs := [mkPW true .ok], st := .ok }
  else { outs := [mkPW false .parityViolation], st := .parityViolation }

end Sys2Proof.Machine
end

