-- ==== Sys2Proof/Machine/Element.lean ====
section
/-! DEFINITION. The element function (R79): the one definition of per-element semantics that the scalar and
the batch form of a function share. -/

namespace Sys2Proof.Machine

/-- `elem(FUNC, F, w)` (R79): total, and reading nothing but its arguments. -/
def elem (fn : Func) (f : Bool) (w : Word) : ElemResult :=
  match fn with
  | .menc => elemMenc w
  | .mdec => elemMdec w
  | .henc => elemHenc w
  | .hdec => elemHdec w
  | .m2h => elemM2h w
  | .h2m => elemH2m w
  | .pchk => elemPchk w
  | .nbrc => elemNbrc f w
  | .nbrm => elemNbrm f w
  | .nbrh => elemNbrh f w

end Sys2Proof.Machine
end

