-- ==== Sys2Proof/Machine/Engine.lean ====
section
/-! DEFINITION. What every command shares: its issue (R73, R113), ENGINE's step (R72), the scalar completion
(R80, R108) and the batch step (R112 to R118). -/

namespace Sys2Proof.Machine

/-! ### Scalar commands -/

/-- Write the result registers of a scalar command (R80): RESULT for FUNC 1 to 7, NBR0 to NBR13 and NBR_MASK
for FUNC 8 to 10. -/
def putResults (fn : Func) (outs : List Word) (s : State) : State :=
  if fn.isNeighbor then { s with nbr := nbrOf outs, nbrMask := maskOf outs }
  else { s with result := outs.getD 0 0#64 }

/-- `scalar_complete()` (R80, R108). -/
def scalarComplete (fn : Func) (f : Bool) (s : State) : State :=
  let r := elem fn f (scalarOperand fn s)
  if r.st = .ok then finish (putResults fn r.outs s)
  else raiseError r.st none (putResults fn r.outs s)

/-! ### Batch commands -/

/-- `osz(f)`: the bytes of one output element (R112). -/
def outSize (fn : Func) : Nat := if fn.isNeighbor then 112 else 8

/-- `batch_check(c)`: the first failing acceptance check, in the order of R113 and R135; none for OK. -/
def batchCheck (fn : Func) (s : State) : Option Err :=
  let n := s.count.toNat
  let src := s.srcAddr.toNat
  let dst := s.dstAddr.toNat
  let o := outSize fn
  if src % 8 ≠ 0 ∨ dst % 8 ≠ 0 then some .misaligned
  else if src + 8 * n > 2 ^ 64 ∨ dst + o * n > 2 ^ 64 then some .addrRange
  else if n > 0 ∧ src < dst + o * n ∧ dst < src + 8 * n then some .overlap
  else none

/-- The address of input element `i` (R112). -/
def inAddr (s : State) (i : Nat) : Word := s.srcAddr + BitVec.ofNat 64 (8 * i)

/-- The address of output element `i` (R112). -/
def outAddr (fn : Func) (s : State) (i : Nat) : Word := s.dstAddr + BitVec.ofNat 64 (outSize fn * i)

/-- The value of a 32-bit element register for element `i` (R31, R32). -/
def elemIndex (i : Nat) : BitVec 32 := BitVec.ofNat 32 i

/-- `validate_step(i)` (R117). -/
def validateStep (fn : Func) (f : Bool) (i : Nat) (s : State) : State :=
  match portRead (inAddr s i) s with
  | none => raiseError .busError (some (elemIndex i)) s
  | some (w, s1) =>
    let r := elem fn f w
    if r.st = .ok then { s1 with cursor := i + 1 }
    else raiseError r.st (some (elemIndex i)) { s1 with failCount := 1#32 }

/-- An element of a write pass had a nonzero status (R118): count it, and keep the first one's code and index. -/
def recordFailure (e : Err) (i : Nat) (s : State) : State :=
  let s1 := { s with failCount := s.failCount + 1#32 }
  if s.errIndex = Config.noElement then { s1 with err := e, errIndex := elemIndex i } else s1

/-- The end of a write step whose writes were all made (R118). -/
def elementWritten (e : Err) (i : Nat) (s : State) : State :=
  let s1 := { s with progress := elemIndex (i + 1) }
  let s2 := if e = .ok then s1 else recordFailure e i s1
  { s2 with cursor := i + 1 }

/-- `write_step(i)` (R118). -/
def writeStep (fn : Func) (f : Bool) (i : Nat) (s : State) : State :=
  match portRead (inAddr s i) s with
  | none => raiseError .busError (some (elemIndex i)) s
  | some (w, s1) =>
    let r := elem fn f w
    match portWrites (outAddr fn s i) r.outs s1 with
    | (s2, false) => raiseError .busError (some (elemIndex i)) s2
    | (s2, true) => elementWritten r.st i s2

/-- `batch_step()` (R116). -/
def batchStep (fn : Func) (f : Bool) (s : State) : State :=
  if s.cursor = s.count.toNat then
    if s.vphase then { s with vphase := false, cursor := 0 } else finish s
  else if s.vphase then validateStep fn f s.cursor s
  else writeStep fn f s.cursor s

/-! ### The two halves of a command -/

/-- One step of ENGINE: a pending abort comes first (R72, R82). -/
def engineStep (body : State → State) (s : State) : State :=
  if s.abrt then raiseError .aborted (some s.progress) s else body s

/-- A scalar command is written to CMD while idle (R73). -/
def issueScalar (i : Instr) (s : State) : State := accept (encode i) (prologue (encode i) s)

/-- A batch command is written to CMD while idle (R73, R113). -/
def issueBatch (i : Instr) (fn : Func) (s : State) : State :=
  match batchCheck fn s with
  | some e => reject e (prologue (encode i) s)
  | none => accept (encode i) (prologue (encode i) s)

/-- A scalar command: its CMD write when idle (R73), ENGINE's step when busy (R72, R80) (entry 6). -/
def scalarCommand (i : Instr) (fn : Func) (f : Bool) (s : State) : State :=
  if s.busy then engineStep (scalarComplete fn f) s else issueScalar i s

/-- A batch command: its CMD write when idle (R73, R113), ENGINE's step when busy (R72, R116) (entry 6). -/
def batchCommand (i : Instr) (fn : Func) (f : Bool) (s : State) : State :=
  if s.busy then engineStep (batchStep fn f) s else issueBatch i fn s

end Sys2Proof.Machine
end

