-- ==== Sys2Proof/Machine/Hilbert.lean ====
section
/-! DEFINITION. Hilbert: the Hilbert codec and key conversion commands (R94 to R97) and their batch forms (R122 to R125). -/

namespace Sys2Proof.Machine

/-- HENC: Hilbert encode COORD_IN into RESULT (R94). -/
def execHenc (s : State) : Host.Outcome State Fault Refusal :=
  .next (scalarCommand .henc .henc false s)

/-- HDEC: Hilbert decode KEY_IN into RESULT (R95). -/
def execHdec (s : State) : Host.Outcome State Fault Refusal :=
  .next (scalarCommand .hdec .hdec false s)

/-- M2H: the Hilbert key of the cell of the Morton key in KEY_IN, into RESULT (R96). -/
def execM2h (s : State) : Host.Outcome State Fault Refusal :=
  .next (scalarCommand .m2h .m2h false s)

/-- H2M: the Morton key of the cell of the Hilbert key in KEY_IN, into RESULT (R97). -/
def execH2m (s : State) : Host.Outcome State Fault Refusal :=
  .next (scalarCommand .h2m .h2m false s)

/-- BHENC: N coordinate words to N Hilbert key words (R122). -/
def execBhenc (a : Bool) (s : State) : Host.Outcome State Fault Refusal :=
  .next (batchCommand (.bhenc a) .henc false s)

/-- BHDEC: N Hilbert key words to N coordinate words (R123). -/
def execBhdec (a : Bool) (s : State) : Host.Outcome State Fault Refusal :=
  .next (batchCommand (.bhdec a) .hdec false s)

/-- BM2H: N Morton key words to N Hilbert key words (R124). -/
def execBm2h (a : Bool) (s : State) : Host.Outcome State Fault Refusal :=
  .next (batchCommand (.bm2h a) .m2h false s)

/-- BH2M: N Hilbert key words to N Morton key words (R125). -/
def execBh2m (a : Bool) (s : State) : Host.Outcome State Fault Refusal :=
  .next (batchCommand (.bh2m a) .h2m false s)

end Sys2Proof.Machine
end

