-- ==== Sys2Proof/Machine/Morton.lean ====
section
/-! DEFINITION. Morton: the Morton codec commands (R87, R88) and their batch forms (R120, R121). -/

namespace Sys2Proof.Machine

/-- MENC: Morton encode COORD_IN into RESULT (R87). -/
def execMenc (s : State) : Host.Outcome State Fault Refusal :=
  .next (scalarCommand .menc .menc false s)

/-- MDEC: Morton decode KEY_IN into RESULT (R88). -/
def execMdec (s : State) : Host.Outcome State Fault Refusal :=
  .next (scalarCommand .mdec .mdec false s)

/-- BMENC: N coordinate words to N Morton key words (R120). -/
def execBmenc (a : Bool) (s : State) : Host.Outcome State Fault Refusal :=
  .next (batchCommand (.bmenc a) .menc false s)

/-- BMDEC: N Morton key words to N coordinate words (R121). -/
def execBmdec (a : Bool) (s : State) : Host.Outcome State Fault Refusal :=
  .next (batchCommand (.bmdec a) .mdec false s)

end Sys2Proof.Machine
end

