-- ==== Sys2Proof/Machine/Neighbor.lean ====
section
/-! DEFINITION. Neighbor: the neighbor commands (R109 to R111) and their batch forms (R127 to R129). -/

namespace Sys2Proof.Machine

/-- NBRC: the 14 neighbors of the cell in COORD_IN, as coordinate words (R109). -/
def execNbrc (f : Bool) (s : State) : Host.Outcome State Fault Refusal :=
  .next (scalarCommand (.nbrc f) .nbrc f s)

/-- NBRM: the 14 neighbors of the Morton key in KEY_IN, as Morton key words (R110). -/
def execNbrm (f : Bool) (s : State) : Host.Outcome State Fault Refusal :=
  .next (scalarCommand (.nbrm f) .nbrm f s)

/-- NBRH: the 14 neighbors of the Hilbert key in KEY_IN, as Hilbert key words (R111). -/
def execNbrh (f : Bool) (s : State) : Host.Outcome State Fault Refusal :=
  .next (scalarCommand (.nbrh f) .nbrh f s)

/-- BNBRC: N coordinate words to N elements of 14 coordinate words (R127). -/
def execBnbrc (f a : Bool) (s : State) : Host.Outcome State Fault Refusal :=
  .next (batchCommand (.bnbrc f a) .nbrc f s)

/-- BNBRM: N Morton key words to N elements of 14 Morton key words (R128). -/
def execBnbrm (f a : Bool) (s : State) : Host.Outcome State Fault Refusal :=
  .next (batchCommand (.bnbrm f a) .nbrm f s)

/-- BNBRH: N Hilbert key words to N elements of 14 Hilbert key words (R129). -/
def execBnbrh (f a : Bool) (s : State) : Host.Outcome State Fault Refusal :=
  .next (batchCommand (.bnbrh f a) .nbrh f s)

end Sys2Proof.Machine
end

