-- ==== Sys2Proof/Machine/Parity.lean ====
section
/-! DEFINITION. Parity: the parity check (R100) and its batch form (R126). -/

namespace Sys2Proof.Machine

/-- PCHK: the parity word of COORD_IN into RESULT (R100). -/
def execPchk (s : State) : Host.Outcome State Fault Refusal :=
  .next (scalarCommand .pchk .pchk false s)

/-- BPCHK: N coordinate words to N parity words (R126). -/
def execBpchk (a : Bool) (s : State) : Host.Outcome State Fault Refusal :=
  .next (batchCommand (.bpchk a) .pchk false s)

end Sys2Proof.Machine
end

