-- ==== Sys2Proof/Machine/Dispatch.lean ====
section
/-! DEFINITION. The meaning of each command (R65): one direct call per constructor. -/

namespace Sys2Proof.Machine

def exec (i : Instr) (s : State) : Host.Outcome State Fault Refusal :=
  match i with
  | .menc => Sys2Proof.Machine.execMenc s
  | .mdec => Sys2Proof.Machine.execMdec s
  | .henc => Sys2Proof.Machine.execHenc s
  | .hdec => Sys2Proof.Machine.execHdec s
  | .m2h => Sys2Proof.Machine.execM2h s
  | .h2m => Sys2Proof.Machine.execH2m s
  | .pchk => Sys2Proof.Machine.execPchk s
  | .nbrc f => Sys2Proof.Machine.execNbrc f s
  | .nbrm f => Sys2Proof.Machine.execNbrm f s
  | .nbrh f => Sys2Proof.Machine.execNbrh f s
  | .bmenc a => Sys2Proof.Machine.execBmenc a s
  | .bmdec a => Sys2Proof.Machine.execBmdec a s
  | .bhenc a => Sys2Proof.Machine.execBhenc a s
  | .bhdec a => Sys2Proof.Machine.execBhdec a s
  | .bm2h a => Sys2Proof.Machine.execBm2h a s
  | .bh2m a => Sys2Proof.Machine.execBh2m a s
  | .bpchk a => Sys2Proof.Machine.execBpchk a s
  | .bnbrc f a => Sys2Proof.Machine.execBnbrc f a s
  | .bnbrm f a => Sys2Proof.Machine.execBnbrm f a s
  | .bnbrh f a => Sys2Proof.Machine.execBnbrh f a s
  | .abort => Sys2Proof.Machine.execAbort s

end Sys2Proof.Machine
end

