-- ==== Sys2Proof/Machine/Agents.lean ====
section
/-! DEFINITION. One move of each agent: HOST's access on the host bus (R38a, R39, R71, R73, R133), ENGINE's
step (R72), a store or load of memory by another agent (R50, R52), and reset (R141); and which move comes
next (R8c). -/

namespace Sys2Proof.Machine

/-- The command in progress: STATUS.LAST_CMD names it (R35, R80). -/
def acceptedCommand (s : State) : Option Instr :=
  match decode (s.lastCmd.setWidth 64) with
  | .ok .abort => none
  | .ok i => some i
  | .error _ => none

/-- ENGINE's turn: a step of the command in progress; nothing when idle (R72). -/
def engineTurn (s : State) : Host.Outcome State Fault Refusal :=
  if s.busy then
    match acceptedCommand s with
    | some i => exec i s
    | none => .fault .noAcceptedCommand
  else .next s

/-- HOST writes `c` to CMD (R73): ABORT in any state, OVR while busy, else the command or ILLEGAL_COMMAND. -/
def cmdWrite (c : Word) (s : State) : Host.Outcome State Fault Refusal :=
  if c = 0xFF#64 then exec .abort s
  else if s.busy then .next { s with ovr := true }
  else match decode c with
    | .ok i => exec i s
    | .error _ => .next (reject .illegalCommand (prologue c s))

/-- HOST reads on the host bus (R20, R39). -/
def hostRead (addr : Word) (width : Nat) (s : State) : State :=
  match windowOffset s.platform.base addr with
  | none => { s with port := .none }
  | some off =>
    if goodAccess addr width then { s with port := .data (bytesOf (readReg (regAt off) s)) }
    else { s with port := .error }

/-- HOST writes on the host bus (R39, R73, R76). -/
def hostWrite (addr : Word) (lanes : List Byte) (s : State) : Host.Outcome State Fault Refusal :=
  match windowOffset s.platform.base addr with
  | none => .next { s with port := .none }
  | some off =>
    if goodAccess addr lanes.length then
      if regAt off = .cmd then cmdWrite (wordOfBytes lanes) { s with port := .written }
      else .next (writeReg (regAt off) (wordOfBytes lanes) { s with port := .written })
    else .next { s with port := .error }

/-- Whether a byte of memory lies in the output range of the batch command in progress (R52, R112). -/
def inOutputRange (k : Nat) (s : State) : Bool :=
  match funcOfCode (s.lastCmd.extractLsb' 0 7) with
  | none => false
  | some fn =>
    s.busy && s.lastCmd.getLsbD 7 && decide (s.dstAddr.toNat ≤ k)
      && decide (k < s.dstAddr.toNat + outSize fn * s.count.toNat)

/-- What another agent reads from a byte of memory (R52): its value; or, where the read races with the command
in progress and `old` says so, its value before the command (entry 8). -/
def memLoadByte (old : Bool) (s : State) (k : Nat) : Byte :=
  if old && inOutputRange k s then readByte s.memAtIssue k else readByte s.mem k

/-- One move of an agent. -/
def runEvent (e : Event) (s : State) : Host.Outcome State Fault Refusal :=
  match e with
  | .host (.read addr width) => .next (hostRead addr width s)
  | .host (.write addr lanes) => hostWrite addr lanes s
  | .engine => engineTurn s
  | .memStore word lanes => .next { s with mem := storeLanes s.mem word lanes }
  | .memLoad word lanes old =>
    .next { s with port := .data (lanes.map fun j => memLoadByte old s (wordLane word j)) }
  | .reset => .next (resetBlock s)

/-- The next move under a schedule: the first of the moves placed; where none is, the schedule's (entry 4). -/
def nextMoveOf (schedule : Nat → Event) (s : State) : Event :=
  match s.sched with
  | [] => schedule s.turn
  | e :: _ => e

/-- The next move (P_SCHED, R8c). -/
def nextMove (s : State) : Event := nextMoveOf Config.schedule s

/-- The state with its next move taken from what is to come. -/
def takeMove (s : State) : State :=
  { s with sched := s.sched.tail, turn := if s.sched = [] then s.turn + 1 else s.turn }

/-- One step under a schedule: P_SCHED is a parameter (R8c, 93_implementation_defined.md P3). -/
def stepOf (schedule : Nat → Event) (s : State) : Host.Outcome State Fault Refusal :=
  runEvent (nextMoveOf schedule s) (takeMove s)

/-- The byte address of the CMD register on the host bus (R17, R38a). -/
def cmdAddr (s : State) : Word := s.platform.base + 0x018#64

/-- HOST's write of a value to CMD, as a move. -/
def cmdWriteEvent (c : Word) (s : State) : Event := .host (.write (cmdAddr s) (bytesOf c))

end Sys2Proof.Machine
end

