-- ==== Sys2Proof/Machine/Step.lean ====
section
/-! DEFINITION. One step of the machine: the next move of P_SCHED (R8c, R71, R72; entry 4). -/

namespace Sys2Proof.Machine

/-- The next move of an agent is made, whichever P_SCHED says it is (R71, R72, R141). -/
def step (s : State) : Host.Outcome State Fault Refusal := stepOf Config.schedule s

/-- The state in which HOST's next access is the write of a command to CMD: the value's low `nbits` bits are
`w`, the rest zero. A command other than ABORT is taken only by an idle block (R73), so BUSY is 0 then
(entry 5). -/
def State.withFetchWord (s : State) (nbits w : Nat) : State :=
  let c := BitVec.ofNat 64 (w % 2 ^ nbits)
  { s with busy := s.busy && c == 0xFF#64, sched := cmdWriteEvent c s :: s.sched }

end Sys2Proof.Machine
end

