-- ==== Sys2Proof/Safety.lean ====
section
/-! DEFINITION. What the claims speak of: the shapes of the commands, runs of a command by ENGINE, the
invariant of the machine, and the Hilbert loops in the spec's own form. -/

namespace Sys2Proof.Machine

/-! ### The shapes of the commands (R65) -/

/-- The function and the F bit of a scalar command. -/
def scalarForm : Instr → Option (Func × Bool)
  | .menc => some (.menc, false)
  | .mdec => some (.mdec, false)
  | .henc => some (.henc, false)
  | .hdec => some (.hdec, false)
  | .m2h => some (.m2h, false)
  | .h2m => some (.h2m, false)
  | .pchk => some (.pchk, false)
  | .nbrc f => some (.nbrc, f)
  | .nbrm f => some (.nbrm, f)
  | .nbrh f => some (.nbrh, f)
  | .bmenc _ | .bmdec _ | .bhenc _ | .bhdec _ | .bm2h _ | .bh2m _ | .bpchk _ => none
  | .bnbrc _ _ | .bnbrm _ _ | .bnbrh _ _ | .abort => none

/-- The function, the F bit and the A bit of a batch command. -/
def batchForm : Instr → Option (Func × Bool × Bool)
  | .bmenc a => some (.menc, false, a)
  | .bmdec a => some (.mdec, false, a)
  | .bhenc a => some (.henc, false, a)
  | .bhdec a => some (.hdec, false, a)
  | .bm2h a => some (.m2h, false, a)
  | .bh2m a => some (.h2m, false, a)
  | .bpchk a => some (.pchk, false, a)
  | .bnbrc f a => some (.nbrc, f, a)
  | .bnbrm f a => some (.nbrm, f, a)
  | .bnbrh f a => some (.nbrh, f, a)
  | .menc | .mdec | .henc | .hdec | .m2h | .h2m | .pchk => none
  | .nbrc _ | .nbrm _ | .nbrh _ | .abort => none

/-! ### Runs -/

/-- `n` steps of ENGINE on command `i`, one after the other. -/
def engineRun (i : Instr) : Nat → State → Host.Outcome State Fault Refusal
  | 0, s => .next s
  | n + 1, s =>
    match exec i s with
    | .next t => engineRun i n t
    | .fault r => .fault r
    | .refused r => .refused r

/-- The machine after `n` moves under a schedule. -/
def runOf (schedule : Nat → Event) : Nat → State → Host.Outcome State Fault Refusal
  | 0, s => .next s
  | n + 1, s =>
    match runOf schedule n s with
    | .next t => stepOf schedule t
    | .fault r => .fault r
    | .refused r => .refused r

/-- R149: the run from `s` under a schedule is weakly fair to ENGINE: where BUSY = 1 from some point on, ENGINE
moves at that point or later. -/
def weaklyFair (schedule : Nat → Event) (s : State) : Prop :=
  ∀ n, (∀ m t, n ≤ m → runOf schedule m s = .next t → t.busy = true) →
    ∃ m t, n ≤ m ∧ runOf schedule m s = .next t ∧ nextMoveOf schedule t = .engine

/-- What a batch command has found true at its acceptance (R113), over unbounded integers: the addresses are
aligned, the ranges end within the memory space, and they share no byte. -/
def batchAccepted (fn : Func) (s : State) : Prop :=
  s.srcAddr.toNat % 8 = 0 ∧ s.dstAddr.toNat % 8 = 0 ∧
    s.srcAddr.toNat + 8 * s.count.toNat ≤ 2 ^ 64 ∧
    s.dstAddr.toNat + outSize fn * s.count.toNat ≤ 2 ^ 64 ∧
    (s.count.toNat = 0 ∨ s.dstAddr.toNat + outSize fn * s.count.toNat ≤ s.srcAddr.toNat ∨
      s.srcAddr.toNat + 8 * s.count.toNat ≤ s.dstAddr.toNat)

/-- The platform admits every access of a batch command to its arrays (R132). -/
def platformAdmits (fn : Func) (s : State) : Prop :=
  (∀ i, i < s.count.toNat → admits s.platform .read (inAddr s i) = true) ∧
    ∀ i j, i < s.count.toNat → 8 * j < outSize fn →
      admits s.platform .write (outAddr fn s i + BitVec.ofNat 64 (8 * j)) = true

/-- Word `i` of the input array (R112). -/
def inputWord (s : State) (i : Nat) : Word := readWord s.mem (inAddr s i)

/-- Word `j` of output element `i` (R112). -/
def outputWord (fn : Func) (s : State) (i j : Nat) : Word :=
  readWord s.mem (outAddr fn s i + BitVec.ofNat 64 (8 * j))

/-- A byte address lies in the output range of a batch command (R112). -/
def inOutput (fn : Func) (s : State) (k : Nat) : Prop :=
  s.dstAddr.toNat ≤ k ∧ k < s.dstAddr.toNat + outSize fn * s.count.toNat

/-! ### What the claims compare with -/

/-- R17 to R34: every offset of the window and what a read of it gives. -/
def windowReads (s : State) : List (Nat × Word) :=
  [(0x000, 0x000000013358494F#64), (0x008, (BitVec.ofBool s.irqEn).setWidth 64), (0x010, statusWord s),
   (0x018, 0#64), (0x020, s.coordIn), (0x028, s.keyIn), (0x030, s.result),
   (0x038, s.nbrMask.setWidth 64), (0x040, s.srcAddr), (0x048, s.dstAddr),
   (0x050, s.count.setWidth 64), (0x058, s.progress.setWidth 64), (0x060, s.errIndex.setWidth 64),
   (0x068, s.failCount.setWidth 64), (0x070, 0#64), (0x078, 0#64),
   (0x080, s.nbr[0]), (0x088, s.nbr[1]), (0x090, s.nbr[2]), (0x098, s.nbr[3]), (0x0A0, s.nbr[4]),
   (0x0A8, s.nbr[5]), (0x0B0, s.nbr[6]), (0x0B8, s.nbr[7]), (0x0C0, s.nbr[8]), (0x0C8, s.nbr[9]),
   (0x0D0, s.nbr[10]), (0x0D8, s.nbr[11]), (0x0E0, s.nbr[12]), (0x0E8, s.nbr[13]),
   (0x0F0, 0#64), (0x0F8, 0#64)]

/-- What a completed write step of element `s.cursor` does to everything but memory and the bus record (R118). -/
def elementRecorded (s : State) (st : Err) (mem : List Host.Cell) (bus : List BusAccess) : State :=
  { s with
    mem := mem, bus := bus, cursor := s.cursor + 1, progress := BitVec.ofNat 32 (s.cursor + 1)
    failCount := if st = .ok then s.failCount else s.failCount + 1#32
    err := if st = .ok ∨ s.errIndex ≠ 0xFFFFFFFF#32 then s.err else st
    errIndex := if st = .ok ∨ s.errIndex ≠ 0xFFFFFFFF#32 then s.errIndex else BitVec.ofNat 32 s.cursor }

/-- OFF[k] by the closed forms of R102: for k < 8 the bits 2, 1, 0 of the slot are the signs of x, y, z, 1
meaning negative; for k ≥ 8 the axis is (k − 8) div 2, positive for even k. -/
def slotOffset (k : Nat) : Offset :=
  let sign : Nat → Int := fun b => if b = 0 then 1 else -1
  if k < 8 then { dx := sign (k / 4 % 2), dy := sign (k / 2 % 2), dz := sign (k % 2) }
  else
    let v := 2 * sign (k % 2)
    { dx := if (k - 8) / 2 = 0 then v else 0
      dy := if (k - 8) / 2 = 1 then v else 0
      dz := if (k - 8) / 2 = 2 then v else 0 }

/-- What a neighbor command leaves in the result registers (R103, R108): with F = 1 and a slot out of range,
every slot marked and ERR = 3; else each slot its neighbor or the out-of-range mark, and the mask of the
slots in range. -/
def neighborOutcome (s t : State) (p : Coords) (f : Bool) (enc : Coords → Word) : Prop :=
  ∃ (nbr : Vector Word 14) (mask : BitVec 14),
    let inside : Fin 14 → Prop := fun k =>
      let o := slotOffset k.val
      0 ≤ (p.x.toNat : Int) + o.dx ∧ (p.x.toNat : Int) + o.dx ≤ 65535 ∧
      0 ≤ (p.y.toNat : Int) + o.dy ∧ (p.y.toNat : Int) + o.dy ≤ 65535 ∧
      0 ≤ (p.z.toNat : Int) + o.dz ∧ (p.z.toNat : Int) + o.dz ≤ 65535
    let fails : Prop := f = true ∧ ∃ k, ¬ inside k
    (fails → ∀ k : Fin 14, nbr[k] = 0x0300000000000000#64 ∧ mask.getLsbD k.val = false) ∧
    (¬ fails → ∀ k : Fin 14,
      (¬ inside k → nbr[k] = 0x0300000000000000#64 ∧ mask.getLsbD k.val = false) ∧
      ∀ q : Coords,
        (q.x.toNat : Int) = p.x.toNat + (slotOffset k.val).dx →
        (q.y.toNat : Int) = p.y.toNat + (slotOffset k.val).dy →
        (q.z.toNat : Int) = p.z.toNat + (slotOffset k.val).dz →
          nbr[k] = enc q ∧ mask.getLsbD k.val = true) ∧
    (fails → t = { s with
      nbr := nbr, nbrMask := mask, err := .outOfRange,
      busy := false, done := true, abrt := false, vphase := false }) ∧
    (¬ fails → t = { s with
      nbr := nbr, nbrMask := mask, busy := false, done := true, abrt := false, vphase := false })

/-- Slot `k` of cell `p` is valid and holds cell `q` (R102, R103). -/
def slotHolds (p : Coords) (k : Nat) (q : Coords) : Prop :=
  ∃ o, offsets[k]? = some o ∧ neighborAt p o = some q

/-- The cells of two keys differ by exactly 1 in exactly one coordinate (R93c). -/
def unitStep (p q : Coords) : Prop :=
  let near : Coord → Coord → Prop := fun a b => a.toNat + 1 = b.toNat ∨ b.toNat + 1 = a.toNat
  (near p.x q.x ∧ p.y = q.y ∧ p.z = q.z) ∨ (p.x = q.x ∧ near p.y q.y ∧ p.z = q.z) ∨
    (p.x = q.x ∧ p.y = q.y ∧ near p.z q.z)

/-! ### The invariant -/

/-- A word has the form of a result word: bits [55:48] and [63:60] are zero and ST is 0, 2 or 3 (R62, R130). -/
def resultWordOk (w : Word) : Bool :=
  w.extractLsb' 48 8 == 0#8 && w.extractLsb' 60 4 == 0#4
    && (wordStatus w == 0#4 || wordStatus w == 2#4 || wordStatus w == 3#4)

/-- The function of the command in progress, when it is a batch command (R23, R59). -/
def runningBatch (s : State) : Option Func :=
  match acceptedCommand s with
  | some i => (batchForm i).map (·.1)
  | none => none

/-- The most ENGINE steps the command in progress still takes (R149): one to take a pending abort or to complete
a scalar command; else one for each element still to come in this pass and one for the pass's end, and the write
pass after the validation pass. -/
def stepsLeft (s : State) : Nat :=
  if s.abrt then 1
  else match runningBatch s with
    | none => 1
    | some _ =>
      let n := s.count.toNat
      if s.vphase then (n - s.cursor + 1) + (n + 1) else n - s.cursor + 1

/-- What holds of the machine at reset and after every step. -/
structure Inv (s : State) : Prop where
  /-- memory is in canonical form -/
  mem_wf : Memory.wf s.mem = true
  /-- so is the memory remembered at acceptance -/
  memAtIssue_wf : Memory.wf s.memAtIssue = true
  /-- the register window lies at a multiple of 0x100 (R8) -/
  base_aligned : s.platform.base.toNat % 0x100 = 0
  /-- codes 1 and 4 never appear in STATUS.ERR (R130, R131) -/
  err_raised : s.err ≠ .invalidField ∧ s.err ≠ .decodeError
  /-- RESULT has the form of a result word (R62) -/
  result_form : resultWordOk s.result = true
  /-- so have NBR0 to NBR13 (R62) -/
  nbr_form : ∀ k : Fin 14, resultWordOk s.nbr[k] = true
  /-- a set bit of NBR_MASK means that slot's ST is 0 (R28) -/
  mask_valid : ∀ k : Fin 14, s.nbrMask.getLsbD k.val = true → wordStatus s.nbr[k] = 0#4
  /-- DONE is clear while a command is in progress (R74, R77) -/
  busy_not_done : s.busy = true → s.done = false
  /-- a pending abort only while a command is in progress (R73, R77) -/
  abrt_busy : s.abrt = true → s.busy = true
  /-- the command in progress is a legal command other than ABORT (R73) -/
  busy_command : s.busy = true → acceptedCommand s ≠ none
  /-- a validation pass only of a batch command with A = 1 (R114) -/
  vphase_batch : s.vphase = true →
    s.busy = true ∧ s.lastCmd.getLsbD 7 = true ∧ s.lastCmd.getLsbD 9 = true
  /-- while a batch runs, its acceptance checks hold (R113, R76) -/
  batch_accepted : s.busy = true → ∀ fn, runningBatch s = some fn → batchAccepted fn s
  /-- ENG.CURSOR is in [0, COUNT.N] while a batch runs (R35) -/
  cursor_le : s.busy = true → runningBatch s ≠ none → s.cursor ≤ s.count.toNat
  /-- in the write pass PROGRESS is the cursor (R118) -/
  progress_cursor : s.busy = true → runningBatch s ≠ none → s.vphase = false →
    s.progress.toNat = s.cursor
  /-- in the validation pass nothing is written or counted yet (R117) -/
  vphase_counts : s.vphase = true → s.progress = 0#32 ∧ s.failCount = 0#32 ∧ s.err = .ok
  /-- while busy, failing elements are among the written ones (R118) -/
  fail_le : s.busy = true → s.failCount.toNat ≤ s.progress.toNat
  /-- while busy, ERR is set exactly with ERR_INDEX (R74, R118) -/
  err_index : s.busy = true → (s.err = .ok ↔ s.errIndex = Config.noElement)

/-! ### The Hilbert loops as R91 and R92 write them -/

/-- One turn of the loop of R91 at level `i`: the key so far and the state (e, d). -/
def hilbertEncTurn (p : Coords) (h : Key × Orient) (i : Nat) : Key × Orient :=
  let l : Octant := BitVec.ofBool (p.z.getLsbD i) ++ BitVec.ofBool (p.y.getLsbD i) ++ BitVec.ofBool (p.x.getLsbD i)
  let w := gcInv (rotr3 (l ^^^ h.2.e) (h.2.d + 1))
  (h.1 ||| (w.setWidth 48 <<< (3 * i)),
    { e := h.2.e ^^^ rotl3 (entryOf w) (h.2.d + 1), d := (h.2.d + dirOf w + 1) % 3 })

/-- The loop of R91, level 15 first. -/
def hilbertEncLoop (p : Coords) : Key :=
  ([15, 14, 13, 12, 11, 10, 9, 8, 7, 6, 5, 4, 3, 2, 1, 0].foldl (hilbertEncTurn p) (0#48, ⟨0#3, 0⟩)).1

/-- One turn of the loop of R92 at level `i`: the cell so far and the state (e, d). -/
def hilbertDecTurn (h : Key) (c : Coords × Orient) (i : Nat) : Coords × Orient :=
  let w : Octant := h.extractLsb' (3 * i) 3
  let l := rotl3 (gc w) (c.2.d + 1) ^^^ c.2.e
  ({ x := c.1.x ||| ((BitVec.ofBool (l.getLsbD 0)).setWidth 16 <<< i)
     y := c.1.y ||| ((BitVec.ofBool (l.getLsbD 1)).setWidth 16 <<< i)
     z := c.1.z ||| ((BitVec.ofBool (l.getLsbD 2)).setWidth 16 <<< i) },
    { e := c.2.e ^^^ rotl3 (entryOf w) (c.2.d + 1), d := (c.2.d + dirOf w + 1) % 3 })

/-- The loop of R92, level 15 first. -/
def hilbertDecLoop (h : Key) : Coords :=
  ([15, 14, 13, 12, 11, 10, 9, 8, 7, 6, 5, 4, 3, 2, 1, 0].foldl (hilbertDecTurn h)
    (⟨0#16, 0#16, 0#16⟩, ⟨0#3, 0⟩)).1

end Sys2Proof.Machine
end

