-- ==== Sys2Proof/Certificates/Slice0/Obligations.lean ====
section
/-! DEFINITION. The statements for the provers. Rule numbers are those of spec/. -/

open Sys2Proof Sys2Proof.Machine

/-! ### Encoding (R58, R59, R65 to R68) -/

/-- R66: the decoder accepts exactly the legal values. -/
def Obligations.DecodeAcceptsExactlyTheLegalValues : Prop :=
  ∀ c : Word, (∃ i, decode c = .ok i) ↔ legal c

/-- R65, R66: each command has one encoding, and each legal value is one command. -/
def Obligations.DecodeAndEncodeAgree : Prop :=
  (∀ i : Instr, decode (encode i) = .ok i) ∧ ∀ (c : Word) (i : Instr), decode c = .ok i → encode i = c

/-- R65, R69: one word for each row of the command map with each of its modifiers, written out from the map,
decodes to the command of that row. -/
def Obligations.SpecWordsDecode : Prop :=
  let map : List (Word × Instr) := [
    (0x001#64, .menc), (0x002#64, .mdec), (0x003#64, .henc), (0x004#64, .hdec), (0x005#64, .m2h),
    (0x006#64, .h2m), (0x007#64, .pchk), (0x0FF#64, .abort), (0x008#64, .nbrc false),
    (0x108#64, .nbrc true), (0x009#64, .nbrm false), (0x109#64, .nbrm true), (0x00A#64, .nbrh false),
    (0x10A#64, .nbrh true), (0x081#64, .bmenc false), (0x281#64, .bmenc true), (0x082#64, .bmdec false),
    (0x282#64, .bmdec true), (0x083#64, .bhenc false), (0x283#64, .bhenc true), (0x084#64, .bhdec false),
    (0x284#64, .bhdec true), (0x085#64, .bm2h false), (0x285#64, .bm2h true), (0x086#64, .bh2m false),
    (0x286#64, .bh2m true), (0x087#64, .bpchk false), (0x287#64, .bpchk true),
    (0x088#64, .bnbrc false false), (0x288#64, .bnbrc false true), (0x188#64, .bnbrc true false),
    (0x388#64, .bnbrc true true), (0x089#64, .bnbrm false false), (0x289#64, .bnbrm false true),
    (0x189#64, .bnbrm true false), (0x389#64, .bnbrm true true), (0x08A#64, .bnbrh false false),
    (0x28A#64, .bnbrh false true), (0x18A#64, .bnbrh true false), (0x38A#64, .bnbrh true true)]
  ∀ row ∈ map, decode row.1 = .ok row.2

/-! ### A step runs the decoded command (R71 to R73) -/

/-- R71, R73, R82: HOST's write of a legal value to the CMD register of an idle block runs that command, and so
does its write of ABORT in either state. Which move is next, and `port`, are the model's own (entries 4, 7). -/
def Obligations.StepRunsTheCommandWritten : Prop :=
  ∀ (s : State) (c : Word) (i : Instr),
    s.platform.base.toNat % 0x100 = 0 → (s.busy = false ∨ c = 0xFF#64) → decode c = .ok i →
    nextMove s = .host (.write (s.platform.base + 0x18#64) (bytesOf c)) →
      step s = exec i { takeMove s with port := .written }

/-- R72: ENGINE's step while BUSY = 1 runs the command LAST_CMD names. Which move is next is the model's own
(entry 4). -/
def Obligations.EngineStepRunsTheAcceptedCommand : Prop :=
  ∀ (s : State) (i : Instr), s.busy = true → i ≠ .abort → decode (s.lastCmd.setWidth 64) = .ok i →
    nextMove s = .engine → step s = exec i (takeMove s)

/-- R72: when BUSY = 0 ENGINE has no step: nothing changes, and the machine is not stuck. That a scheduled turn
of an idle ENGINE is used up is the model's choice (entries 4, 13). -/
def Obligations.EngineIsIdleWhenNotBusy : Prop :=
  ∀ s : State, s.busy = false → nextMove s = .engine →
    step s = .next { s with
      sched := s.sched.tail, turn := if s.sched = [] then s.turn + 1 else s.turn }

/-! ### Issue (R73 to R75, R113) -/

/-- R73, R74: an idle block accepts every scalar command: the prologue, then BUSY. `memAtIssue` is the model's
own (entry 8). -/
def Obligations.ScalarCommandsAreAccepted : Prop :=
  ∀ (i : Instr) (fn : Func) (f : Bool) (s : State), scalarForm i = some (fn, f) → s.busy = false →
    exec i s = .next { s with
      busy := true, done := false, err := .ok, abrt := false, vphase := false,
      lastCmd := (encode i).setWidth 10, progress := 0#32, errIndex := 0xFFFFFFFF#32,
      failCount := 0#32, cursor := 0, memAtIssue := s.mem }

/-- R73 to R75, R113, R135: an idle block rejects a batch command with the first failing check's code, or
accepts it; A = 1 starts the validation pass. `memAtIssue` is the model's own (entry 8). -/
def Obligations.BatchCommandsAreCheckedThenAccepted : Prop :=
  ∀ (i : Instr) (fn : Func) (f a : Bool) (s : State), batchForm i = some (fn, f, a) → s.busy = false →
    let n := s.count.toNat
    let src := s.srcAddr.toNat
    let dst := s.dstAddr.toNat
    let osz := if fn = .nbrc ∨ fn = .nbrm ∨ fn = .nbrh then 112 else 8
    let p : State := { s with
      done := false, err := .ok, abrt := false, vphase := false, lastCmd := (encode i).setWidth 10,
      progress := 0#32, errIndex := 0xFFFFFFFF#32, failCount := 0#32 }
    exec i s = .next (
      if src % 8 ≠ 0 ∨ dst % 8 ≠ 0 then { p with err := .misaligned, done := true }
      else if src + 8 * n > 2 ^ 64 ∨ dst + osz * n > 2 ^ 64 then { p with err := .addrRange, done := true }
      else if n > 0 ∧ src < dst + osz * n ∧ dst < src + 8 * n then
        { p with err := .overlap, done := true }
      else { p with busy := true, cursor := 0, vphase := a, memAtIssue := s.mem })

/-- R67, R74, R75: an illegal value written to CMD while idle is rejected at once with ILLEGAL_COMMAND. -/
def Obligations.IllegalValuesAreRejected : Prop :=
  ∀ (s : State) (c : Word),
    s.platform.base.toNat % 0x100 = 0 → s.busy = false → ¬ legal c →
    nextMove s = .host (.write (s.platform.base + 0x18#64) (bytesOf c)) →
      step s = .next { takeMove s with
        port := .written, done := true, err := .illegalCommand, abrt := false,
        vphase := false, lastCmd := c.setWidth 10, progress := 0#32, errIndex := 0xFFFFFFFF#32,
        failCount := 0#32 }

/-- R73, R76: while busy, a value other than ABORT written to CMD is lost, and OVR records it. -/
def Obligations.CommandsWrittenWhileBusyAreLost : Prop :=
  ∀ (s : State) (c : Word),
    s.platform.base.toNat % 0x100 = 0 → s.busy = true → c ≠ 0xFF#64 →
    nextMove s = .host (.write (s.platform.base + 0x18#64) (bytesOf c)) →
      step s = .next { takeMove s with port := .written, ovr := true }

/-! ### ABORT (R72, R82) -/

/-- R82: ABORT sets a pending abort while busy and does nothing at all while idle. -/
def Obligations.AbortSetsThePendingAbort : Prop :=
  ∀ s : State,
    (s.busy = true → exec .abort s = .next { s with abrt := true }) ∧
    (s.busy = false → exec .abort s = .next s)

/-- R72, R82, R136: a pending abort is taken first: ENGINE's next step ends the command with ABORTED and
ERR_INDEX = PROGRESS, and changes no result register, no memory and no operand. -/
def Obligations.PendingAbortEndsEveryCommand : Prop :=
  ∀ (i : Instr) (s : State), i ≠ .abort → s.busy = true → s.abrt = true →
    exec i s = .next { s with
      busy := false, done := true, abrt := false, vphase := false, err := .aborted,
      errIndex := s.progress }

/-! ### Scalar commands (R80, R87 to R111) -/

/-- R84, R87: MENC puts bit `i` of x, y, z at bits `3i`, `3i+1`, `3i+2` of RESULT, and zero above bit 47. -/
def Obligations.MencInterleavesTheCoordinates : Prop :=
  ∀ s : State, s.busy = true → s.abrt = false →
    ∃ r : Word,
      (∀ i, i < 16 →
        r.getLsbD (3 * i) = s.coordIn.getLsbD i ∧
        r.getLsbD (3 * i + 1) = s.coordIn.getLsbD (16 + i) ∧
        r.getLsbD (3 * i + 2) = s.coordIn.getLsbD (32 + i)) ∧
      (∀ n, 48 ≤ n → r.getLsbD n = false) ∧
      exec .menc s = .next { s with
        result := r, busy := false, done := true, abrt := false, vphase := false }

/-- R85, R88: MDEC puts bits `3i`, `3i+1`, `3i+2` of KEY_IN at bit `i` of X, Y, Z of RESULT. -/
def Obligations.MdecDeinterleavesTheKey : Prop :=
  ∀ s : State, s.busy = true → s.abrt = false →
    ∃ r : Word,
      (∀ i, i < 16 →
        r.getLsbD i = s.keyIn.getLsbD (3 * i) ∧
        r.getLsbD (16 + i) = s.keyIn.getLsbD (3 * i + 1) ∧
        r.getLsbD (32 + i) = s.keyIn.getLsbD (3 * i + 2)) ∧
      (∀ n, 48 ≤ n → r.getLsbD n = false) ∧
      exec .mdec s = .next { s with
        result := r, busy := false, done := true, abrt := false, vphase := false }

/-- R89, R90: the values of the constant tables, the rotations of 3-bit values, and the per-level transform with
its inverse and the update of the state (e, d). -/
def Obligations.HilbertTablesAndTransform : Prop :=
  ([0, 1, 2, 3, 4, 5, 6, 7].map gc = [0, 1, 3, 2, 6, 7, 5, 4]) ∧
  ([0, 1, 2, 3, 4, 5, 6, 7].map gcInv = [0, 1, 3, 2, 7, 6, 4, 5]) ∧
  ([0, 1, 2, 3, 4, 5, 6, 7].map entryOf = [0, 0, 0, 3, 3, 6, 6, 5]) ∧
  ([0, 1, 2, 3, 4, 5, 6, 7].map dirOf = [0, 1, 1, 2, 2, 1, 1, 0]) ∧
  (∀ (v : Octant) (r j : Nat), j < 3 →
    (rotr3 v r).getLsbD j = v.getLsbD ((j + r) % 3) ∧ (rotl3 v r).getLsbD ((j + r) % 3) = v.getLsbD j) ∧
  (∀ v : Octant, gc v = v ^^^ (v >>> 1) ∧ gc (gcInv v) = v) ∧
  (∀ (o : Orient) (l w : Octant),
    o.toCurve l = rotr3 (l ^^^ o.e) (o.d + 1) ∧ o.fromCurve l = rotl3 l (o.d + 1) ^^^ o.e ∧
    o.fromCurve (o.toCurve l) = l ∧
    o.next w = ⟨o.e ^^^ rotl3 (entryOf w) (o.d + 1), (o.d + dirOf w + 1) % 3⟩) ∧
  Orient.start = ⟨0, 0⟩

/-- R91, R92, R94 to R97: HENC, HDEC, M2H and H2M write the key or the cell that the loops of R91 and R92
give, with bits [63:48] zero, and the operand's bits [63:48] are ignored. -/
def Obligations.HilbertCommandsFollowTheLoops : Prop :=
  ∀ s : State, s.busy = true → s.abrt = false →
    let c : Coords := ⟨s.coordIn.extractLsb' 0 16, s.coordIn.extractLsb' 16 16, s.coordIn.extractLsb' 32 16⟩
    let k : Key := s.keyIn.extractLsb' 0 48
    let cw : Coords → Word := fun p => 0#16 ++ p.z ++ p.y ++ p.x
    let kw : Key → Word := fun k => 0#16 ++ k
    let t : State := { s with busy := false, done := true, abrt := false, vphase := false }
    exec .henc s = .next { t with result := kw (hilbertEncLoop c) } ∧
    exec .hdec s = .next { t with result := cw (hilbertDecLoop k) } ∧
    exec .m2h s = .next { t with result := kw (hilbertEncLoop (mortonDec k)) } ∧
    exec .h2m s = .next { t with result := kw (mortonEnc (hilbertDecLoop k)) }

/-- R98, R100: PCHK on a triple with an even sum writes 0x1; on a triple with an odd sum it writes
0x0200_0000_0000_0000 and reports PARITY_VIOLATION, with no index. -/
def Obligations.PchkReportsTheParityOfTheSum : Prop :=
  ∀ s : State, s.busy = true → s.abrt = false →
    let sum := (s.coordIn.extractLsb' 0 16).toNat + (s.coordIn.extractLsb' 16 16).toNat
      + (s.coordIn.extractLsb' 32 16).toNat
    exec .pchk s = .next (
      if sum % 2 = 0 then
        { s with result := 0x1#64, busy := false, done := true, abrt := false, vphase := false }
      else { s with
        result := 0x0200000000000000#64, err := .parityViolation,
        busy := false, done := true, abrt := false, vphase := false })

/-- R103, R104, R108 to R111: NBRC, NBRM and NBRH, for both values of F. -/
def Obligations.NeighborCommandsGiveTheFourteenNeighbors : Prop :=
  ∀ (s : State) (f : Bool), s.busy = true → s.abrt = false →
    (∃ t, exec (.nbrc f) s = .next t ∧
      neighborOutcome s t (cwCell s.coordIn) f fun p => 0#16 ++ p.z ++ p.y ++ p.x) ∧
    (∃ t, exec (.nbrm f) s = .next t ∧
      neighborOutcome s t (mortonDec (kwKey s.keyIn)) f fun p => 0#16 ++ mortonEnc p) ∧
    (∃ t, exec (.nbrh f) s = .next t ∧
      neighborOutcome s t (hilbertDec (kwKey s.keyIn)) f fun p => 0#16 ++ hilbertEnc p)

/-- R73, R74, R80, R149: a scalar command written to an idle block finishes in one ENGINE step; the record
is the element's status with no index, and only RESULT, or NBR0 to NBR13 and NBR_MASK, take a new value. -/
def Obligations.ScalarCommandsFinishInOneEngineStep : Prop :=
  ∀ (i : Instr) (fn : Func) (f : Bool) (s : State), scalarForm i = some (fn, f) → s.busy = false →
    ∃ t u, exec i s = .next t ∧ exec i t = .next u ∧
      u.busy = false ∧ u.done = true ∧ u.abrt = false ∧ u.vphase = false ∧ u.ovr = s.ovr ∧
      u.err = (elem fn f (scalarOperand fn s)).st ∧ u.errIndex = 0xFFFFFFFF#32 ∧
      u.progress = 0#32 ∧ u.failCount = 0#32 ∧ u.lastCmd = (encode i).setWidth 10 ∧
      u.mem = s.mem ∧ u.bus = s.bus ∧ u.irqEn = s.irqEn ∧ u.platform = s.platform ∧
      u.coordIn = s.coordIn ∧ u.keyIn = s.keyIn ∧ u.srcAddr = s.srcAddr ∧ u.dstAddr = s.dstAddr ∧
      u.count = s.count ∧ u.sched = s.sched ∧ u.turn = s.turn ∧ u.port = s.port ∧
      (fn.isNeighbor = false → u.nbr = s.nbr ∧ u.nbrMask = s.nbrMask ∧
        (elem fn f (scalarOperand fn s)).outs = [u.result]) ∧
      (fn.isNeighbor = true → u.result = s.result ∧
        (elem fn f (scalarOperand fn s)).outs = u.nbr.toList ∧
        ∀ k : Fin 14, u.nbrMask.getLsbD k.val = (wordStatus u.nbr[k] == 0#4))

/-! ### Batch commands (R112 to R119) -/

/-- R116: at the end of the validation pass the write pass begins; at the end of the write pass the command
finishes and ERR keeps what it holds. -/
def Obligations.BatchPassesEnd : Prop :=
  ∀ (i : Instr) (fn : Func) (f a : Bool) (s : State), batchForm i = some (fn, f, a) →
    s.busy = true → s.abrt = false → s.cursor = s.count.toNat →
    exec i s = .next (
      if s.vphase then { s with vphase := false, cursor := 0 }
      else { s with busy := false, done := true, abrt := false, vphase := false })

/-- R117: a validation step whose read is admitted: the cursor moves on, or the whole batch is rejected at
this element; nothing is written. `bus` is the model's own record of the accesses (entry 11). -/
def Obligations.BatchValidationStepReadsOneElement : Prop :=
  ∀ (i : Instr) (fn : Func) (f a : Bool) (s : State), batchForm i = some (fn, f, a) →
    s.busy = true → s.abrt = false → s.vphase = true → s.cursor ≠ s.count.toNat →
    admits s.platform .read (s.srcAddr + BitVec.ofNat 64 (8 * s.cursor)) = true →
    let addr := s.srcAddr + BitVec.ofNat 64 (8 * s.cursor)
    let st := (elem fn f (readWord s.mem addr)).st
    exec i s = .next (
      if st = .ok then { s with cursor := s.cursor + 1, bus := ⟨.read, addr⟩ :: s.bus }
      else { s with
        bus := ⟨.read, addr⟩ :: s.bus, failCount := 1#32, err := st,
        errIndex := BitVec.ofNat 32 s.cursor,
        busy := false, done := true, abrt := false, vphase := false })

/-- R117, R118, R132: in either pass a refused read ends the command with BUS_ERROR at this element, and
nothing else changes. -/
def Obligations.RefusedReadEndsTheBatch : Prop :=
  ∀ (i : Instr) (fn : Func) (f a : Bool) (s : State), batchForm i = some (fn, f, a) →
    s.busy = true → s.abrt = false → s.cursor ≠ s.count.toNat →
    admits s.platform .read (s.srcAddr + BitVec.ofNat 64 (8 * s.cursor)) = false →
    exec i s = .next { s with
      err := .busError, errIndex := BitVec.ofNat 32 s.cursor,
      busy := false, done := true, abrt := false, vphase := false }

/-- R112, R118: a write step of a command with one word per element (BMENC to BPCHK): the element's word is
stored at DST_ADDR + 8i, every other byte is as before, and the element is recorded. -/
def Obligations.BatchWriteStepStoresOneWord : Prop :=
  ∀ (i : Instr) (fn : Func) (f a : Bool) (s : State), batchForm i = some (fn, f, a) →
    fn.isNeighbor = false → Memory.wf s.mem = true →
    s.busy = true → s.abrt = false → s.vphase = false → s.cursor ≠ s.count.toNat →
    admits s.platform .read (s.srcAddr + BitVec.ofNat 64 (8 * s.cursor)) = true →
    admits s.platform .write (s.dstAddr + BitVec.ofNat 64 (8 * s.cursor)) = true →
    let src := s.srcAddr + BitVec.ofNat 64 (8 * s.cursor)
    let dst := s.dstAddr + BitVec.ofNat 64 (8 * s.cursor)
    let r := elem fn f (readWord s.mem src)
    ∃ mem, exec i s = .next (elementRecorded s r.st mem (⟨.write, dst⟩ :: ⟨.read, src⟩ :: s.bus)) ∧
      r.outs = [readWord mem dst] ∧
      ∀ k, (∀ j, j < 8 → k ≠ (dst + BitVec.ofNat 64 j).toNat) → readByte mem k = readByte s.mem k

/-- R112, R118: a write step of BNBRC, BNBRM or BNBRH: the fourteen words are stored at DST_ADDR + 112i + 8j
in ascending order, every other byte is as before, and the element is recorded. -/
def Obligations.BatchWriteStepStoresFourteenWords : Prop :=
  ∀ (i : Instr) (fn : Func) (f a : Bool) (s : State), batchForm i = some (fn, f, a) →
    fn.isNeighbor = true → Memory.wf s.mem = true → s.dstAddr.toNat % 8 = 0 →
    s.busy = true → s.abrt = false → s.vphase = false → s.cursor ≠ s.count.toNat →
    let src := s.srcAddr + BitVec.ofNat 64 (8 * s.cursor)
    let dst : Nat → Word := fun j => s.dstAddr + BitVec.ofNat 64 (112 * s.cursor + 8 * j)
    let r := elem fn f (readWord s.mem src)
    admits s.platform .read src = true →
    (∀ j, j < 14 → admits s.platform .write (dst j) = true) →
    ∃ mem, exec i s = .next (elementRecorded s r.st mem
        (((List.range 14).reverse.map fun j => ⟨.write, dst j⟩) ++ ⟨.read, src⟩ :: s.bus)) ∧
      r.outs = (List.range 14).map (fun j => readWord mem (dst j)) ∧
      ∀ k, (∀ j l, j < 14 → l < 8 → k ≠ (dst j + BitVec.ofNat 64 l).toNat) →
        readByte mem k = readByte s.mem k

/-- R118, R132, R136: where the write of word `j` of the element is refused, words 0 to j−1 are stored, no
other byte changes, and the command ends with BUS_ERROR at this element, not counted in PROGRESS or FAIL_COUNT. -/
def Obligations.RefusedWriteKeepsTheWordsBefore : Prop :=
  ∀ (i : Instr) (fn : Func) (f a : Bool) (s : State) (j : Nat), batchForm i = some (fn, f, a) →
    Memory.wf s.mem = true → s.dstAddr.toNat % 8 = 0 →
    s.busy = true → s.abrt = false → s.vphase = false → s.cursor ≠ s.count.toNat →
    let src := s.srcAddr + BitVec.ofNat 64 (8 * s.cursor)
    let osz := if fn.isNeighbor then 112 else 8
    let dst : Nat → Word := fun j => s.dstAddr + BitVec.ofNat 64 (osz * s.cursor + 8 * j)
    let r := elem fn f (readWord s.mem src)
    8 * j < osz →
    admits s.platform .read src = true →
    (∀ l, l < j → admits s.platform .write (dst l) = true) →
    admits s.platform .write (dst j) = false →
    ∃ mem, exec i s = .next { s with
        mem := mem, bus := ((List.range j).reverse.map fun l => ⟨.write, dst l⟩) ++ ⟨.read, src⟩ :: s.bus,
        err := .busError, errIndex := BitVec.ofNat 32 s.cursor,
        busy := false, done := true, abrt := false, vphase := false } ∧
      (∀ l, l < j → r.outs[l]? = some (readWord mem (dst l))) ∧
      ∀ k, (∀ l m, l < j → m < 8 → k ≠ (dst l + BitVec.ofNat 64 m).toNat) →
        readByte mem k = readByte s.mem k

/-- R81, R112, R118, R119, R149: a batch of N elements with A = 0 whose accesses are all admitted finishes
in N + 1 ENGINE steps; every output word is the element function's word for the input word (the function that
ScalarCommandsFinishInOneEngineStep says a scalar command computes); no byte outside the output range changes; FAIL_COUNT counts the failing elements;
ERR and ERR_INDEX are those of the first one; the operand and result registers keep their values. -/
def Obligations.BatchEqualsScalarElementForElement : Prop :=
  ∀ (i : Instr) (fn : Func) (f : Bool) (s : State), batchForm i = some (fn, f, false) →
    s.busy = false → Memory.wf s.mem = true → batchAccepted fn s → platformAdmits fn s →
    ∃ t u, exec i s = .next t ∧ engineRun i (s.count.toNat + 1) t = .next u ∧
      u.busy = false ∧ u.done = true ∧ u.progress = s.count ∧
      (∀ n, n < s.count.toNat →
        (elem fn f (inputWord s n)).outs =
          (List.range (outSize fn / 8)).map (fun j => outputWord fn u n j)) ∧
      (∀ k, ¬ inOutput fn s k → readByte u.mem k = readByte s.mem k) ∧
      u.failCount.toNat =
        ((List.range s.count.toNat).filter fun n => (elem fn f (inputWord s n)).st ≠ .ok).length ∧
      ((∀ n, n < s.count.toNat → (elem fn f (inputWord s n)).st = .ok) →
        u.err = .ok ∧ u.errIndex = 0xFFFFFFFF#32) ∧
      (∀ n, n < s.count.toNat → (elem fn f (inputWord s n)).st ≠ .ok →
        (∀ m, m < n → (elem fn f (inputWord s m)).st = .ok) →
          u.err = (elem fn f (inputWord s n)).st ∧ u.errIndex.toNat = n) ∧
      u.srcAddr = s.srcAddr ∧ u.dstAddr = s.dstAddr ∧ u.count = s.count ∧
      u.result = s.result ∧ u.nbrMask = s.nbrMask ∧ u.nbr = s.nbr

/-- R114, R117, R119: with A = 1, a batch whose first invalid element is n0 is rejected as a whole after
n0 + 1 ENGINE steps: memory is untouched, ERR and ERR_INDEX name that element, FAIL_COUNT = 1, PROGRESS = 0. -/
def Obligations.InvalidElementRejectsTheWholeBatch : Prop :=
  ∀ (i : Instr) (fn : Func) (f : Bool) (s : State) (n0 : Nat), batchForm i = some (fn, f, true) →
    s.busy = false → batchAccepted fn s → n0 < s.count.toNat →
    (∀ n, n ≤ n0 → admits s.platform .read (inAddr s n) = true) →
    (∀ n, n < n0 → (elem fn f (inputWord s n)).st = .ok) →
    (elem fn f (inputWord s n0)).st ≠ .ok →
    ∃ t u, exec i s = .next t ∧ engineRun i (n0 + 1) t = .next u ∧
      u.busy = false ∧ u.done = true ∧ u.mem = s.mem ∧
      u.err = (elem fn f (inputWord s n0)).st ∧ u.errIndex.toNat = n0 ∧
      u.failCount = 1#32 ∧ u.progress = 0#32

/-- R114, R116, R149: with A = 1 and no invalid element, the batch finishes in 2N + 2 ENGINE steps, and
leaves the memory and the record that the command with A = 0 leaves. -/
def Obligations.ValidBatchIsIndifferentToThePolicy : Prop :=
  ∀ (i i0 : Instr) (fn : Func) (f : Bool) (s : State),
    batchForm i = some (fn, f, true) → batchForm i0 = some (fn, f, false) →
    s.busy = false → batchAccepted fn s → platformAdmits fn s →
    (∀ n, n < s.count.toNat → (elem fn f (inputWord s n)).st = .ok) →
    ∃ t u t0 u0, exec i s = .next t ∧ engineRun i (2 * s.count.toNat + 2) t = .next u ∧
      exec i0 s = .next t0 ∧ engineRun i0 (s.count.toNat + 1) t0 = .next u0 ∧
      u.busy = false ∧ u.done = true ∧ u.mem = u0.mem ∧ u.err = .ok ∧ u.errIndex = 0xFFFFFFFF#32 ∧
      u.failCount = 0#32 ∧ u.progress = s.count ∧ u0.busy = false ∧ u0.done = true ∧ u0.err = .ok ∧
      u0.errIndex = 0xFFFFFFFF#32 ∧ u0.failCount = 0#32 ∧ u0.progress = s.count

/-! ### The laws of the codecs (R86, R93, R96, R97) -/

/-- R86: the Morton codec is a bijection, and with two coordinates fixed its key is strictly increasing in
the third. -/
def Obligations.MortonRoundTripsAndIsMonotone : Prop :=
  (∀ p : Coords, mortonDec (mortonEnc p) = p) ∧ (∀ k : Key, mortonEnc (mortonDec k) = k) ∧
  ∀ x y z v : Coord,
    (x.toNat < v.toNat → (mortonEnc ⟨x, y, z⟩).toNat < (mortonEnc ⟨v, y, z⟩).toNat) ∧
    (y.toNat < v.toNat → (mortonEnc ⟨x, y, z⟩).toNat < (mortonEnc ⟨x, v, z⟩).toNat) ∧
    (z.toNat < v.toNat → (mortonEnc ⟨x, y, z⟩).toNat < (mortonEnc ⟨x, y, v⟩).toNat)

/-- R93 (a), (b): the Hilbert codec is a bijection. -/
def Obligations.HilbertRoundTrips : Prop :=
  (∀ p : Coords, hilbertDec (hilbertEnc p) = p) ∧ ∀ h : Key, hilbertEnc (hilbertDec h) = h

/-- R93 (c), (d): the curve starts at (0, 0, 0), ends at (65535, 0, 0), and consecutive keys are one unit
step apart. -/
def Obligations.HilbertCurveIsContinuous : Prop :=
  hilbertDec 0#48 = ⟨0#16, 0#16, 0#16⟩ ∧ hilbertDec 0xFFFFFFFFFFFF#48 = ⟨65535#16, 0#16, 0#16⟩ ∧
  ∀ h : Key, h.toNat < 2 ^ 48 - 1 → unitStep (hilbertDec h) (hilbertDec (h + 1#48))

/-- R93 (e): two keys agree on bits [47:3i] exactly when their cells lie in one aligned sub-cube of side 2^i. -/
def Obligations.HilbertKeysNest : Prop :=
  ∀ (h k : Key) (i : Nat), i ≤ 16 →
    (h.toNat / 2 ^ (3 * i) = k.toNat / 2 ^ (3 * i) ↔
      (hilbertDec h).x.toNat / 2 ^ i = (hilbertDec k).x.toNat / 2 ^ i ∧
      (hilbertDec h).y.toNat / 2 ^ i = (hilbertDec k).y.toNat / 2 ^ i ∧
      (hilbertDec h).z.toNat / 2 ^ i = (hilbertDec k).z.toNat / 2 ^ i)

/-- R96, R97: the ENGINE steps of M2H and H2M, one after the other with KEY_IN set to the first one's RESULT,
give the 48 bits of the key back. -/
def Obligations.KeyConversionsAreInverse : Prop :=
  ∀ s : State, s.busy = true → s.abrt = false →
    (∃ t, exec .m2h s = .next t ∧
      ∃ u, exec .h2m { t with busy := true, keyIn := t.result } = .next u ∧
        u.result = s.keyIn &&& 0x0000FFFFFFFFFFFF#64) ∧
    (∃ t, exec .h2m s = .next t ∧
      ∃ u, exec .m2h { t with busy := true, keyIn := t.result } = .next u ∧
        u.result = s.keyIn &&& 0x0000FFFFFFFFFFFF#64)

/-! ### Parity and neighbors (R98, R99, R105 to R107) -/

/-- R98: a triple is even iff its sum is, and the parity circuit, NOT (x[0] XOR y[0] XOR z[0]), computes that. -/
def Obligations.ParityCircuitIsTheSumRule : Prop :=
  ∀ p : Coords, (evenCell p = true ↔ (p.x.toNat + p.y.toNat + p.z.toNat) % 2 = 0) ∧
    evenCell p = !((p.x.getLsbD 0 ^^ p.y.getLsbD 0) ^^ p.z.getLsbD 0)

/-- R99: the validator gives the right answer for signed coordinates, as two's-complement patterns and
shifted by 32768. -/
def Obligations.ParityOfSignedCoordinates : Prop :=
  ∀ x y z : Int, -32768 ≤ x → x ≤ 32767 → -32768 ≤ y → y ≤ 32767 → -32768 ≤ z → z ≤ 32767 →
    (evenCell ⟨BitVec.ofInt 16 x, BitVec.ofInt 16 y, BitVec.ofInt 16 z⟩ = true ↔ (x + y + z) % 2 = 0) ∧
    (evenCell ⟨BitVec.ofInt 16 (x + 32768), BitVec.ofInt 16 (y + 32768), BitVec.ofInt 16 (z + 32768)⟩ = true
      ↔ (x + y + z) % 2 = 0)

/-- R105: under F = 1 the neighbor function fails iff some coordinate is 0, 1, 65534 or 65535. -/
def Obligations.NeighborsFailExactlyAtTheEdges : Prop :=
  ∀ (p : Coords) (enc : Coords → Word),
    (neighbors p true enc).st = .outOfRange ↔
      ∃ v ∈ [p.x, p.y, p.z], v.toNat = 0 ∨ v.toNat = 1 ∨ v.toNat = 65534 ∨ v.toNat = 65535

/-- R106, R107 (d): an axis neighbor has the cell's parity and squared distance 4; a diagonal neighbor has
the opposite parity and squared distance 3. -/
def Obligations.NeighborParityAndDistance : Prop :=
  ∀ (p q : Coords) (k : Nat), slotHolds p k q →
    let d2 := ((q.x.toNat : Int) - p.x.toNat) ^ 2 + ((q.y.toNat : Int) - p.y.toNat) ^ 2
      + ((q.z.toNat : Int) - p.z.toNat) ^ 2
    if k < 8 then evenCell q = !evenCell p ∧ d2 = 3 else evenCell q = evenCell p ∧ d2 = 4

/-- R107 (b): the valid neighbors are pairwise distinct cells, and none is the cell itself. -/
def Obligations.NeighborsAreDistinct : Prop :=
  ∀ (p q q' : Coords) (k k' : Nat), slotHolds p k q → slotHolds p k' q' →
    q ≠ p ∧ (k ≠ k' → q ≠ q')

/-- R102, R107 (c): if slot `k` of A holds B, the opposite slot of B holds A. -/
def Obligations.NeighborsAreSymmetric : Prop :=
  ∀ (p q : Coords) (k : Nat), slotHolds p k q →
    slotHolds q (if k < 8 then k ^^^ 7 else k ^^^ 1) p

/-- R107 (e): for a Morton key and the Hilbert key M2H gives for it, NBRM and NBRH mark the same slots, and
in every valid slot the Morton key of NBRH's cell is NBRM's key. -/
def Obligations.NeighborsDoNotDependOnTheKeyFormat : Prop :=
  ∀ (f : Bool) (k : Key) (j : Nat), j < 14 →
    let m := (elem .nbrm f (k.setWidth 64)).outs.getD j 0#64
    let h := (elem .nbrh f ((hilbertEnc (mortonDec k)).setWidth 64)).outs.getD j 0#64
    wordStatus m = wordStatus h ∧
      (wordStatus m = 0#4 → kwKey m = mortonEnc (hilbertDec (kwKey h)))

/-! ### The register window (R17 to R34, R39, R76) -/

/-- R17, R20, R40: HOST's 8-byte read of an aligned offset answers the register's bytes, lowest address first,
and changes nothing of the block. -/
def Obligations.ReadsReturnTheRegisters : Prop :=
  ∀ (s : State) (off : Nat) (v : Word), s.platform.base.toNat % 0x100 = 0 →
    (off, v) ∈ windowReads s →
    nextMove s = .host (.read (s.platform.base + BitVec.ofNat 64 off) 8) →
    step s = .next { takeMove s with
      port := .data ((List.range 8).map fun j => v.extractLsb' (8 * j) 8) }

/-- R23, R130: the fields of STATUS as HOST reads it, the number of each error code, and every other bit zero. -/
def Obligations.StatusFields : Prop :=
  ∀ s : State,
    let v := statusWord s
    v.getLsbD 0 = s.busy ∧ v.getLsbD 1 = s.done ∧ v.getLsbD 2 = s.ovr ∧ v.getLsbD 3 = s.abrt ∧
      v.getLsbD 4 = s.vphase ∧ v.extractLsb' 5 3 = 0#3 ∧ (v.extractLsb' 8 4).toNat = (match s.err with
        | .ok => 0
        | .invalidField => 1
        | .parityViolation => 2
        | .outOfRange => 3
        | .decodeError => 4
        | .illegalCommand => 5
        | .misaligned => 6
        | .overlap => 7
        | .busError => 8
        | .aborted => 9
        | .addrRange => 10) ∧
      v.extractLsb' 12 4 = 0#4 ∧ v.extractLsb' 16 10 = s.lastCmd ∧ v.extractLsb' 26 38 = 0#38

/-- R17, R18, R19: HOST's writes to the read-only registers and to the reserved offsets change nothing, not
even OVR, and complete without error. -/
def Obligations.ReadOnlyWritesAreIgnored : Prop :=
  ∀ (s : State) (off : Nat) (v : Word), s.platform.base.toNat % 0x100 = 0 →
    off < 0x100 → off % 8 = 0 →
    off ∉ [0x008, 0x010, 0x018, 0x020, 0x028, 0x040, 0x048, 0x050] →
    nextMove s = .host (.write (s.platform.base + BitVec.ofNat 64 off) (bytesOf v)) →
    step s = .next { takeMove s with port := .written }

/-- R25, R26, R29, R30, R76: a write to an operand register takes effect when idle; while busy it is ignored
and sets OVR. -/
def Obligations.OperandWrites : Prop :=
  ∀ (s : State) (v : Word) (off : Nat), s.platform.base.toNat % 0x100 = 0 →
    nextMove s = .host (.write (s.platform.base + BitVec.ofNat 64 off) (bytesOf v)) →
    off ∈ [0x020, 0x028, 0x040, 0x048, 0x050] →
    let t : State := { takeMove s with port := .written }
    step s = .next (
      if s.busy then { t with ovr := true }
      else if off = 0x020 then { t with coordIn := v }
      else if off = 0x028 then { t with keyIn := v }
      else if off = 0x040 then { t with srcAddr := v }
      else if off = 0x048 then { t with dstAddr := v }
      else { t with count := v.setWidth 32 })

/-- R22, R23: a write to CTRL sets IRQ_EN from bit 0; a write to STATUS clears DONE where bit 1 is set and
OVR where bit 2 is set; both while busy too, and OVR is not set by either. -/
def Obligations.ControlAndStatusWrites : Prop :=
  ∀ (s : State) (v : Word), s.platform.base.toNat % 0x100 = 0 →
    (nextMove s = .host (.write (s.platform.base + 0x008#64) (bytesOf v)) →
      step s = .next { takeMove s with port := .written, irqEn := v.getLsbD 0 }) ∧
    (nextMove s = .host (.write (s.platform.base + 0x010#64) (bytesOf v)) →
      step s = .next { takeMove s with
        port := .written,
        done := if v.getLsbD 1 then false else s.done, ovr := if v.getLsbD 2 then false else s.ovr })

/-- R39, R133: an access to the window that is not 8 bytes wide at a multiple of 8 gets an error response and
changes nothing of the block. -/
def Obligations.MalformedAccessesChangeNothing : Prop :=
  ∀ (s : State) (off width : Nat) (lanes : List Byte),
    s.platform.base.toNat % 0x100 = 0 → off < 0x100 →
    (nextMove s = .host (.read (s.platform.base + BitVec.ofNat 64 off) width) →
      (width ≠ 8 ∨ off % 8 ≠ 0) → step s = .next { takeMove s with port := .error }) ∧
    (nextMove s = .host (.write (s.platform.base + BitVec.ofNat 64 off) lanes) →
      (lanes.length ≠ 8 ∨ off % 8 ≠ 0) → step s = .next { takeMove s with port := .error })

/-- R137: every completion by ENGINE, and every rejection of a batch command, leaves IRQ high iff CTRL.IRQ_EN
is set. -/
def Obligations.CompletionsRaiseTheInterrupt : Prop :=
  ∀ (i : Instr) (s t : State), exec i s = .next t → i ≠ .abort → t.busy = false →
    irq t = s.irqEn

/-! ### Reset (R37, R141) -/

/-- R21, R37, R141: what HOST reads at each offset of the window after reset, and that IRQ is low. -/
def Obligations.ResetValues : Prop :=
  irq State.reset = false ∧ State.reset.cursor = 0 ∧
  ∀ (off : Nat) (v : Word), (off, v) ∈ windowReads State.reset →
    v = if off = 0x000 then 0x000000013358494F#64 else if off = 0x060 then 0x00000000FFFFFFFF#64 else 0#64

/-- R141: reset between two steps: the registers, and so BUSY and DONE, take their reset values, whatever
command was in progress, and memory stays. What else the model holds around the block stays too: the
platform, which is fixed for the run (R143), and the model's own fields (entry 10). -/
def Obligations.ResetEvent : Prop :=
  ∀ s : State, nextMove s = .reset →
    ∃ t, step s = .next t ∧ t.cursor = 0 ∧ irq t = false ∧ windowReads t = windowReads State.reset ∧
      t.mem = s.mem ∧ t.platform = s.platform ∧ t.port = s.port ∧ t.memAtIssue = s.memAtIssue ∧ t.bus = s.bus ∧
      t.sched = (takeMove s).sched ∧ t.turn = (takeMove s).turn

/-! ### Invariants and whole-machine rules -/

/-- R37: the invariant holds at reset. -/
def Obligations.InvariantAtReset : Prop := Inv State.reset

/-- R8, R23, R28, R35, R62, R73 to R78, R113 to R118, R130: every step keeps the invariant. -/
def Obligations.EveryStepKeepsTheInvariant : Prop :=
  ∀ s t : State, Inv s → step s = .next t → Inv t

/-- R66, R72, R75, R138: from a state with the invariant the machine always goes on: no step is a fault or a
refusal, whatever move comes next. -/
def Obligations.TheMachineNeverStops : Prop :=
  ∀ s : State, Inv s → ∃ t, step s = .next t

/-- R27, R28, R34, R145: RESULT, NBR_MASK and NBR0 to NBR13 change only at reset and in the finishing step of
a scalar command that is not aborted. -/
def Obligations.ResultsChangeOnlyAtScalarCompletion : Prop :=
  ∀ s t : State, Inv s → step s = .next t →
    (t.result ≠ s.result ∨ t.nbrMask ≠ s.nbrMask ∨ t.nbr ≠ s.nbr) →
    nextMove s = .reset ∨
    (nextMove s = .engine ∧ s.busy = true ∧ s.abrt = false ∧
      t.busy = false ∧ t.done = true ∧ s.lastCmd.getLsbD 7 = false)

/-- R15, R76: while a command is in progress no step but reset changes an operand register. -/
def Obligations.OperandsAreStableWhileBusy : Prop :=
  ∀ s t : State, s.busy = true → step s = .next t → nextMove s ≠ .reset →
    t.coordIn = s.coordIn ∧ t.keyIn = s.keyIn ∧ t.srcAddr = s.srcAddr ∧ t.dstAddr = s.dstAddr ∧
      t.count = s.count

/-- R23: OVR is sticky: it goes from 1 to 0 only by HOST's write to STATUS with bit 2 set, or at reset. -/
def Obligations.OverrunIsSticky : Prop :=
  ∀ s t : State, step s = .next t → s.ovr = true → t.ovr = false →
    nextMove s = .reset ∨
    ∃ addr lanes, nextMove s = .host (.write addr lanes) ∧
      addr - s.platform.base = 0x010#64 ∧ (wordOfBytes lanes).getLsbD 2 = true

/-- R31: PROGRESS never decreases during one command. -/
def Obligations.ProgressNeverDecreases : Prop :=
  ∀ s t : State, Inv s → step s = .next t → s.busy = true → nextMove s ≠ .reset →
    s.progress.toNat ≤ t.progress.toNat

/-- R38, R46, R112, R113, R118: but for the stores of other agents, memory changes only by ENGINE's write steps of
a batch command, and what such a step writes lies in the output element at the cursor, so in the output range,
and never in the input range. -/
def Obligations.MemoryChangesOnlyInTheOutputRange : Prop :=
  ∀ s t : State, Inv s → step s = .next t → (∀ word lanes, nextMove s ≠ .memStore word lanes) →
    ∀ k, readByte t.mem k ≠ readByte s.mem k →
      nextMove s = .engine ∧ s.busy = true ∧ s.abrt = false ∧ s.vphase = false ∧
        s.cursor < s.count.toNat ∧
        ∃ fn, runningBatch s = some fn ∧ inOutput fn s k ∧
          s.dstAddr.toNat + outSize fn * s.cursor ≤ k ∧ k < s.dstAddr.toNat + outSize fn * (s.cursor + 1) ∧
          ¬ (s.srcAddr.toNat ≤ k ∧ k < s.srcAddr.toNat + 8 * s.count.toNat)

/-- R8, R143: the platform is fixed for the run. -/
def Obligations.ThePlatformIsFixed : Prop :=
  ∀ s t : State, step s = .next t → t.platform = s.platform

/-- R52 and entry 8: another agent's read of any byte lanes of an output word during a batch gives those lanes of
the word of before the command or of the word in memory, as the move chooses for that word alone. -/
def Obligations.RacingReadsGiveOldOrNew : Prop :=
  ∀ (s : State) (fn : Func) (n j : Nat) (lanes : List (Fin 8)) (old : Bool), Inv s → s.busy = true →
    runningBatch s = some fn → n < s.count.toNat → 8 * j < outSize fn →
    let addr := outAddr fn s n + BitVec.ofNat 64 (8 * j)
    nextMove s = .memLoad (addr.extractLsb' 3 61) lanes old →
    step s = .next { takeMove s with
      port := .data (lanes.map fun l =>
        (if old then readWord s.memAtIssue addr else readWord s.mem addr).extractLsb' (8 * l.val) 8) }

/-! ### Progress (R8c, R149) -/

/-- R149: under every schedule P_SCHED, no move but reset and completion leaves a command with more ENGINE steps
to make, and each of ENGINE's own moves leaves fewer: at most 1 for a scalar command, N + 1 with A = 0, 2N + 2
with A = 1, 1 once an abort is pending (`stepsLeft`). So under every weakly fair schedule every command in
progress comes to its end. -/
def Obligations.EveryFairScheduleFinishesTheCommand : Prop :=
  (∀ (schedule : Nat → Event) (s t : State), Inv s → s.busy = true →
    stepOf schedule s = .next t → t.busy = true →
      stepsLeft t ≤ stepsLeft s ∧ (nextMoveOf schedule s = .engine → stepsLeft t < stepsLeft s)) ∧
  (∀ s : State, Inv s → s.busy = true → 1 ≤ stepsLeft s ∧
    stepsLeft s ≤ if runningBatch s = none then 1
      else if s.lastCmd.getLsbD 9 then 2 * s.count.toNat + 2 else s.count.toNat + 1) ∧
  ∀ (schedule : Nat → Event) (s : State), Inv s → s.busy = true → weaklyFair schedule s →
    ∃ n t, runOf schedule n s = .next t ∧ t.busy = false
end

