-- ==== Sys2Proof/Laws/Bits.lean ====
section
/-! SUPPORT. What the bit-field and byte-order helpers do (R9, R40): every bit of `bitsOf`, every lane of a
word, and the word made of its own lanes. -/

namespace Sys2Proof.Machine

@[simp] theorem getLsbD_bitsOf (w : Nat) (f : Nat → Bool) (i : Nat) :
    (bitsOf w f).getLsbD i = (decide (i < w) && f i) := by
  induction w with
  | zero => simp [bitsOf]
  | succ w ih =>
    rw [bitsOf, BitVec.getLsbD_cons]
    by_cases h : i = w
    · simp [h]
    · have : (i < w + 1) = (i < w) := by
        apply propext; omega
      simp [h, ih, this]

@[simp] theorem getElem_bitsOf (w : Nat) (f : Nat → Bool) (i : Nat) (h : i < w) :
    (bitsOf w f)[i] = f i := by
  rw [← BitVec.getLsbD_eq_getElem, getLsbD_bitsOf]
  simp [h]

theorem bitsOf_congr {w : Nat} {f g : Nat → Bool} (h : ∀ i, i < w → f i = g i) :
    bitsOf w f = bitsOf w g := by
  apply BitVec.eq_of_getLsbD_eq
  intro i hi
  simp [hi, h i hi]

theorem bitsOf_getLsbD {w : Nat} (v : BitVec w) : bitsOf w v.getLsbD = v := by
  apply BitVec.eq_of_getLsbD_eq
  intro i hi
  simp [hi]

/-- A lane of a word made of bytes is the byte at its place (R40). -/
theorem getLsbD_wordOfBytes (bs : List Byte) (i : Nat) (h : i < 64) :
    (wordOfBytes bs).getLsbD i = (bs.getD (i / 8) 0#8).getLsbD (i % 8) := by
  induction bs generalizing i with
  | nil => simp [wordOfBytes]
  | cons b bs ih =>
    by_cases hi : i < 8
    · have h0 : i / 8 = 0 := by omega
      have h1 : i % 8 = i := by omega
      simp [wordOfBytes, hi, h0, h1, h]
    · have h0 : i / 8 = (i - 8) / 8 + 1 := by omega
      have h1 : i % 8 = (i - 8) % 8 := by omega
      have hb : b.getLsbD i = false := BitVec.getLsbD_of_ge b i (by omega)
      rw [wordOfBytes, BitVec.getLsbD_or, BitVec.getLsbD_setWidth, BitVec.getLsbD_shiftLeft,
        ih (i - 8) (by omega), h0, h1]
      simp [h, hi, hb]

@[simp] theorem length_bytesOf (v : Word) : (bytesOf v).length = 8 := rfl

theorem getD_bytesOf (v : Word) (j : Nat) (h : j < 8) : (bytesOf v).getD j 0#8 = laneOf v j := by
  have : j < (List.range 8).length := by simpa using h
  simp [bytesOf, h]

/-- The word made of a word's own byte lanes is that word (R40, R43). -/
@[simp] theorem wordOfBytes_bytesOf (v : Word) : wordOfBytes (bytesOf v) = v := by
  apply BitVec.eq_of_getLsbD_eq
  intro i hi
  rw [getLsbD_wordOfBytes _ _ hi, getD_bytesOf _ _ (by omega), laneOf, BitVec.getLsbD_extractLsb']
  have : 8 * (i / 8) + i % 8 = i := by omega
  simp [this, Nat.mod_lt]

/-- The byte lanes of the word made of eight bytes are those bytes (R40). -/
theorem laneOf_wordOfBytes (bs : List Byte) (j : Nat) (h : j < 8) :
    laneOf (wordOfBytes bs) j = bs.getD j 0#8 := by
  apply BitVec.eq_of_getLsbD_eq
  intro i hi
  have h0 : (8 * j + i) / 8 = j := by omega
  have h1 : (8 * j + i) % 8 = i := by omega
  rw [laneOf, BitVec.getLsbD_extractLsb', getLsbD_wordOfBytes _ _ (by omega), h0, h1]
  simp [hi]

end Sys2Proof.Machine
end

