-- ==== Sys2Proof/Laws/Decode.lean ====
section
/-! SUPPORT. The fields of a command word and the word of given fields are inverse to each other (R59), and
the FUNC values that name a function (R65). -/

namespace Sys2Proof

/-- No bit of a command word is lost in its fields (R59). -/
theorem wordOf_fieldsOf (c : Word) : wordOf (fieldsOf c) = c := by
  apply BitVec.eq_of_getLsbD_eq
  intro i hi
  simp only [wordOf, fieldsOf, BitVec.getLsbD_append, BitVec.getLsbD_ofBool, BitVec.getLsbD_extractLsb']
  by_cases h7 : i < 7
  · simp [h7]
  · by_cases h : i = 7
    · subst h; simp
    · by_cases h8 : i = 8
      · subst h8; simp
      · by_cases h9 : i = 9
        · subst h9; simp
        · have e1 : ¬ (i - 7 < 1) := by omega
          have e2 : ¬ (i - 7 - 1 < 1) := by omega
          have e3 : ¬ (i - 7 - 1 - 1 < 1) := by omega
          have e4 : 10 + (i - 7 - 1 - 1 - 1) = i := by omega
          have e5 : i - 7 - 1 - 1 - 1 < 54 := by omega
          simp [h7, e1, e2, e3, e4, e5]

/-- No field overlaps another (R59). -/
theorem fieldsOf_wordOf (c : CmdFields) : fieldsOf (wordOf c) = c := by
  obtain ⟨fu, b, f, a, r⟩ := c
  simp only [wordOf, fieldsOf, CmdFields.mk.injEq]
  refine ⟨?_, ?_, ?_, ?_, ?_⟩
  · apply BitVec.eq_of_getLsbD_eq; intro i hi
    rw [BitVec.getLsbD_extractLsb']
    simp only [BitVec.getLsbD_append]
    simp [hi]
  · simp only [BitVec.getLsbD_append]; simp
  · simp only [BitVec.getLsbD_append]; simp
  · simp only [BitVec.getLsbD_append]; simp
  · apply BitVec.eq_of_getLsbD_eq; intro i hi
    have e1 : ¬ (10 + i - 7 < 1) := by omega
    have e2 : ¬ (10 + i - 7 - 1 < 1) := by omega
    have e3 : ¬ (10 + i - 7 - 1 - 1 < 1) := by omega
    have e4 : (10 + i - 7 - 1 - 1 - 1) = i := by omega
    have e0 : ¬ (10 + i < 7) := by omega
    rw [BitVec.getLsbD_extractLsb']
    simp only [BitVec.getLsbD_append]
    simp [hi, e0,e1,e2,e3,e4]

/-- A FUNC value names at most the function whose code it is (R65). -/
theorem funcOfCode_eq_some {n : BitVec 7} {fn : Func} (h : funcOfCode n = some fn) : n = fn.code := by
  revert fn n
  decide

@[simp] theorem funcOfCode_code (fn : Func) : funcOfCode fn.code = some fn := by
  cases fn <;> rfl

/-- The FUNC values that name a function are 1 to 10 (R66). -/
theorem funcOfCode_isSome (n : BitVec 7) : (funcOfCode n).isSome = true ↔ 1 ≤ n.toNat ∧ n.toNat ≤ 10 := by
  revert n
  decide

end Sys2Proof
end

