-- ==== Sys2Proof/Laws/Element.lean ====
section
/-! SUPPORT. What the element function gives, said once: how many words, which statuses, and the form of the
words (R62, R63, R79). -/

namespace Sys2Proof.Machine

/-! ### The data words -/

/-- The bits of a result word (R62). -/
theorem getLsbD_mkKW (k : Key) (st : Err) (n : Nat) :
    (mkKW k st).getLsbD n =
      (k.getLsbD n || (decide (n < 64) && !decide (n < 56) && st.code.getLsbD (n - 56))) := by
  simp only [mkKW, BitVec.getLsbD_or, BitVec.getLsbD_setWidth, BitVec.getLsbD_shiftLeft]
  by_cases h : n < 64
  · by_cases h' : n - 56 < 64
    · simp [h, h']
    · omega
  · have hk : k.getLsbD n = false := BitVec.getLsbD_of_ge k n (by omega)
    simp [h, hk]

/-- The status of a result word is the one it was made with (R62). -/
@[simp] theorem wordStatus_mkKW (k : Key) (st : Err) : wordStatus (mkKW k st) = st.code := by
  apply BitVec.eq_of_getLsbD_eq
  intro i hi
  rw [wordStatus, BitVec.getLsbD_extractLsb', getLsbD_mkKW, BitVec.getLsbD_of_ge k _ (by omega)]
  have h1 : 56 + i < 64 := by omega
  have h2 : 56 + i - 56 = i := by omega
  simp [hi, h1, h2]

/-- The key of a key word is the one it was made with (R61, R62). -/
@[simp] theorem kwKey_mkKW (k : Key) (st : Err) : kwKey (mkKW k st) = k := by
  apply BitVec.eq_of_getLsbD_eq
  intro i hi
  rw [kwKey, BitVec.getLsbD_extractLsb', getLsbD_mkKW]
  have h1 : i < 56 := by omega
  simp [hi, h1]

/-- A key word with status 0 is the key, zero-extended (R61). -/
theorem mkKW_ok (k : Key) : mkKW k .ok = 0#16 ++ k := by
  apply BitVec.eq_of_getLsbD_eq
  intro i hi
  rw [getLsbD_mkKW, BitVec.getLsbD_append]
  by_cases h : i < 48
  · simp [h, Err.code]
  · simp [h, Err.code, BitVec.getLsbD_of_ge k i (by omega)]

/-- A coordinate word with status 0 (R60). -/
theorem mkCW_ok (p : Coords) : mkCW p .ok = 0#16 ++ p.z ++ p.y ++ p.x := by
  rw [mkCW, mkKW_ok]
  apply BitVec.eq_of_getLsbD_eq
  intro i hi
  simp only [BitVec.getLsbD_append]
  by_cases h : i < 16
  · simp [h, show i < 48 by omega]
  · by_cases h' : i - 16 < 16
    · simp [h, h', show i < 48 by omega]
    · by_cases h'' : i - 16 - 16 < 16
      · simp [h, h', h'', show i < 48 by omega]
      · simp [h, h', h'', show ¬ i < 48 by omega]

/-! ### The neighbor function -/

/-- The two outcomes of the neighbor function (R103, R104). -/
theorem neighbors_cases (p : Coords) (f : Bool) (enc : Coords → Word) :
    (f = true ∧ (∃ o ∈ offsets, neighborAt p o = none) ∧
      neighbors p f enc = { outs := List.replicate 14 outOfRangeWord, st := .outOfRange }) ∨
    ((f = false ∨ ∀ o ∈ offsets, neighborAt p o ≠ none) ∧
      neighbors p f enc =
        { outs := offsets.map fun o => ((neighborAt p o).map enc).getD outOfRangeWord, st := .ok }) := by
  unfold neighbors
  cases f with
  | false => exact Or.inr ⟨Or.inl rfl, by simp [Function.comp_def]⟩
  | true =>
    by_cases h : ∃ o ∈ offsets, neighborAt p o = none
    · refine Or.inl ⟨rfl, h, ?_⟩
      have : (offsets.map (neighborAt p)).any Option.isNone = true := by
        obtain ⟨o, ho, hn⟩ := h
        simp only [List.any_map, List.any_eq_true]
        exact ⟨o, ho, by simp [hn]⟩
      simp [this]
    · refine Or.inr ⟨Or.inr fun o ho hn => h ⟨o, ho, hn⟩, ?_⟩
      have : (offsets.map (neighborAt p)).any Option.isNone = false := by
        rw [List.any_map, List.any_eq_false]
        intro o ho
        cases hn : neighborAt p o with
        | none => exact absurd ⟨o, ho, hn⟩ h
        | some q => simp [hn]
      simp [this, Function.comp_def]

theorem neighbors_outs_length (p : Coords) (f : Bool) (enc : Coords → Word) :
    (neighbors p f enc).outs.length = 14 := by
  rcases neighbors_cases p f enc with ⟨-, -, h⟩ | ⟨-, h⟩ <;> rw [h] <;> rfl

theorem neighbors_st (p : Coords) (f : Bool) (enc : Coords → Word) :
    (neighbors p f enc).st = .ok ∨ (neighbors p f enc).st = .outOfRange := by
  rcases neighbors_cases p f enc with ⟨-, -, h⟩ | ⟨-, h⟩ <;> simp [h]

/-- Every word of a neighbor output is the mark or an encoded cell (R103). -/
theorem neighbors_mem {p : Coords} {f : Bool} {enc : Coords → Word} {w : Word}
    (h : w ∈ (neighbors p f enc).outs) : w = outOfRangeWord ∨ ∃ q, w = enc q := by
  rcases neighbors_cases p f enc with ⟨-, -, he⟩ | ⟨-, he⟩ <;> rw [he] at h
  · exact Or.inl (List.eq_of_mem_replicate h)
  · obtain ⟨o, -, rfl⟩ := List.mem_map.mp h
    cases neighborAt p o with
    | none => exact Or.inl rfl
    | some q => exact Or.inr ⟨q, rfl⟩

/-! ### The element function -/

/-- One output word for FUNC 1 to 7, fourteen for FUNC 8 to 10 (R79). -/
theorem elem_outs_length (fn : Func) (f : Bool) (w : Word) :
    (elem fn f w).outs.length = if fn.isNeighbor then 14 else 1 := by
  cases fn
  case pchk => simp only [elem, elemPchk]; split <;> rfl
  case nbrc => exact neighbors_outs_length _ _ _
  case nbrm => exact neighbors_outs_length _ _ _
  case nbrh => exact neighbors_outs_length _ _ _
  all_goals rfl

/-- The element statuses that appear (R62, R79, R130). -/
theorem elem_st (fn : Func) (f : Bool) (w : Word) :
    (elem fn f w).st = .ok ∨ (elem fn f w).st = .parityViolation ∨ (elem fn f w).st = .outOfRange := by
  cases fn
  case pchk => simp only [elem, elemPchk]; split <;> simp
  case nbrc => rcases neighbors_st (cwCell w) f fun p => mkCW p .ok with h | h <;> simp [elem, elemNbrc, h]
  case nbrm =>
    rcases neighbors_st (mortonDec (kwKey w)) f fun p => mkKW (mortonEnc p) .ok with h | h <;>
      simp [elem, elemNbrm, h]
  case nbrh =>
    rcases neighbors_st (hilbertDec (kwKey w)) f fun p => mkKW (hilbertEnc p) .ok with h | h <;>
      simp [elem, elemNbrh, h]
  all_goals exact Or.inl rfl

/-- Every output word is a 48-bit value with a status of 0, 2 or 3 (R62). -/
theorem elem_mem {fn : Func} {f : Bool} {w v : Word} (h : v ∈ (elem fn f w).outs) :
    ∃ (k : Key) (st : Err), v = mkKW k st ∧ (st = .ok ∨ st = .parityViolation ∨ st = .outOfRange) := by
  cases fn
  case pchk =>
    simp only [elem, elemPchk] at h
    split at h <;> simp only [List.mem_singleton] at h <;> subst h
    · exact ⟨_, _, rfl, Or.inl rfl⟩
    · exact ⟨_, _, rfl, Or.inr (Or.inl rfl)⟩
  case nbrc =>
    rcases neighbors_mem h with h | ⟨q, h⟩ <;> subst h
    · exact ⟨_, _, rfl, Or.inr (Or.inr rfl)⟩
    · exact ⟨_, _, rfl, Or.inl rfl⟩
  case nbrm =>
    rcases neighbors_mem h with h | ⟨q, h⟩ <;> subst h
    · exact ⟨_, _, rfl, Or.inr (Or.inr rfl)⟩
    · exact ⟨_, _, rfl, Or.inl rfl⟩
  case nbrh =>
    rcases neighbors_mem h with h | ⟨q, h⟩ <;> subst h
    · exact ⟨_, _, rfl, Or.inr (Or.inr rfl)⟩
    · exact ⟨_, _, rfl, Or.inl rfl⟩
  all_goals
    simp only [elem, elemMenc, elemMdec, elemHenc, elemHdec, elemM2h, elemH2m, List.mem_singleton] at h
    subst h
    exact ⟨_, _, rfl, Or.inl rfl⟩

/-! ### The result registers -/

theorem getLsbD_maskOf (outs : List Word) (k : Nat) (h : k < 14) :
    (maskOf outs).getLsbD k = (wordStatus (outs.getD k 0#64) == 0#4) := by
  simp only [maskOf, getLsbD_bitsOf, h, decide_true, Bool.true_and]

theorem getElem_nbrOf (outs : List Word) (k : Fin 14) : (nbrOf outs)[k] = outs.getD k.val 0#64 := by
  simp [nbrOf]

end Sys2Proof.Machine
end

