-- ==== Sys2Proof/Laws/Memory.lean ====
section
/-! SUPPORT. What memory does (R41 to R43): a byte read after a write, the canonical form every operation
keeps, equality of memories by their bytes, and the same for 8-byte words. -/

namespace Sys2Proof.Machine

/-! ### The canonical form -/

theorem memSortedFrom_mono {lo lo' : Nat} {m : List Host.Cell} (h : lo' ≤ lo)
    (hm : memSortedFrom lo m = true) : memSortedFrom lo' m = true := by
  cases m with
  | nil => rfl
  | cons c m =>
    simp only [memSortedFrom, Bool.and_eq_true, decide_eq_true_eq] at hm ⊢
    exact ⟨⟨⟨by omega, hm.1.1.2⟩, hm.1.2⟩, hm.2⟩

/-- Below the first entry nothing is listed. -/
theorem readByte_below {lo k : Nat} {m : List Host.Cell} (hm : memSortedFrom lo m = true) (hk : k < lo) :
    readByte m k = Config.freshByte := by
  induction m generalizing lo with
  | nil => rfl
  | cons c m ih =>
    simp only [memSortedFrom, Bool.and_eq_true, decide_eq_true_eq] at hm
    rw [readByte, if_neg (by omega)]
    exact ih hm.2 (by omega)

theorem memSortedFrom_consByte {lo k : Nat} {v : Byte} {m : List Host.Cell} (hlo : lo ≤ k)
    (hk : k < 2 ^ 64) (hm : memSortedFrom (k + 1) m = true) :
    memSortedFrom lo (consByte k v m) = true := by
  unfold consByte
  split
  · exact memSortedFrom_mono (by omega) hm
  · next h =>
    simp only [memSortedFrom, Bool.and_eq_true, decide_eq_true_eq]
    exact ⟨⟨⟨hlo, hk⟩, h⟩, hm⟩

theorem memSortedFrom_writeByte {lo k : Nat} {v : Byte} {m : List Host.Cell} (hlo : lo ≤ k)
    (hk : k < 2 ^ 64) (hm : memSortedFrom lo m = true) :
    memSortedFrom lo (writeByte m k v) = true := by
  induction m generalizing lo with
  | nil => exact memSortedFrom_consByte hlo hk rfl
  | cons c m ih =>
    have hm' := hm
    simp only [memSortedFrom, Bool.and_eq_true, decide_eq_true_eq] at hm'
    unfold writeByte
    split
    · refine memSortedFrom_consByte hlo hk ?_
      simp only [memSortedFrom, Bool.and_eq_true, decide_eq_true_eq]
      exact ⟨⟨⟨by omega, hm'.1.1.2⟩, hm'.1.2⟩, hm'.2⟩
    · split
      · next h => exact memSortedFrom_consByte hlo hk (h ▸ hm'.2)
      · simp only [memSortedFrom, Bool.and_eq_true, decide_eq_true_eq]
        exact ⟨hm'.1, ih (by omega) hm'.2⟩

/-- Writing a byte keeps the canonical form. -/
theorem writeByte_wf {m : List Host.Cell} {k : Nat} (v : Byte) (hk : k < 2 ^ 64)
    (hm : Memory.wf m = true) : Memory.wf (writeByte m k v) = true :=
  memSortedFrom_writeByte (Nat.zero_le _) hk hm

/-! ### Bytes -/

theorem readByte_consByte_self {k : Nat} {v : Byte} {m : List Host.Cell}
    (hm : memSortedFrom (k + 1) m = true) : readByte (consByte k v m) k = v := by
  unfold consByte
  split
  · next h => rw [readByte_below hm (by omega), h]
  · simp [readByte]

theorem readByte_consByte_ne {k k' : Nat} {v : Byte} {m : List Host.Cell} (h : k' ≠ k) :
    readByte (consByte k v m) k' = readByte m k' := by
  unfold consByte
  split
  · rfl
  · rw [readByte, if_neg (Ne.symm h)]

/-- A byte read where one was just written is that byte. -/
theorem readByte_writeByte_self {lo k : Nat} {v : Byte} {m : List Host.Cell}
    (hm : memSortedFrom lo m = true) : readByte (writeByte m k v) k = v := by
  induction m generalizing lo with
  | nil => exact readByte_consByte_self rfl
  | cons c m ih =>
    have hm' := hm
    simp only [memSortedFrom, Bool.and_eq_true, decide_eq_true_eq] at hm'
    unfold writeByte
    split
    · refine readByte_consByte_self ?_
      simp only [memSortedFrom, Bool.and_eq_true, decide_eq_true_eq]
      exact ⟨⟨⟨by omega, hm'.1.1.2⟩, hm'.1.2⟩, hm'.2⟩
    · split
      · next h => exact readByte_consByte_self (h ▸ hm'.2)
      · next h => rw [readByte, if_neg h]; exact ih hm'.2

/-- A write leaves every other byte alone. -/
theorem readByte_writeByte_ne {k k' : Nat} {v : Byte} {m : List Host.Cell} (h : k' ≠ k) :
    readByte (writeByte m k v) k' = readByte m k' := by
  induction m with
  | nil => exact readByte_consByte_ne h
  | cons c m ih =>
    unfold writeByte
    split
    · exact readByte_consByte_ne h
    · split
      · next h' => rw [readByte_consByte_ne h, readByte, if_neg (by omega)]
      · simp only [readByte, ih]

/-- Memories in canonical form that read alike are the same data. -/
theorem memory_ext {lo : Nat} {m m' : List Host.Cell} (hm : memSortedFrom lo m = true)
    (hm' : memSortedFrom lo m' = true) (h : ∀ k, readByte m k = readByte m' k) : m = m' := by
  induction m generalizing lo m' with
  | nil =>
    cases m' with
    | nil => rfl
    | cons c m' =>
      simp only [memSortedFrom, Bool.and_eq_true, decide_eq_true_eq] at hm'
      have := h c.1
      simp [readByte] at this
      exact absurd this.symm hm'.1.2
  | cons c m ih =>
    obtain ⟨a, b⟩ := c
    cases m' with
    | nil =>
      simp only [memSortedFrom, Bool.and_eq_true, decide_eq_true_eq] at hm
      have := h a
      simp [readByte] at this
      exact absurd this hm.1.2
    | cons c' m' =>
      obtain ⟨a', b'⟩ := c'
      simp only [memSortedFrom, Bool.and_eq_true, decide_eq_true_eq] at hm hm'
      have haa : a = a' := by
        rcases Nat.lt_trichotomy a a' with hlt | heq | hgt
        · have := h a
          rw [readByte, if_pos rfl, readByte, if_neg (by omega),
            readByte_below hm'.2 (by omega)] at this
          exact absurd this hm.1.2
        · exact heq
        · have := h a'
          rw [readByte, if_neg (by omega), readByte_below hm.2 (by omega), readByte,
            if_pos rfl] at this
          exact absurd this.symm hm'.1.2
      subst haa
      have hb : b = b' := by simpa [readByte] using h a
      subst hb
      have hrest : m = m' := by
        refine ih hm.2 hm'.2 fun k => ?_
        by_cases hk : a = k
        · subst hk
          rw [readByte_below hm.2 (by omega), readByte_below hm'.2 (by omega)]
        · simpa [readByte, hk] using h k
      rw [hrest]

/-! ### Words -/

theorem laneAddr_lt (addr : Word) (j : Nat) : laneAddr addr j < 2 ^ 64 := (addr + _).isLt

/-- The eight lanes of a word lie at eight different addresses. -/
theorem laneAddr_inj {addr : Word} {j j' : Nat} (hj : j < 8) (hj' : j' < 8)
    (h : laneAddr addr j = laneAddr addr j') : j = j' := by
  unfold laneAddr at h
  have := BitVec.eq_of_toNat_eq h
  have := (BitVec.add_right_inj addr).mp this
  have := congrArg BitVec.toNat this
  simp only [BitVec.toNat_ofNat] at this
  omega

theorem laneAddr_of_aligned {addr : Word} {j : Nat} (ha : addr.toNat % 8 = 0) (hj : j < 8) :
    laneAddr addr j = addr.toNat + j := by
  unfold laneAddr
  have := addr.isLt
  rw [BitVec.toNat_add, BitVec.toNat_ofNat]
  omega

/-- The first `n` lanes of a word, written. -/
def writeLanes (m : List Host.Cell) (addr v : Word) (n : Nat) : List Host.Cell :=
  (List.range n).foldl (fun m j => writeByte m (laneAddr addr j) (laneOf v j)) m

theorem writeLanes_succ (m : List Host.Cell) (addr v : Word) (n : Nat) :
    writeLanes m addr v (n + 1) = writeByte (writeLanes m addr v n) (laneAddr addr n) (laneOf v n) := by
  simp [writeLanes, List.range_succ]

theorem writeLanes_wf {m : List Host.Cell} (addr v : Word) (n : Nat) (hm : Memory.wf m = true) :
    Memory.wf (writeLanes m addr v n) = true := by
  induction n with
  | zero => exact hm
  | succ n ih => rw [writeLanes_succ]; exact writeByte_wf _ (laneAddr_lt _ _) ih

/-- Storing a word keeps the canonical form. -/
theorem writeWord_wf {m : List Host.Cell} (addr v : Word) (hm : Memory.wf m = true) :
    Memory.wf (writeWord m addr v) = true :=
  writeLanes_wf addr v 8 hm

theorem readByte_writeLanes_other {m : List Host.Cell} {addr v : Word} {n k : Nat}
    (h : ∀ j, j < n → k ≠ laneAddr addr j) : readByte (writeLanes m addr v n) k = readByte m k := by
  induction n with
  | zero => rfl
  | succ n ih =>
    rw [writeLanes_succ, readByte_writeByte_ne (h n (by omega)), ih fun j hj => h j (by omega)]

theorem readByte_writeLanes_lane {m : List Host.Cell} {addr v : Word} {n j : Nat} (hn : n ≤ 8)
    (hj : j < n) (hm : Memory.wf m = true) :
    readByte (writeLanes m addr v n) (laneAddr addr j) = laneOf v j := by
  induction n with
  | zero => omega
  | succ n ih =>
    rw [writeLanes_succ]
    by_cases hjn : j = n
    · subst hjn
      exact readByte_writeByte_self (writeLanes_wf addr v _ hm)
    · rw [readByte_writeByte_ne fun h => hjn (laneAddr_inj (by omega) (by omega) h)]
      exact ih (by omega) (by omega)

/-- A byte outside a stored word reads as before (R42). -/
theorem readByte_writeWord_other {m : List Host.Cell} {addr v : Word} {k : Nat}
    (h : ∀ j, j < 8 → k ≠ laneAddr addr j) : readByte (writeWord m addr v) k = readByte m k :=
  readByte_writeLanes_other h

/-- Byte `j` of a stored word is lane `j` of the value (R42). -/
theorem readByte_writeWord_lane {m : List Host.Cell} {addr v : Word} {j : Nat} (hj : j < 8)
    (hm : Memory.wf m = true) :
    readByte (writeWord m addr v) (laneAddr addr j) = laneOf v j :=
  readByte_writeLanes_lane (Nat.le_refl 8) hj hm

/-- A word is read back by its byte lanes (R41). -/
theorem laneOf_readWord {m : List Host.Cell} {addr : Word} {j : Nat} (hj : j < 8) :
    laneOf (readWord m addr) j = readByte m (laneAddr addr j) := by
  rw [readWord, laneOf_wordOfBytes _ _ hj]
  simp [List.getD, hj]

theorem word_ext_lanes {v v' : Word} (h : ∀ j, j < 8 → laneOf v j = laneOf v' j) : v = v' := by
  rw [← wordOfBytes_bytesOf v, ← wordOfBytes_bytesOf v']
  unfold bytesOf
  rw [List.map_congr_left fun j hj => h j (List.mem_range.mp hj)]

/-- A word read where one was just stored is that word (R41, R42). -/
theorem readWord_writeWord_self {m : List Host.Cell} {addr v : Word} (hm : Memory.wf m = true) :
    readWord (writeWord m addr v) addr = v :=
  word_ext_lanes fun _ hj => by rw [laneOf_readWord hj, readByte_writeWord_lane hj hm]

/-- Words at distinct aligned addresses share no byte. -/
theorem laneAddr_ne_of_aligned {addr addr' : Word} {j j' : Nat} (ha : addr.toNat % 8 = 0)
    (ha' : addr'.toNat % 8 = 0) (hne : addr ≠ addr') (hj : j < 8) (hj' : j' < 8) :
    laneAddr addr' j' ≠ laneAddr addr j := by
  rw [laneAddr_of_aligned ha hj, laneAddr_of_aligned ha' hj']
  intro h
  exact hne (BitVec.eq_of_toNat_eq (by omega))

/-- A word at another aligned address reads as before (R42). -/
theorem readWord_writeWord_other {m : List Host.Cell} {addr addr' v : Word} (ha : addr.toNat % 8 = 0)
    (ha' : addr'.toNat % 8 = 0) (hne : addr ≠ addr') :
    readWord (writeWord m addr v) addr' = readWord m addr' :=
  word_ext_lanes fun _ hj' => by
    rw [laneOf_readWord hj', laneOf_readWord hj',
      readByte_writeWord_other fun _ hj => laneAddr_ne_of_aligned ha ha' hne hj hj']

/-! ### Stores of another agent in one word -/

theorem wordLane_lt (word : BitVec 61) (j : Fin 8) : wordLane word j < 2 ^ 64 := by
  have := word.isLt
  have := j.isLt
  unfold wordLane
  omega

/-- Two lanes at one address are one lane of one word. -/
theorem wordLane_inj {word word' : BitVec 61} {j j' : Fin 8} (h : wordLane word j = wordLane word' j') :
    word = word' ∧ j = j' := by
  have := j.isLt
  have := j'.isLt
  unfold wordLane at h
  exact ⟨BitVec.eq_of_toNat_eq (by omega), Fin.ext (by omega)⟩

theorem storeLanes_wf {m : List Host.Cell} (word : BitVec 61) (ls : List (Fin 8 × Byte))
    (hm : Memory.wf m = true) : Memory.wf (storeLanes m word ls) = true := by
  induction ls generalizing m with
  | nil => exact hm
  | cons l ls ih => exact ih (writeByte_wf l.2 (wordLane_lt word l.1) hm)

/-- A byte outside the lanes stored reads as before. -/
theorem readByte_storeLanes_other {m : List Host.Cell} {word : BitVec 61} {ls : List (Fin 8 × Byte)} {k : Nat}
    (h : ∀ l ∈ ls, k ≠ wordLane word l.1) : readByte (storeLanes m word ls) k = readByte m k := by
  induction ls generalizing m with
  | nil => rfl
  | cons l ls ih =>
    rw [storeLanes, ih fun l' hl' => h l' (List.mem_cons_of_mem _ hl'),
      readByte_writeByte_ne (h l List.mem_cons_self)]

end Sys2Proof.Machine
end

