-- ==== Sys2Proof/Laws/State.lean ====
section
/-! SUPPORT. One lemma per field per update, so that no later proof unfolds a record update. -/

namespace Sys2Proof.Machine

/-! ### prologue -/

@[simp] theorem prologue_irqEn (c : Word) (s : State) :
    (prologue c s).irqEn = s.irqEn := rfl
@[simp] theorem prologue_busy (c : Word) (s : State) :
    (prologue c s).busy = s.busy := rfl
@[simp] theorem prologue_done (c : Word) (s : State) :
    (prologue c s).done = false := rfl
@[simp] theorem prologue_ovr (c : Word) (s : State) :
    (prologue c s).ovr = s.ovr := rfl
@[simp] theorem prologue_abrt (c : Word) (s : State) :
    (prologue c s).abrt = false := rfl
@[simp] theorem prologue_vphase (c : Word) (s : State) :
    (prologue c s).vphase = false := rfl
@[simp] theorem prologue_err (c : Word) (s : State) :
    (prologue c s).err = .ok := rfl
@[simp] theorem prologue_lastCmd (c : Word) (s : State) :
    (prologue c s).lastCmd = c.extractLsb' 0 10 := rfl
@[simp] theorem prologue_coordIn (c : Word) (s : State) :
    (prologue c s).coordIn = s.coordIn := rfl
@[simp] theorem prologue_keyIn (c : Word) (s : State) :
    (prologue c s).keyIn = s.keyIn := rfl
@[simp] theorem prologue_result (c : Word) (s : State) :
    (prologue c s).result = s.result := rfl
@[simp] theorem prologue_nbrMask (c : Word) (s : State) :
    (prologue c s).nbrMask = s.nbrMask := rfl
@[simp] theorem prologue_srcAddr (c : Word) (s : State) :
    (prologue c s).srcAddr = s.srcAddr := rfl
@[simp] theorem prologue_dstAddr (c : Word) (s : State) :
    (prologue c s).dstAddr = s.dstAddr := rfl
@[simp] theorem prologue_count (c : Word) (s : State) :
    (prologue c s).count = s.count := rfl
@[simp] theorem prologue_progress (c : Word) (s : State) :
    (prologue c s).progress = 0#32 := rfl
@[simp] theorem prologue_errIndex (c : Word) (s : State) :
    (prologue c s).errIndex = Config.noElement := rfl
@[simp] theorem prologue_failCount (c : Word) (s : State) :
    (prologue c s).failCount = 0#32 := rfl
@[simp] theorem prologue_nbr (c : Word) (s : State) :
    (prologue c s).nbr = s.nbr := rfl
@[simp] theorem prologue_cursor (c : Word) (s : State) :
    (prologue c s).cursor = s.cursor := rfl
@[simp] theorem prologue_mem (c : Word) (s : State) :
    (prologue c s).mem = s.mem := rfl
@[simp] theorem prologue_platform (c : Word) (s : State) :
    (prologue c s).platform = s.platform := rfl
@[simp] theorem prologue_sched (c : Word) (s : State) :
    (prologue c s).sched = s.sched := rfl
@[simp] theorem prologue_turn (c : Word) (s : State) :
    (prologue c s).turn = s.turn := rfl
@[simp] theorem prologue_port (c : Word) (s : State) :
    (prologue c s).port = s.port := rfl
@[simp] theorem prologue_memAtIssue (c : Word) (s : State) :
    (prologue c s).memAtIssue = s.memAtIssue := rfl
@[simp] theorem prologue_bus (c : Word) (s : State) :
    (prologue c s).bus = s.bus := rfl

/-! ### reject -/

@[simp] theorem reject_irqEn (e : Err) (s : State) :
    (reject e s).irqEn = s.irqEn := rfl
@[simp] theorem reject_busy (e : Err) (s : State) :
    (reject e s).busy = s.busy := rfl
@[simp] theorem reject_done (e : Err) (s : State) :
    (reject e s).done = true := rfl
@[simp] theorem reject_ovr (e : Err) (s : State) :
    (reject e s).ovr = s.ovr := rfl
@[simp] theorem reject_abrt (e : Err) (s : State) :
    (reject e s).abrt = s.abrt := rfl
@[simp] theorem reject_vphase (e : Err) (s : State) :
    (reject e s).vphase = s.vphase := rfl
@[simp] theorem reject_err (e : Err) (s : State) :
    (reject e s).err = e := rfl
@[simp] theorem reject_lastCmd (e : Err) (s : State) :
    (reject e s).lastCmd = s.lastCmd := rfl
@[simp] theorem reject_coordIn (e : Err) (s : State) :
    (reject e s).coordIn = s.coordIn := rfl
@[simp] theorem reject_keyIn (e : Err) (s : State) :
    (reject e s).keyIn = s.keyIn := rfl
@[simp] theorem reject_result (e : Err) (s : State) :
    (reject e s).result = s.result := rfl
@[simp] theorem reject_nbrMask (e : Err) (s : State) :
    (reject e s).nbrMask = s.nbrMask := rfl
@[simp] theorem reject_srcAddr (e : Err) (s : State) :
    (reject e s).srcAddr = s.srcAddr := rfl
@[simp] theorem reject_dstAddr (e : Err) (s : State) :
    (reject e s).dstAddr = s.dstAddr := rfl
@[simp] theorem reject_count (e : Err) (s : State) :
    (reject e s).count = s.count := rfl
@[simp] theorem reject_progress (e : Err) (s : State) :
    (reject e s).progress = s.progress := rfl
@[simp] theorem reject_errIndex (e : Err) (s : State) :
    (reject e s).errIndex = s.errIndex := rfl
@[simp] theorem reject_failCount (e : Err) (s : State) :
    (reject e s).failCount = s.failCount := rfl
@[simp] theorem reject_nbr (e : Err) (s : State) :
    (reject e s).nbr = s.nbr := rfl
@[simp] theorem reject_cursor (e : Err) (s : State) :
    (reject e s).cursor = s.cursor := rfl
@[simp] theorem reject_mem (e : Err) (s : State) :
    (reject e s).mem = s.mem := rfl
@[simp] theorem reject_platform (e : Err) (s : State) :
    (reject e s).platform = s.platform := rfl
@[simp] theorem reject_sched (e : Err) (s : State) :
    (reject e s).sched = s.sched := rfl
@[simp] theorem reject_turn (e : Err) (s : State) :
    (reject e s).turn = s.turn := rfl
@[simp] theorem reject_port (e : Err) (s : State) :
    (reject e s).port = s.port := rfl
@[simp] theorem reject_memAtIssue (e : Err) (s : State) :
    (reject e s).memAtIssue = s.memAtIssue := rfl
@[simp] theorem reject_bus (e : Err) (s : State) :
    (reject e s).bus = s.bus := rfl

/-! ### accept -/

@[simp] theorem accept_irqEn (c : Word) (s : State) :
    (accept c s).irqEn = s.irqEn := rfl
@[simp] theorem accept_busy (c : Word) (s : State) :
    (accept c s).busy = true := rfl
@[simp] theorem accept_done (c : Word) (s : State) :
    (accept c s).done = s.done := rfl
@[simp] theorem accept_ovr (c : Word) (s : State) :
    (accept c s).ovr = s.ovr := rfl
@[simp] theorem accept_abrt (c : Word) (s : State) :
    (accept c s).abrt = s.abrt := rfl
@[simp] theorem accept_vphase (c : Word) (s : State) :
    (accept c s).vphase = (c.getLsbD 7 && c.getLsbD 9) := rfl
@[simp] theorem accept_err (c : Word) (s : State) :
    (accept c s).err = s.err := rfl
@[simp] theorem accept_lastCmd (c : Word) (s : State) :
    (accept c s).lastCmd = s.lastCmd := rfl
@[simp] theorem accept_coordIn (c : Word) (s : State) :
    (accept c s).coordIn = s.coordIn := rfl
@[simp] theorem accept_keyIn (c : Word) (s : State) :
    (accept c s).keyIn = s.keyIn := rfl
@[simp] theorem accept_result (c : Word) (s : State) :
    (accept c s).result = s.result := rfl
@[simp] theorem accept_nbrMask (c : Word) (s : State) :
    (accept c s).nbrMask = s.nbrMask := rfl
@[simp] theorem accept_srcAddr (c : Word) (s : State) :
    (accept c s).srcAddr = s.srcAddr := rfl
@[simp] theorem accept_dstAddr (c : Word) (s : State) :
    (accept c s).dstAddr = s.dstAddr := rfl
@[simp] theorem accept_count (c : Word) (s : State) :
    (accept c s).count = s.count := rfl
@[simp] theorem accept_progress (c : Word) (s : State) :
    (accept c s).progress = s.progress := rfl
@[simp] theorem accept_errIndex (c : Word) (s : State) :
    (accept c s).errIndex = s.errIndex := rfl
@[simp] theorem accept_failCount (c : Word) (s : State) :
    (accept c s).failCount = s.failCount := rfl
@[simp] theorem accept_nbr (c : Word) (s : State) :
    (accept c s).nbr = s.nbr := rfl
@[simp] theorem accept_cursor (c : Word) (s : State) :
    (accept c s).cursor = 0 := rfl
@[simp] theorem accept_mem (c : Word) (s : State) :
    (accept c s).mem = s.mem := rfl
@[simp] theorem accept_platform (c : Word) (s : State) :
    (accept c s).platform = s.platform := rfl
@[simp] theorem accept_sched (c : Word) (s : State) :
    (accept c s).sched = s.sched := rfl
@[simp] theorem accept_turn (c : Word) (s : State) :
    (accept c s).turn = s.turn := rfl
@[simp] theorem accept_port (c : Word) (s : State) :
    (accept c s).port = s.port := rfl
@[simp] theorem accept_memAtIssue (c : Word) (s : State) :
    (accept c s).memAtIssue = s.mem := rfl
@[simp] theorem accept_bus (c : Word) (s : State) :
    (accept c s).bus = s.bus := rfl

/-! ### finish -/

@[simp] theorem finish_irqEn (s : State) :
    (finish s).irqEn = s.irqEn := rfl
@[simp] theorem finish_busy (s : State) :
    (finish s).busy = false := rfl
@[simp] theorem finish_done (s : State) :
    (finish s).done = true := rfl
@[simp] theorem finish_ovr (s : State) :
    (finish s).ovr = s.ovr := rfl
@[simp] theorem finish_abrt (s : State) :
    (finish s).abrt = false := rfl
@[simp] theorem finish_vphase (s : State) :
    (finish s).vphase = false := rfl
@[simp] theorem finish_err (s : State) :
    (finish s).err = s.err := rfl
@[simp] theorem finish_lastCmd (s : State) :
    (finish s).lastCmd = s.lastCmd := rfl
@[simp] theorem finish_coordIn (s : State) :
    (finish s).coordIn = s.coordIn := rfl
@[simp] theorem finish_keyIn (s : State) :
    (finish s).keyIn = s.keyIn := rfl
@[simp] theorem finish_result (s : State) :
    (finish s).result = s.result := rfl
@[simp] theorem finish_nbrMask (s : State) :
    (finish s).nbrMask = s.nbrMask := rfl
@[simp] theorem finish_srcAddr (s : State) :
    (finish s).srcAddr = s.srcAddr := rfl
@[simp] theorem finish_dstAddr (s : State) :
    (finish s).dstAddr = s.dstAddr := rfl
@[simp] theorem finish_count (s : State) :
    (finish s).count = s.count := rfl
@[simp] theorem finish_progress (s : State) :
    (finish s).progress = s.progress := rfl
@[simp] theorem finish_errIndex (s : State) :
    (finish s).errIndex = s.errIndex := rfl
@[simp] theorem finish_failCount (s : State) :
    (finish s).failCount = s.failCount := rfl
@[simp] theorem finish_nbr (s : State) :
    (finish s).nbr = s.nbr := rfl
@[simp] theorem finish_cursor (s : State) :
    (finish s).cursor = s.cursor := rfl
@[simp] theorem finish_mem (s : State) :
    (finish s).mem = s.mem := rfl
@[simp] theorem finish_platform (s : State) :
    (finish s).platform = s.platform := rfl
@[simp] theorem finish_sched (s : State) :
    (finish s).sched = s.sched := rfl
@[simp] theorem finish_turn (s : State) :
    (finish s).turn = s.turn := rfl
@[simp] theorem finish_port (s : State) :
    (finish s).port = s.port := rfl
@[simp] theorem finish_memAtIssue (s : State) :
    (finish s).memAtIssue = s.memAtIssue := rfl
@[simp] theorem finish_bus (s : State) :
    (finish s).bus = s.bus := rfl

/-! ### setErrIndex -/

@[simp] theorem setErrIndex_irqEn (i : Option (BitVec 32)) (s : State) :
    (setErrIndex i s).irqEn = s.irqEn := by cases i <;> rfl
@[simp] theorem setErrIndex_busy (i : Option (BitVec 32)) (s : State) :
    (setErrIndex i s).busy = s.busy := by cases i <;> rfl
@[simp] theorem setErrIndex_done (i : Option (BitVec 32)) (s : State) :
    (setErrIndex i s).done = s.done := by cases i <;> rfl
@[simp] theorem setErrIndex_ovr (i : Option (BitVec 32)) (s : State) :
    (setErrIndex i s).ovr = s.ovr := by cases i <;> rfl
@[simp] theorem setErrIndex_abrt (i : Option (BitVec 32)) (s : State) :
    (setErrIndex i s).abrt = s.abrt := by cases i <;> rfl
@[simp] theorem setErrIndex_vphase (i : Option (BitVec 32)) (s : State) :
    (setErrIndex i s).vphase = s.vphase := by cases i <;> rfl
@[simp] theorem setErrIndex_err (i : Option (BitVec 32)) (s : State) :
    (setErrIndex i s).err = s.err := by cases i <;> rfl
@[simp] theorem setErrIndex_lastCmd (i : Option (BitVec 32)) (s : State) :
    (setErrIndex i s).lastCmd = s.lastCmd := by cases i <;> rfl
@[simp] theorem setErrIndex_coordIn (i : Option (BitVec 32)) (s : State) :
    (setErrIndex i s).coordIn = s.coordIn := by cases i <;> rfl
@[simp] theorem setErrIndex_keyIn (i : Option (BitVec 32)) (s : State) :
    (setErrIndex i s).keyIn = s.keyIn := by cases i <;> rfl
@[simp] theorem setErrIndex_result (i : Option (BitVec 32)) (s : State) :
    (setErrIndex i s).result = s.result := by cases i <;> rfl
@[simp] theorem setErrIndex_nbrMask (i : Option (BitVec 32)) (s : State) :
    (setErrIndex i s).nbrMask = s.nbrMask := by cases i <;> rfl
@[simp] theorem setErrIndex_srcAddr (i : Option (BitVec 32)) (s : State) :
    (setErrIndex i s).srcAddr = s.srcAddr := by cases i <;> rfl
@[simp] theorem setErrIndex_dstAddr (i : Option (BitVec 32)) (s : State) :
    (setErrIndex i s).dstAddr = s.dstAddr := by cases i <;> rfl
@[simp] theorem setErrIndex_count (i : Option (BitVec 32)) (s : State) :
    (setErrIndex i s).count = s.count := by cases i <;> rfl
@[simp] theorem setErrIndex_progress (i : Option (BitVec 32)) (s : State) :
    (setErrIndex i s).progress = s.progress := by cases i <;> rfl
@[simp] theorem setErrIndex_errIndex (i : Option (BitVec 32)) (s : State) :
    (setErrIndex i s).errIndex = i.getD s.errIndex := by cases i <;> rfl
@[simp] theorem setErrIndex_failCount (i : Option (BitVec 32)) (s : State) :
    (setErrIndex i s).failCount = s.failCount := by cases i <;> rfl
@[simp] theorem setErrIndex_nbr (i : Option (BitVec 32)) (s : State) :
    (setErrIndex i s).nbr = s.nbr := by cases i <;> rfl
@[simp] theorem setErrIndex_cursor (i : Option (BitVec 32)) (s : State) :
    (setErrIndex i s).cursor = s.cursor := by cases i <;> rfl
@[simp] theorem setErrIndex_mem (i : Option (BitVec 32)) (s : State) :
    (setErrIndex i s).mem = s.mem := by cases i <;> rfl
@[simp] theorem setErrIndex_platform (i : Option (BitVec 32)) (s : State) :
    (setErrIndex i s).platform = s.platform := by cases i <;> rfl
@[simp] theorem setErrIndex_sched (i : Option (BitVec 32)) (s : State) :
    (setErrIndex i s).sched = s.sched := by cases i <;> rfl
@[simp] theorem setErrIndex_turn (i : Option (BitVec 32)) (s : State) :
    (setErrIndex i s).turn = s.turn := by cases i <;> rfl
@[simp] theorem setErrIndex_port (i : Option (BitVec 32)) (s : State) :
    (setErrIndex i s).port = s.port := by cases i <;> rfl
@[simp] theorem setErrIndex_memAtIssue (i : Option (BitVec 32)) (s : State) :
    (setErrIndex i s).memAtIssue = s.memAtIssue := by cases i <;> rfl
@[simp] theorem setErrIndex_bus (i : Option (BitVec 32)) (s : State) :
    (setErrIndex i s).bus = s.bus := by cases i <;> rfl

/-! ### raiseError -/

@[simp] theorem raiseError_irqEn (e : Err) (i : Option (BitVec 32)) (s : State) :
    (raiseError e i s).irqEn = s.irqEn := by cases i <;> rfl
@[simp] theorem raiseError_busy (e : Err) (i : Option (BitVec 32)) (s : State) :
    (raiseError e i s).busy = false := by cases i <;> rfl
@[simp] theorem raiseError_done (e : Err) (i : Option (BitVec 32)) (s : State) :
    (raiseError e i s).done = true := by cases i <;> rfl
@[simp] theorem raiseError_ovr (e : Err) (i : Option (BitVec 32)) (s : State) :
    (raiseError e i s).ovr = s.ovr := by cases i <;> rfl
@[simp] theorem raiseError_abrt (e : Err) (i : Option (BitVec 32)) (s : State) :
    (raiseError e i s).abrt = false := by cases i <;> rfl
@[simp] theorem raiseError_vphase (e : Err) (i : Option (BitVec 32)) (s : State) :
    (raiseError e i s).vphase = false := by cases i <;> rfl
@[simp] theorem raiseError_err (e : Err) (i : Option (BitVec 32)) (s : State) :
    (raiseError e i s).err = e := by cases i <;> rfl
@[simp] theorem raiseError_lastCmd (e : Err) (i : Option (BitVec 32)) (s : State) :
    (raiseError e i s).lastCmd = s.lastCmd := by cases i <;> rfl
@[simp] theorem raiseError_coordIn (e : Err) (i : Option (BitVec 32)) (s : State) :
    (raiseError e i s).coordIn = s.coordIn := by cases i <;> rfl
@[simp] theorem raiseError_keyIn (e : Err) (i : Option (BitVec 32)) (s : State) :
    (raiseError e i s).keyIn = s.keyIn := by cases i <;> rfl
@[simp] theorem raiseError_result (e : Err) (i : Option (BitVec 32)) (s : State) :
    (raiseError e i s).result = s.result := by cases i <;> rfl
@[simp] theorem raiseError_nbrMask (e : Err) (i : Option (BitVec 32)) (s : State) :
    (raiseError e i s).nbrMask = s.nbrMask := by cases i <;> rfl
@[simp] theorem raiseError_srcAddr (e : Err) (i : Option (BitVec 32)) (s : State) :
    (raiseError e i s).srcAddr = s.srcAddr := by cases i <;> rfl
@[simp] theorem raiseError_dstAddr (e : Err) (i : Option (BitVec 32)) (s : State) :
    (raiseError e i s).dstAddr = s.dstAddr := by cases i <;> rfl
@[simp] theorem raiseError_count (e : Err) (i : Option (BitVec 32)) (s : State) :
    (raiseError e i s).count = s.count := by cases i <;> rfl
@[simp] theorem raiseError_progress (e : Err) (i : Option (BitVec 32)) (s : State) :
    (raiseError e i s).progress = s.progress := by cases i <;> rfl
@[simp] theorem raiseError_errIndex (e : Err) (i : Option (BitVec 32)) (s : State) :
    (raiseError e i s).errIndex = i.getD s.errIndex := by cases i <;> rfl
@[simp] theorem raiseError_failCount (e : Err) (i : Option (BitVec 32)) (s : State) :
    (raiseError e i s).failCount = s.failCount := by cases i <;> rfl
@[simp] theorem raiseError_nbr (e : Err) (i : Option (BitVec 32)) (s : State) :
    (raiseError e i s).nbr = s.nbr := by cases i <;> rfl
@[simp] theorem raiseError_cursor (e : Err) (i : Option (BitVec 32)) (s : State) :
    (raiseError e i s).cursor = s.cursor := by cases i <;> rfl
@[simp] theorem raiseError_mem (e : Err) (i : Option (BitVec 32)) (s : State) :
    (raiseError e i s).mem = s.mem := by cases i <;> rfl
@[simp] theorem raiseError_platform (e : Err) (i : Option (BitVec 32)) (s : State) :
    (raiseError e i s).platform = s.platform := by cases i <;> rfl
@[simp] theorem raiseError_sched (e : Err) (i : Option (BitVec 32)) (s : State) :
    (raiseError e i s).sched = s.sched := by cases i <;> rfl
@[simp] theorem raiseError_turn (e : Err) (i : Option (BitVec 32)) (s : State) :
    (raiseError e i s).turn = s.turn := by cases i <;> rfl
@[simp] theorem raiseError_port (e : Err) (i : Option (BitVec 32)) (s : State) :
    (raiseError e i s).port = s.port := by cases i <;> rfl
@[simp] theorem raiseError_memAtIssue (e : Err) (i : Option (BitVec 32)) (s : State) :
    (raiseError e i s).memAtIssue = s.memAtIssue := by cases i <;> rfl
@[simp] theorem raiseError_bus (e : Err) (i : Option (BitVec 32)) (s : State) :
    (raiseError e i s).bus = s.bus := by cases i <;> rfl

/-! ### writeStatus -/

@[simp] theorem writeStatus_irqEn (v : Word) (s : State) :
    (writeStatus v s).irqEn = s.irqEn := rfl
@[simp] theorem writeStatus_busy (v : Word) (s : State) :
    (writeStatus v s).busy = s.busy := rfl
@[simp] theorem writeStatus_done (v : Word) (s : State) :
    (writeStatus v s).done = (s.done && !v.getLsbD 1) := rfl
@[simp] theorem writeStatus_ovr (v : Word) (s : State) :
    (writeStatus v s).ovr = (s.ovr && !v.getLsbD 2) := rfl
@[simp] theorem writeStatus_abrt (v : Word) (s : State) :
    (writeStatus v s).abrt = s.abrt := rfl
@[simp] theorem writeStatus_vphase (v : Word) (s : State) :
    (writeStatus v s).vphase = s.vphase := rfl
@[simp] theorem writeStatus_err (v : Word) (s : State) :
    (writeStatus v s).err = s.err := rfl
@[simp] theorem writeStatus_lastCmd (v : Word) (s : State) :
    (writeStatus v s).lastCmd = s.lastCmd := rfl
@[simp] theorem writeStatus_coordIn (v : Word) (s : State) :
    (writeStatus v s).coordIn = s.coordIn := rfl
@[simp] theorem writeStatus_keyIn (v : Word) (s : State) :
    (writeStatus v s).keyIn = s.keyIn := rfl
@[simp] theorem writeStatus_result (v : Word) (s : State) :
    (writeStatus v s).result = s.result := rfl
@[simp] theorem writeStatus_nbrMask (v : Word) (s : State) :
    (writeStatus v s).nbrMask = s.nbrMask := rfl
@[simp] theorem writeStatus_srcAddr (v : Word) (s : State) :
    (writeStatus v s).srcAddr = s.srcAddr := rfl
@[simp] theorem writeStatus_dstAddr (v : Word) (s : State) :
    (writeStatus v s).dstAddr = s.dstAddr := rfl
@[simp] theorem writeStatus_count (v : Word) (s : State) :
    (writeStatus v s).count = s.count := rfl
@[simp] theorem writeStatus_progress (v : Word) (s : State) :
    (writeStatus v s).progress = s.progress := rfl
@[simp] theorem writeStatus_errIndex (v : Word) (s : State) :
    (writeStatus v s).errIndex = s.errIndex := rfl
@[simp] theorem writeStatus_failCount (v : Word) (s : State) :
    (writeStatus v s).failCount = s.failCount := rfl
@[simp] theorem writeStatus_nbr (v : Word) (s : State) :
    (writeStatus v s).nbr = s.nbr := rfl
@[simp] theorem writeStatus_cursor (v : Word) (s : State) :
    (writeStatus v s).cursor = s.cursor := rfl
@[simp] theorem writeStatus_mem (v : Word) (s : State) :
    (writeStatus v s).mem = s.mem := rfl
@[simp] theorem writeStatus_platform (v : Word) (s : State) :
    (writeStatus v s).platform = s.platform := rfl
@[simp] theorem writeStatus_sched (v : Word) (s : State) :
    (writeStatus v s).sched = s.sched := rfl
@[simp] theorem writeStatus_turn (v : Word) (s : State) :
    (writeStatus v s).turn = s.turn := rfl
@[simp] theorem writeStatus_port (v : Word) (s : State) :
    (writeStatus v s).port = s.port := rfl
@[simp] theorem writeStatus_memAtIssue (v : Word) (s : State) :
    (writeStatus v s).memAtIssue = s.memAtIssue := rfl
@[simp] theorem writeStatus_bus (v : Word) (s : State) :
    (writeStatus v s).bus = s.bus := rfl

/-! ### resetBlock -/

@[simp] theorem resetBlock_irqEn (s : State) :
    (resetBlock s).irqEn = State.reset.irqEn := rfl
@[simp] theorem resetBlock_busy (s : State) :
    (resetBlock s).busy = State.reset.busy := rfl
@[simp] theorem resetBlock_done (s : State) :
    (resetBlock s).done = State.reset.done := rfl
@[simp] theorem resetBlock_ovr (s : State) :
    (resetBlock s).ovr = State.reset.ovr := rfl
@[simp] theorem resetBlock_abrt (s : State) :
    (resetBlock s).abrt = State.reset.abrt := rfl
@[simp] theorem resetBlock_vphase (s : State) :
    (resetBlock s).vphase = State.reset.vphase := rfl
@[simp] theorem resetBlock_err (s : State) :
    (resetBlock s).err = State.reset.err := rfl
@[simp] theorem resetBlock_lastCmd (s : State) :
    (resetBlock s).lastCmd = State.reset.lastCmd := rfl
@[simp] theorem resetBlock_coordIn (s : State) :
    (resetBlock s).coordIn = State.reset.coordIn := rfl
@[simp] theorem resetBlock_keyIn (s : State) :
    (resetBlock s).keyIn = State.reset.keyIn := rfl
@[simp] theorem resetBlock_result (s : State) :
    (resetBlock s).result = State.reset.result := rfl
@[simp] theorem resetBlock_nbrMask (s : State) :
    (resetBlock s).nbrMask = State.reset.nbrMask := rfl
@[simp] theorem resetBlock_srcAddr (s : State) :
    (resetBlock s).srcAddr = State.reset.srcAddr := rfl
@[simp] theorem resetBlock_dstAddr (s : State) :
    (resetBlock s).dstAddr = State.reset.dstAddr := rfl
@[simp] theorem resetBlock_count (s : State) :
    (resetBlock s).count = State.reset.count := rfl
@[simp] theorem resetBlock_progress (s : State) :
    (resetBlock s).progress = State.reset.progress := rfl
@[simp] theorem resetBlock_errIndex (s : State) :
    (resetBlock s).errIndex = State.reset.errIndex := rfl
@[simp] theorem resetBlock_failCount (s : State) :
    (resetBlock s).failCount = State.reset.failCount := rfl
@[simp] theorem resetBlock_nbr (s : State) :
    (resetBlock s).nbr = State.reset.nbr := rfl
@[simp] theorem resetBlock_cursor (s : State) :
    (resetBlock s).cursor = State.reset.cursor := rfl
@[simp] theorem resetBlock_mem (s : State) :
    (resetBlock s).mem = s.mem := rfl
@[simp] theorem resetBlock_platform (s : State) :
    (resetBlock s).platform = s.platform := rfl
@[simp] theorem resetBlock_sched (s : State) :
    (resetBlock s).sched = s.sched := rfl
@[simp] theorem resetBlock_turn (s : State) :
    (resetBlock s).turn = s.turn := rfl
@[simp] theorem resetBlock_port (s : State) :
    (resetBlock s).port = s.port := rfl
@[simp] theorem resetBlock_memAtIssue (s : State) :
    (resetBlock s).memAtIssue = s.memAtIssue := rfl
@[simp] theorem resetBlock_bus (s : State) :
    (resetBlock s).bus = s.bus := rfl

/-! ### putResults -/

@[simp] theorem putResults_irqEn (fn : Func) (outs : List Word) (s : State) :
    (putResults fn outs s).irqEn = s.irqEn := by
  cases h : fn.isNeighbor <;> simp [putResults, h]
@[simp] theorem putResults_busy (fn : Func) (outs : List Word) (s : State) :
    (putResults fn outs s).busy = s.busy := by
  cases h : fn.isNeighbor <;> simp [putResults, h]
@[simp] theorem putResults_done (fn : Func) (outs : List Word) (s : State) :
    (putResults fn outs s).done = s.done := by
  cases h : fn.isNeighbor <;> simp [putResults, h]
@[simp] theorem putResults_ovr (fn : Func) (outs : List Word) (s : State) :
    (putResults fn outs s).ovr = s.ovr := by
  cases h : fn.isNeighbor <;> simp [putResults, h]
@[simp] theorem putResults_abrt (fn : Func) (outs : List Word) (s : State) :
    (putResults fn outs s).abrt = s.abrt := by
  cases h : fn.isNeighbor <;> simp [putResults, h]
@[simp] theorem putResults_vphase (fn : Func) (outs : List Word) (s : State) :
    (putResults fn outs s).vphase = s.vphase := by
  cases h : fn.isNeighbor <;> simp [putResults, h]
@[simp] theorem putResults_err (fn : Func) (outs : List Word) (s : State) :
    (putResults fn outs s).err = s.err := by
  cases h : fn.isNeighbor <;> simp [putResults, h]
@[simp] theorem putResults_lastCmd (fn : Func) (outs : List Word) (s : State) :
    (putResults fn outs s).lastCmd = s.lastCmd := by
  cases h : fn.isNeighbor <;> simp [putResults, h]
@[simp] theorem putResults_coordIn (fn : Func) (outs : List Word) (s : State) :
    (putResults fn outs s).coordIn = s.coordIn := by
  cases h : fn.isNeighbor <;> simp [putResults, h]
@[simp] theorem putResults_keyIn (fn : Func) (outs : List Word) (s : State) :
    (putResults fn outs s).keyIn = s.keyIn := by
  cases h : fn.isNeighbor <;> simp [putResults, h]
@[simp] theorem putResults_result (fn : Func) (outs : List Word) (s : State) :
    (putResults fn outs s).result = if fn.isNeighbor then s.result else outs.getD 0 0#64 := by
  cases h : fn.isNeighbor <;> simp [putResults, h]
@[simp] theorem putResults_nbrMask (fn : Func) (outs : List Word) (s : State) :
    (putResults fn outs s).nbrMask = if fn.isNeighbor then maskOf outs else s.nbrMask := by
  cases h : fn.isNeighbor <;> simp [putResults, h]
@[simp] theorem putResults_srcAddr (fn : Func) (outs : List Word) (s : State) :
    (putResults fn outs s).srcAddr = s.srcAddr := by
  cases h : fn.isNeighbor <;> simp [putResults, h]
@[simp] theorem putResults_dstAddr (fn : Func) (outs : List Word) (s : State) :
    (putResults fn outs s).dstAddr = s.dstAddr := by
  cases h : fn.isNeighbor <;> simp [putResults, h]
@[simp] theorem putResults_count (fn : Func) (outs : List Word) (s : State) :
    (putResults fn outs s).count = s.count := by
  cases h : fn.isNeighbor <;> simp [putResults, h]
@[simp] theorem putResults_progress (fn : Func) (outs : List Word) (s : State) :
    (putResults fn outs s).progress = s.progress := by
  cases h : fn.isNeighbor <;> simp [putResults, h]
@[simp] theorem putResults_errIndex (fn : Func) (outs : List Word) (s : State) :
    (putResults fn outs s).errIndex = s.errIndex := by
  cases h : fn.isNeighbor <;> simp [putResults, h]
@[simp] theorem putResults_failCount (fn : Func) (outs : List Word) (s : State) :
    (putResults fn outs s).failCount = s.failCount := by
  cases h : fn.isNeighbor <;> simp [putResults, h]
@[simp] theorem putResults_nbr (fn : Func) (outs : List Word) (s : State) :
    (putResults fn outs s).nbr = if fn.isNeighbor then nbrOf outs else s.nbr := by
  cases h : fn.isNeighbor <;> simp [putResults, h]
@[simp] theorem putResults_cursor (fn : Func) (outs : List Word) (s : State) :
    (putResults fn outs s).cursor = s.cursor := by
  cases h : fn.isNeighbor <;> simp [putResults, h]
@[simp] theorem putResults_mem (fn : Func) (outs : List Word) (s : State) :
    (putResults fn outs s).mem = s.mem := by
  cases h : fn.isNeighbor <;> simp [putResults, h]
@[simp] theorem putResults_platform (fn : Func) (outs : List Word) (s : State) :
    (putResults fn outs s).platform = s.platform := by
  cases h : fn.isNeighbor <;> simp [putResults, h]
@[simp] theorem putResults_sched (fn : Func) (outs : List Word) (s : State) :
    (putResults fn outs s).sched = s.sched := by
  cases h : fn.isNeighbor <;> simp [putResults, h]
@[simp] theorem putResults_turn (fn : Func) (outs : List Word) (s : State) :
    (putResults fn outs s).turn = s.turn := by
  cases h : fn.isNeighbor <;> simp [putResults, h]
@[simp] theorem putResults_port (fn : Func) (outs : List Word) (s : State) :
    (putResults fn outs s).port = s.port := by
  cases h : fn.isNeighbor <;> simp [putResults, h]
@[simp] theorem putResults_memAtIssue (fn : Func) (outs : List Word) (s : State) :
    (putResults fn outs s).memAtIssue = s.memAtIssue := by
  cases h : fn.isNeighbor <;> simp [putResults, h]
@[simp] theorem putResults_bus (fn : Func) (outs : List Word) (s : State) :
    (putResults fn outs s).bus = s.bus := by
  cases h : fn.isNeighbor <;> simp [putResults, h]

/-! ### recordFailure -/

@[simp] theorem recordFailure_irqEn (e : Err) (i : Nat) (s : State) :
    (recordFailure e i s).irqEn = s.irqEn := by
  unfold recordFailure; split <;> rfl
@[simp] theorem recordFailure_busy (e : Err) (i : Nat) (s : State) :
    (recordFailure e i s).busy = s.busy := by
  unfold recordFailure; split <;> rfl
@[simp] theorem recordFailure_done (e : Err) (i : Nat) (s : State) :
    (recordFailure e i s).done = s.done := by
  unfold recordFailure; split <;> rfl
@[simp] theorem recordFailure_ovr (e : Err) (i : Nat) (s : State) :
    (recordFailure e i s).ovr = s.ovr := by
  unfold recordFailure; split <;> rfl
@[simp] theorem recordFailure_abrt (e : Err) (i : Nat) (s : State) :
    (recordFailure e i s).abrt = s.abrt := by
  unfold recordFailure; split <;> rfl
@[simp] theorem recordFailure_vphase (e : Err) (i : Nat) (s : State) :
    (recordFailure e i s).vphase = s.vphase := by
  unfold recordFailure; split <;> rfl
@[simp] theorem recordFailure_err (e : Err) (i : Nat) (s : State) :
    (recordFailure e i s).err = if s.errIndex = Config.noElement then e else s.err := by
  unfold recordFailure; split <;> rfl
@[simp] theorem recordFailure_lastCmd (e : Err) (i : Nat) (s : State) :
    (recordFailure e i s).lastCmd = s.lastCmd := by
  unfold recordFailure; split <;> rfl
@[simp] theorem recordFailure_coordIn (e : Err) (i : Nat) (s : State) :
    (recordFailure e i s).coordIn = s.coordIn := by
  unfold recordFailure; split <;> rfl
@[simp] theorem recordFailure_keyIn (e : Err) (i : Nat) (s : State) :
    (recordFailure e i s).keyIn = s.keyIn := by
  unfold recordFailure; split <;> rfl
@[simp] theorem recordFailure_result (e : Err) (i : Nat) (s : State) :
    (recordFailure e i s).result = s.result := by
  unfold recordFailure; split <;> rfl
@[simp] theorem recordFailure_nbrMask (e : Err) (i : Nat) (s : State) :
    (recordFailure e i s).nbrMask = s.nbrMask := by
  unfold recordFailure; split <;> rfl
@[simp] theorem recordFailure_srcAddr (e : Err) (i : Nat) (s : State) :
    (recordFailure e i s).srcAddr = s.srcAddr := by
  unfold recordFailure; split <;> rfl
@[simp] theorem recordFailure_dstAddr (e : Err) (i : Nat) (s : State) :
    (recordFailure e i s).dstAddr = s.dstAddr := by
  unfold recordFailure; split <;> rfl
@[simp] theorem recordFailure_count (e : Err) (i : Nat) (s : State) :
    (recordFailure e i s).count = s.count := by
  unfold recordFailure; split <;> rfl
@[simp] theorem recordFailure_progress (e : Err) (i : Nat) (s : State) :
    (recordFailure e i s).progress = s.progress := by
  unfold recordFailure; split <;> rfl
@[simp] theorem recordFailure_errIndex (e : Err) (i : Nat) (s : State) :
    (recordFailure e i s).errIndex = if s.errIndex = Config.noElement then elemIndex i else s.errIndex := by
  unfold recordFailure; split <;> rfl
@[simp] theorem recordFailure_failCount (e : Err) (i : Nat) (s : State) :
    (recordFailure e i s).failCount = s.failCount + 1#32 := by
  unfold recordFailure; split <;> rfl
@[simp] theorem recordFailure_nbr (e : Err) (i : Nat) (s : State) :
    (recordFailure e i s).nbr = s.nbr := by
  unfold recordFailure; split <;> rfl
@[simp] theorem recordFailure_cursor (e : Err) (i : Nat) (s : State) :
    (recordFailure e i s).cursor = s.cursor := by
  unfold recordFailure; split <;> rfl
@[simp] theorem recordFailure_mem (e : Err) (i : Nat) (s : State) :
    (recordFailure e i s).mem = s.mem := by
  unfold recordFailure; split <;> rfl
@[simp] theorem recordFailure_platform (e : Err) (i : Nat) (s : State) :
    (recordFailure e i s).platform = s.platform := by
  unfold recordFailure; split <;> rfl
@[simp] theorem recordFailure_sched (e : Err) (i : Nat) (s : State) :
    (recordFailure e i s).sched = s.sched := by
  unfold recordFailure; split <;> rfl
@[simp] theorem recordFailure_turn (e : Err) (i : Nat) (s : State) :
    (recordFailure e i s).turn = s.turn := by
  unfold recordFailure; split <;> rfl
@[simp] theorem recordFailure_port (e : Err) (i : Nat) (s : State) :
    (recordFailure e i s).port = s.port := by
  unfold recordFailure; split <;> rfl
@[simp] theorem recordFailure_memAtIssue (e : Err) (i : Nat) (s : State) :
    (recordFailure e i s).memAtIssue = s.memAtIssue := by
  unfold recordFailure; split <;> rfl
@[simp] theorem recordFailure_bus (e : Err) (i : Nat) (s : State) :
    (recordFailure e i s).bus = s.bus := by
  unfold recordFailure; split <;> rfl

/-! ### elementWritten -/

@[simp] theorem elementWritten_irqEn (e : Err) (i : Nat) (s : State) :
    (elementWritten e i s).irqEn = s.irqEn := by
  by_cases h : e = .ok <;> simp [elementWritten, h]
@[simp] theorem elementWritten_busy (e : Err) (i : Nat) (s : State) :
    (elementWritten e i s).busy = s.busy := by
  by_cases h : e = .ok <;> simp [elementWritten, h]
@[simp] theorem elementWritten_done (e : Err) (i : Nat) (s : State) :
    (elementWritten e i s).done = s.done := by
  by_cases h : e = .ok <;> simp [elementWritten, h]
@[simp] theorem elementWritten_ovr (e : Err) (i : Nat) (s : State) :
    (elementWritten e i s).ovr = s.ovr := by
  by_cases h : e = .ok <;> simp [elementWritten, h]
@[simp] theorem elementWritten_abrt (e : Err) (i : Nat) (s : State) :
    (elementWritten e i s).abrt = s.abrt := by
  by_cases h : e = .ok <;> simp [elementWritten, h]
@[simp] theorem elementWritten_vphase (e : Err) (i : Nat) (s : State) :
    (elementWritten e i s).vphase = s.vphase := by
  by_cases h : e = .ok <;> simp [elementWritten, h]
@[simp] theorem elementWritten_err (e : Err) (i : Nat) (s : State) :
    (elementWritten e i s).err = if e = .ok then s.err else if s.errIndex = Config.noElement then e else s.err := by
  by_cases h : e = .ok <;> simp [elementWritten, h]
@[simp] theorem elementWritten_lastCmd (e : Err) (i : Nat) (s : State) :
    (elementWritten e i s).lastCmd = s.lastCmd := by
  by_cases h : e = .ok <;> simp [elementWritten, h]
@[simp] theorem elementWritten_coordIn (e : Err) (i : Nat) (s : State) :
    (elementWritten e i s).coordIn = s.coordIn := by
  by_cases h : e = .ok <;> simp [elementWritten, h]
@[simp] theorem elementWritten_keyIn (e : Err) (i : Nat) (s : State) :
    (elementWritten e i s).keyIn = s.keyIn := by
  by_cases h : e = .ok <;> simp [elementWritten, h]
@[simp] theorem elementWritten_result (e : Err) (i : Nat) (s : State) :
    (elementWritten e i s).result = s.result := by
  by_cases h : e = .ok <;> simp [elementWritten, h]
@[simp] theorem elementWritten_nbrMask (e : Err) (i : Nat) (s : State) :
    (elementWritten e i s).nbrMask = s.nbrMask := by
  by_cases h : e = .ok <;> simp [elementWritten, h]
@[simp] theorem elementWritten_srcAddr (e : Err) (i : Nat) (s : State) :
    (elementWritten e i s).srcAddr = s.srcAddr := by
  by_cases h : e = .ok <;> simp [elementWritten, h]
@[simp] theorem elementWritten_dstAddr (e : Err) (i : Nat) (s : State) :
    (elementWritten e i s).dstAddr = s.dstAddr := by
  by_cases h : e = .ok <;> simp [elementWritten, h]
@[simp] theorem elementWritten_count (e : Err) (i : Nat) (s : State) :
    (elementWritten e i s).count = s.count := by
  by_cases h : e = .ok <;> simp [elementWritten, h]
@[simp] theorem elementWritten_progress (e : Err) (i : Nat) (s : State) :
    (elementWritten e i s).progress = elemIndex (i + 1) := by
  by_cases h : e = .ok <;> simp [elementWritten, h]
@[simp] theorem elementWritten_errIndex (e : Err) (i : Nat) (s : State) :
    (elementWritten e i s).errIndex = if e = .ok then s.errIndex else if s.errIndex = Config.noElement then elemIndex i else s.errIndex := by
  by_cases h : e = .ok <;> simp [elementWritten, h]
@[simp] theorem elementWritten_failCount (e : Err) (i : Nat) (s : State) :
    (elementWritten e i s).failCount = if e = .ok then s.failCount else s.failCount + 1#32 := by
  by_cases h : e = .ok <;> simp [elementWritten, h]
@[simp] theorem elementWritten_nbr (e : Err) (i : Nat) (s : State) :
    (elementWritten e i s).nbr = s.nbr := by
  by_cases h : e = .ok <;> simp [elementWritten, h]
@[simp] theorem elementWritten_cursor (e : Err) (i : Nat) (s : State) :
    (elementWritten e i s).cursor = i + 1 := by
  by_cases h : e = .ok <;> simp [elementWritten, h]
@[simp] theorem elementWritten_mem (e : Err) (i : Nat) (s : State) :
    (elementWritten e i s).mem = s.mem := by
  by_cases h : e = .ok <;> simp [elementWritten, h]
@[simp] theorem elementWritten_platform (e : Err) (i : Nat) (s : State) :
    (elementWritten e i s).platform = s.platform := by
  by_cases h : e = .ok <;> simp [elementWritten, h]
@[simp] theorem elementWritten_sched (e : Err) (i : Nat) (s : State) :
    (elementWritten e i s).sched = s.sched := by
  by_cases h : e = .ok <;> simp [elementWritten, h]
@[simp] theorem elementWritten_turn (e : Err) (i : Nat) (s : State) :
    (elementWritten e i s).turn = s.turn := by
  by_cases h : e = .ok <;> simp [elementWritten, h]
@[simp] theorem elementWritten_port (e : Err) (i : Nat) (s : State) :
    (elementWritten e i s).port = s.port := by
  by_cases h : e = .ok <;> simp [elementWritten, h]
@[simp] theorem elementWritten_memAtIssue (e : Err) (i : Nat) (s : State) :
    (elementWritten e i s).memAtIssue = s.memAtIssue := by
  by_cases h : e = .ok <;> simp [elementWritten, h]
@[simp] theorem elementWritten_bus (e : Err) (i : Nat) (s : State) :
    (elementWritten e i s).bus = s.bus := by
  by_cases h : e = .ok <;> simp [elementWritten, h]

/-! ### takeMove -/

@[simp] theorem takeMove_irqEn (s : State) :
    (takeMove s).irqEn = s.irqEn := rfl
@[simp] theorem takeMove_busy (s : State) :
    (takeMove s).busy = s.busy := rfl
@[simp] theorem takeMove_done (s : State) :
    (takeMove s).done = s.done := rfl
@[simp] theorem takeMove_ovr (s : State) :
    (takeMove s).ovr = s.ovr := rfl
@[simp] theorem takeMove_abrt (s : State) :
    (takeMove s).abrt = s.abrt := rfl
@[simp] theorem takeMove_vphase (s : State) :
    (takeMove s).vphase = s.vphase := rfl
@[simp] theorem takeMove_err (s : State) :
    (takeMove s).err = s.err := rfl
@[simp] theorem takeMove_lastCmd (s : State) :
    (takeMove s).lastCmd = s.lastCmd := rfl
@[simp] theorem takeMove_coordIn (s : State) :
    (takeMove s).coordIn = s.coordIn := rfl
@[simp] theorem takeMove_keyIn (s : State) :
    (takeMove s).keyIn = s.keyIn := rfl
@[simp] theorem takeMove_result (s : State) :
    (takeMove s).result = s.result := rfl
@[simp] theorem takeMove_nbrMask (s : State) :
    (takeMove s).nbrMask = s.nbrMask := rfl
@[simp] theorem takeMove_srcAddr (s : State) :
    (takeMove s).srcAddr = s.srcAddr := rfl
@[simp] theorem takeMove_dstAddr (s : State) :
    (takeMove s).dstAddr = s.dstAddr := rfl
@[simp] theorem takeMove_count (s : State) :
    (takeMove s).count = s.count := rfl
@[simp] theorem takeMove_progress (s : State) :
    (takeMove s).progress = s.progress := rfl
@[simp] theorem takeMove_errIndex (s : State) :
    (takeMove s).errIndex = s.errIndex := rfl
@[simp] theorem takeMove_failCount (s : State) :
    (takeMove s).failCount = s.failCount := rfl
@[simp] theorem takeMove_nbr (s : State) :
    (takeMove s).nbr = s.nbr := rfl
@[simp] theorem takeMove_cursor (s : State) :
    (takeMove s).cursor = s.cursor := rfl
@[simp] theorem takeMove_mem (s : State) :
    (takeMove s).mem = s.mem := rfl
@[simp] theorem takeMove_platform (s : State) :
    (takeMove s).platform = s.platform := rfl
@[simp] theorem takeMove_sched (s : State) :
    (takeMove s).sched = s.sched.tail := rfl
@[simp] theorem takeMove_turn (s : State) :
    (takeMove s).turn = if s.sched = [] then s.turn + 1 else s.turn := rfl
@[simp] theorem takeMove_port (s : State) :
    (takeMove s).port = s.port := rfl
@[simp] theorem takeMove_memAtIssue (s : State) :
    (takeMove s).memAtIssue = s.memAtIssue := rfl
@[simp] theorem takeMove_bus (s : State) :
    (takeMove s).bus = s.bus := rfl

end Sys2Proof.Machine
end

