-- ==== Sys2Proof/Laws/Ops.lean ====
section
/-! SUPPORT. What each shared operation over registers and the master port does, said once. -/

namespace Sys2Proof.Machine

/-! ### The register window -/

/-- An offset below 0x100 is found again in the window, wherever the window lies (R17, R38a). -/
theorem windowOffset_add (base : Word) (off : Nat) (h : off < 0x100) :
    windowOffset base (base + BitVec.ofNat 64 off) = some off := by
  have : (base + BitVec.ofNat 64 off - base).toNat = off := by
    rw [BitVec.add_comm, BitVec.add_sub_cancel, BitVec.toNat_ofNat]
    omega
  simp only [windowOffset, this, Config.windowBytes, if_pos h]

/-- In a window at a multiple of 0x100, an access is well formed by its width and its offset (R39). -/
theorem goodAccess_add (base : Word) (off width : Nat) (hb : base.toNat % 0x100 = 0) :
    goodAccess (base + BitVec.ofNat 64 off) width = (width == 8 && off % 8 == 0) := by
  have : (base + BitVec.ofNat 64 off).toNat % 8 = off % 8 := by
    have := base.isLt
    rw [BitVec.toNat_add, BitVec.toNat_ofNat]
    omega
  simp only [goodAccess, this]

/-- A write to a register other than CMD changes nothing of what a command in progress works on (R76). -/
theorem writeReg_of_busy (r : Reg) (v : Word) (s : State) (h : s.busy = true) :
    writeReg r v s = s ∨ writeReg r v s = { s with ovr := true } ∨
      (∃ b, writeReg r v s = { s with irqEn := b }) ∨ writeReg r v s = writeStatus v s := by
  cases r <;> simp [writeReg, guardedWrite, h]

/-! ### The master port -/

/-- A read that answers, answers the word in memory, was admitted, and is recorded (R41). -/
theorem portRead_eq_some {addr w : Word} {s t : State} :
    portRead addr s = some (w, t) ↔
      admits s.platform .read addr = true ∧ w = readWord s.mem addr ∧
        t = { s with bus := ⟨.read, addr⟩ :: s.bus } := by
  unfold portRead
  split
  · next h => simp [h, eq_comm]
  · next h => simp [h]

theorem portRead_admitted {addr : Word} {s : State} (h : admits s.platform .read addr = true) :
    portRead addr s = some (readWord s.mem addr, { s with bus := ⟨.read, addr⟩ :: s.bus }) := by
  simp [portRead, h]

theorem portRead_refused {addr : Word} {s : State} (h : admits s.platform .read addr = false) :
    portRead addr s = none := by
  simp [portRead, h]

theorem portWrite_admitted {addr v : Word} {s : State} (h : admits s.platform .write addr = true) :
    portWrite addr v s =
      some { s with mem := writeWord s.mem addr v, bus := ⟨.write, addr⟩ :: s.bus } := by
  simp [portWrite, h]

theorem portWrite_refused {addr v : Word} {s : State} (h : admits s.platform .write addr = false) :
    portWrite addr v s = none := by
  simp [portWrite, h]

/-- Memory after the words of one element are stored at ascending addresses (R112, R118). -/
def storeWords (addr : Word) : List Word → List Host.Cell → List Host.Cell
  | [], m => m
  | v :: vs, m => storeWords (addr + 8#64) vs (writeWord m addr v)

/-- The record of `n` writes at ascending addresses, newest first. -/
def writesRecord (addr : Word) : Nat → List BusAccess → List BusAccess
  | 0, b => b
  | n + 1, b => writesRecord (addr + 8#64) n (⟨.write, addr⟩ :: b)

/-- The address of the `j`-th of a run of words. -/
theorem runAddr_succ (addr : Word) (j : Nat) :
    addr + BitVec.ofNat 64 (8 * (j + 1)) = addr + 8#64 + BitVec.ofNat 64 (8 * j) := by
  apply BitVec.eq_of_toNat_eq
  simp only [BitVec.toNat_add, BitVec.toNat_ofNat]
  omega

/-- Everything a run of writes can do: it stores the first `n` words, all of them exactly when it says so,
else up to the first refused address (R42, R118, R132). -/
theorem portWrites_spec (addr : Word) (vs : List Word) (s : State) :
    ∃ n ok, portWrites addr vs s =
        ({ s with mem := storeWords addr (vs.take n) s.mem, bus := writesRecord addr n s.bus }, ok) ∧
      n ≤ vs.length ∧
      (∀ j, j < n → admits s.platform .write (addr + BitVec.ofNat 64 (8 * j)) = true) ∧
      (ok = true ↔ n = vs.length) ∧
      (ok = false →
        admits s.platform .write (addr + BitVec.ofNat 64 (8 * n)) = false) := by
  induction vs generalizing addr s with
  | nil => exact ⟨0, true, rfl, Nat.le_refl _, fun j hj => by omega, by simp, by simp⟩
  | cons v vs ih =>
    have h0 : addr + BitVec.ofNat 64 (8 * 0) = addr := by simp
    cases had : admits s.platform .write addr with
    | false =>
      refine ⟨0, false, ?_, Nat.zero_le _, fun j hj => by omega, by simp, fun _ => by rw [h0]; exact had⟩
      simp [portWrites, portWrite_refused had, storeWords, writesRecord]
    | true =>
      obtain ⟨n, ok, heq, hle, hadm, hok, href⟩ := ih (addr + 8#64)
        { s with mem := writeWord s.mem addr v, bus := ⟨.write, addr⟩ :: s.bus }
      refine ⟨n + 1, ok, ?_, by simpa using hle, ?_, ?_, ?_⟩
      · rw [portWrites, portWrite_admitted had]
        simpa [storeWords, writesRecord] using heq
      · intro j hj
        cases j with
        | zero => rw [h0]; exact had
        | succ j => rw [runAddr_succ]; exact hadm j (by omega)
      · simpa using hok
      · intro h
        rw [runAddr_succ]
        exact href h

/-- Where every write is admitted, all words are stored (R118). -/
theorem portWrites_admitted {addr : Word} {vs : List Word} {s : State}
    (h : ∀ j, j < vs.length → admits s.platform .write (addr + BitVec.ofNat 64 (8 * j)) = true) :
    portWrites addr vs s =
      ({ s with mem := storeWords addr vs s.mem, bus := writesRecord addr vs.length s.bus }, true) := by
  obtain ⟨n, ok, heq, hle, -, hok, href⟩ := portWrites_spec addr vs s
  have hn : n = vs.length := by
    cases ok with
    | true => exact hok.mp rfl
    | false =>
      rcases Nat.lt_or_ge n vs.length with hlt | hge
      · have := href rfl
        rw [h n hlt] at this
        cases this
      · omega
  have : ok = true := hok.mpr hn
  subst this hn
  simpa using heq

/-- Where write `n` is the first refused one, the words before it are stored (R118, R132). -/
theorem portWrites_refused {addr : Word} {vs : List Word} {s : State} {n : Nat} (hn : n < vs.length)
    (h : ∀ j, j < n → admits s.platform .write (addr + BitVec.ofNat 64 (8 * j)) = true)
    (href : admits s.platform .write (addr + BitVec.ofNat 64 (8 * n)) = false) :
    portWrites addr vs s =
      ({ s with mem := storeWords addr (vs.take n) s.mem, bus := writesRecord addr n s.bus }, false) := by
  obtain ⟨m, ok, heq, hle, hadm, hok, href'⟩ := portWrites_spec addr vs s
  have hmn : m ≤ n := by
    rcases Nat.lt_or_ge n m with hlt | hge
    · rw [hadm n hlt] at href
      cases href
    · exact hge
  have hko : ok = false := by
    cases ok with
    | false => rfl
    | true => have := hok.mp rfl; omega
  have : m = n := by
    rcases Nat.lt_or_ge m n with hlt | hge
    · have := href' hko
      rw [h m hlt] at this
      cases this
    · omega
  subst this hko
  exact heq

theorem storeWords_wf {addr : Word} {vs : List Word} {m : List Host.Cell} (h : Memory.wf m = true) :
    Memory.wf (storeWords addr vs m) = true := by
  induction vs generalizing addr m with
  | nil => exact h
  | cons v vs ih => exact ih (writeWord_wf _ _ h)

/-- A byte outside the stored words reads as before (R42). -/
theorem readByte_storeWords_other {addr : Word} {vs : List Word} {m : List Host.Cell} {k : Nat}
    (h : ∀ j l, j < vs.length → l < 8 → k ≠ laneAddr (addr + BitVec.ofNat 64 (8 * j)) l) :
    readByte (storeWords addr vs m) k = readByte m k := by
  induction vs generalizing addr m with
  | nil => rfl
  | cons v vs ih =>
    rw [storeWords, ih, readByte_writeWord_other]
    · intro l hl
      have := h 0 l (by simp) hl
      simpa using this
    · intro j l hj hl
      rw [← runAddr_succ]
      exact h (j + 1) l (by simpa using hj) hl

theorem aligned_add_eight {addr : Word} (h : addr.toNat % 8 = 0) : (addr + 8#64).toNat % 8 = 0 := by
  have := addr.isLt
  rw [BitVec.toNat_add, BitVec.toNat_ofNat]
  omega

theorem aligned_add_words {addr : Word} (h : addr.toNat % 8 = 0) (j : Nat) :
    (addr + BitVec.ofNat 64 (8 * j)).toNat % 8 = 0 := by
  have := addr.isLt
  rw [BitVec.toNat_add, BitVec.toNat_ofNat]
  omega

/-- An aligned word away from the stored ones reads as before (R42). -/
theorem readWord_storeWords_other {addr a : Word} {vs : List Word} {m : List Host.Cell}
    (ha : addr.toNat % 8 = 0) (haa : a.toNat % 8 = 0)
    (h : ∀ j, j < vs.length → addr + BitVec.ofNat 64 (8 * j) ≠ a) :
    readWord (storeWords addr vs m) a = readWord m a := by
  induction vs generalizing addr m with
  | nil => rfl
  | cons v vs ih =>
    rw [storeWords, ih (aligned_add_eight ha), readWord_writeWord_other ha haa]
    · simpa using h 0 (by simp)
    · intro j hj
      rw [← runAddr_succ]
      exact h (j + 1) (by simpa using hj)

/-- The `j`-th stored word is read back at its place (R41, R42, R112). -/
theorem readWord_storeWords_self {addr : Word} {vs : List Word} {m : List Host.Cell} {j : Nat}
    (hm : Memory.wf m = true) (ha : addr.toNat % 8 = 0) (hlen : vs.length ≤ 2 ^ 60) (hj : j < vs.length) :
    some (readWord (storeWords addr vs m) (addr + BitVec.ofNat 64 (8 * j))) = vs[j]? := by
  induction vs generalizing addr m j with
  | nil => simp at hj
  | cons v vs ih =>
    simp only [List.length_cons] at hlen hj
    cases j with
    | zero =>
      rw [storeWords, readWord_storeWords_other (aligned_add_eight ha)]
      · simp [readWord_writeWord_self hm]
      · simpa using ha
      · intro l hl
        rw [← runAddr_succ]
        intro h
        have := congrArg BitVec.toNat ((BitVec.add_right_inj addr).mp h)
        simp only [BitVec.toNat_ofNat] at this
        omega
    | succ j =>
      rw [storeWords, runAddr_succ, ih (writeWord_wf _ _ hm) (aligned_add_eight ha) (by omega) (by omega)]
      simp

/-- The record of a run of writes, written out. -/
theorem writesRecord_eq (addr : Word) (n : Nat) (b : List BusAccess) :
    writesRecord addr n b =
      ((List.range n).reverse.map fun j => ⟨.write, addr + BitVec.ofNat 64 (8 * j)⟩) ++ b := by
  induction n generalizing addr b with
  | zero => rfl
  | succ n ih =>
    rw [writesRecord, ih, List.range_succ_eq_map, List.reverse_cons, List.map_append, List.append_assoc]
    simp only [← runAddr_succ, List.map_reverse, List.map_map]
    simp [Function.comp_def]

end Sys2Proof.Machine
end

