-- ==== Sys2Proof/Laws/Engine.lean ====
section
/-! SUPPORT. The shape of every command's meaning, said once: which shared operation it is, and what one
ENGINE step of a batch command can do. -/

namespace Sys2Proof.Machine

/-- The meaning of a scalar command (R73, R80). -/
theorem exec_scalar {i : Instr} {fn : Func} {f : Bool} (h : scalarForm i = some (fn, f)) (s : State) :
    exec i s = .next (scalarCommand i fn f s) := by
  cases i <;> simp only [scalarForm, reduceCtorEq, Option.some.injEq, Prod.mk.injEq] at h
  all_goals
    obtain ⟨rfl, rfl⟩ := h
    rfl

/-- The meaning of a batch command (R73, R116). -/
theorem exec_batch {i : Instr} {fn : Func} {f a : Bool} (h : batchForm i = some (fn, f, a)) (s : State) :
    exec i s = .next (batchCommand i fn f s) := by
  cases i <;> simp only [batchForm, reduceCtorEq, Option.some.injEq, Prod.mk.injEq] at h
  all_goals
    obtain ⟨rfl, rfl, rfl⟩ := h
    rfl

/-- Every command is a scalar one, a batch one or ABORT (R65). -/
theorem instr_forms (i : Instr) :
    (∃ fn f, scalarForm i = some (fn, f)) ∨ (∃ fn f a, batchForm i = some (fn, f, a)) ∨ i = .abort := by
  cases i
  case abort => exact Or.inr (Or.inr rfl)
  all_goals first
    | exact Or.inl ⟨_, _, rfl⟩
    | exact Or.inr (Or.inl ⟨_, _, _, rfl⟩)

/-- No meaning is a fault or a refusal. -/
theorem exec_next (i : Instr) (s : State) : ∃ t, exec i s = .next t := by
  cases i <;> exact ⟨_, rfl⟩

/-- A batch command's word has B set, and A as its form says (R59, R65). -/
theorem encode_batch_bits {i : Instr} {fn : Func} {f a : Bool} (h : batchForm i = some (fn, f, a)) :
    (encode i).getLsbD 7 = true ∧ (encode i).getLsbD 9 = a := by
  cases i <;> simp only [batchForm, reduceCtorEq, Option.some.injEq, Prod.mk.injEq] at h
  all_goals
    obtain ⟨rfl, rfl, rfl⟩ := h
    first
    | decide
    | (rename_i x; cases x <;> decide)
    | (rename_i x y; cases x <;> cases y <;> decide)

/-- A scalar command's word has B clear (R59, R65). -/
theorem encode_scalar_bits {i : Instr} {fn : Func} {f : Bool} (h : scalarForm i = some (fn, f)) :
    (encode i).getLsbD 7 = false := by
  cases i <;> simp only [scalarForm, reduceCtorEq, Option.some.injEq, Prod.mk.injEq] at h
  all_goals
    obtain ⟨rfl, rfl⟩ := h
    first
    | decide
    | (rename_i x; cases x <;> decide)

/-- The acceptance checks of R113 say OK exactly when the ranges are aligned, within the memory space and
disjoint. -/
theorem batchCheck_eq_none {fn : Func} {s : State} : batchCheck fn s = none ↔ batchAccepted fn s := by
  unfold batchCheck batchAccepted
  dsimp only
  split
  · next h => simp only [reduceCtorEq, false_iff]; omega
  · next h =>
    split
    · next h' => simp only [reduceCtorEq, false_iff]; omega
    · next h' =>
      split
      · next h'' => simp only [reduceCtorEq, false_iff]; omega
      · next h'' => simp only [true_iff]; omega

/-- Everything a validation step can do (R117). -/
theorem validateStep_cases (fn : Func) (f : Bool) (i : Nat) (s : State) :
    (admits s.platform .read (inAddr s i) = false ∧
      validateStep fn f i s = raiseError .busError (some (elemIndex i)) s) ∨
    (admits s.platform .read (inAddr s i) = true ∧
      let r := elem fn f (readWord s.mem (inAddr s i))
      let s1 : State := { s with bus := ⟨.read, inAddr s i⟩ :: s.bus }
      (r.st = .ok ∧ validateStep fn f i s = { s1 with cursor := i + 1 }) ∨
      (r.st ≠ .ok ∧ validateStep fn f i s =
        raiseError r.st (some (elemIndex i)) { s1 with failCount := 1#32 })) := by
  unfold validateStep
  cases had : admits s.platform .read (inAddr s i) with
  | false => exact Or.inl ⟨rfl, by rw [portRead_refused had]⟩
  | true =>
    refine Or.inr ⟨rfl, ?_⟩
    rw [portRead_admitted had]
    dsimp only
    by_cases h : (elem fn f (readWord s.mem (inAddr s i))).st = .ok
    · exact Or.inl ⟨h, by rw [if_pos h]⟩
    · exact Or.inr ⟨h, by rw [if_neg h]⟩

/-- Everything a write step can do (R118): a refused read, a refused write after the words before it, or the
element written and recorded. -/
theorem writeStep_cases (fn : Func) (f : Bool) (i : Nat) (s : State) :
    (admits s.platform .read (inAddr s i) = false ∧
      writeStep fn f i s = raiseError .busError (some (elemIndex i)) s) ∨
    (admits s.platform .read (inAddr s i) = true ∧
      let r := elem fn f (readWord s.mem (inAddr s i))
      let b := ⟨.read, inAddr s i⟩ :: s.bus
      (∃ n, n < r.outs.length ∧ writeStep fn f i s =
        raiseError .busError (some (elemIndex i)) { s with
          mem := storeWords (outAddr fn s i) (r.outs.take n) s.mem
          bus := writesRecord (outAddr fn s i) n b }) ∨
      writeStep fn f i s = elementWritten r.st i { s with
        mem := storeWords (outAddr fn s i) r.outs s.mem
        bus := writesRecord (outAddr fn s i) r.outs.length b }) := by
  unfold writeStep
  cases had : admits s.platform .read (inAddr s i) with
  | false => exact Or.inl ⟨rfl, by rw [portRead_refused had]⟩
  | true =>
    refine Or.inr ⟨rfl, ?_⟩
    rw [portRead_admitted had]
    dsimp only
    obtain ⟨n, ok, heq, hle, -, hok, -⟩ := portWrites_spec (outAddr fn s i)
      (elem fn f (readWord s.mem (inAddr s i))).outs { s with bus := ⟨.read, inAddr s i⟩ :: s.bus }
    cases ok with
    | true =>
      have hn := hok.mp rfl
      subst hn
      exact Or.inr (by rw [heq]; simp)
    | false =>
      have : n ≠ (elem fn f (readWord s.mem (inAddr s i))).outs.length := fun h => by
        have := hok.mpr h
        cases this
      exact Or.inl ⟨n, by omega, by rw [heq]⟩

/-- Everything an ENGINE step of a batch command can do (R72, R116). -/
theorem batchCommand_busy_cases (i : Instr) (fn : Func) (f : Bool) (s : State) (h : s.busy = true) :
    (s.abrt = true ∧ batchCommand i fn f s = raiseError .aborted (some s.progress) s) ∨
    (s.abrt = false ∧ s.cursor = s.count.toNat ∧ s.vphase = true ∧
      batchCommand i fn f s = { s with vphase := false, cursor := 0 }) ∨
    (s.abrt = false ∧ s.cursor = s.count.toNat ∧ s.vphase = false ∧
      batchCommand i fn f s = finish s) ∨
    (s.abrt = false ∧ s.cursor ≠ s.count.toNat ∧ s.vphase = true ∧
      batchCommand i fn f s = validateStep fn f s.cursor s) ∨
    (s.abrt = false ∧ s.cursor ≠ s.count.toNat ∧ s.vphase = false ∧
      batchCommand i fn f s = writeStep fn f s.cursor s) := by
  unfold batchCommand engineStep batchStep
  cases s.abrt <;> cases s.vphase <;> by_cases hc : s.cursor = s.count.toNat <;> simp [h, hc]

/-- Everything an ENGINE step of a scalar command can do (R72, R80). -/
theorem scalarCommand_busy_cases (i : Instr) (fn : Func) (f : Bool) (s : State) (h : s.busy = true) :
    (s.abrt = true ∧ scalarCommand i fn f s = raiseError .aborted (some s.progress) s) ∨
    (s.abrt = false ∧
      let r := elem fn f (scalarOperand fn s)
      ((r.st = .ok ∧ scalarCommand i fn f s = finish (putResults fn r.outs s)) ∨
       (r.st ≠ .ok ∧ scalarCommand i fn f s = raiseError r.st none (putResults fn r.outs s)))) := by
  unfold scalarCommand engineStep scalarComplete
  cases s.abrt with
  | true => exact Or.inl ⟨rfl, by simp [h]⟩
  | false =>
    refine Or.inr ⟨rfl, ?_⟩
    by_cases hst : (elem fn f (scalarOperand fn s)).st = .ok
    · exact Or.inl ⟨hst, by simp [h, hst]⟩
    · exact Or.inr ⟨hst, by simp [h, hst]⟩

end Sys2Proof.Machine
end

