-- ==== Sys2Proof/Laws/PerInstr.lean ====
section
/-! SUPPORT. Facts that hold of every instruction, one lemma per constructor: the encoder gives a legal command
word (R66) and fills no reserved bit (R59), and the fields it is made of pass every check of WellFormed.lean. -/

namespace Sys2Proof.Laws

/-- The word of a command is legal, stays within bits [9:0], and its fields are well formed. -/
def EncodeLegal.Statement (i : Instr) : Prop :=
  legal (encode i) ∧ (encode i).toNat < 2 ^ 10 ∧ i.fields.wellFormed = true

theorem EncodeLegal.menc : EncodeLegal.Statement .menc := by
  unfold EncodeLegal.Statement legal
  decide

theorem EncodeLegal.mdec : EncodeLegal.Statement .mdec := by
  unfold EncodeLegal.Statement legal
  decide

theorem EncodeLegal.henc : EncodeLegal.Statement .henc := by
  unfold EncodeLegal.Statement legal
  decide

theorem EncodeLegal.hdec : EncodeLegal.Statement .hdec := by
  unfold EncodeLegal.Statement legal
  decide

theorem EncodeLegal.m2h : EncodeLegal.Statement .m2h := by
  unfold EncodeLegal.Statement legal
  decide

theorem EncodeLegal.h2m : EncodeLegal.Statement .h2m := by
  unfold EncodeLegal.Statement legal
  decide

theorem EncodeLegal.pchk : EncodeLegal.Statement .pchk := by
  unfold EncodeLegal.Statement legal
  decide

theorem EncodeLegal.nbrc (f : Bool) : EncodeLegal.Statement (.nbrc f) := by
  unfold EncodeLegal.Statement legal
  cases f <;> decide

theorem EncodeLegal.nbrm (f : Bool) : EncodeLegal.Statement (.nbrm f) := by
  unfold EncodeLegal.Statement legal
  cases f <;> decide

theorem EncodeLegal.nbrh (f : Bool) : EncodeLegal.Statement (.nbrh f) := by
  unfold EncodeLegal.Statement legal
  cases f <;> decide

theorem EncodeLegal.bmenc (a : Bool) : EncodeLegal.Statement (.bmenc a) := by
  unfold EncodeLegal.Statement legal
  cases a <;> decide

theorem EncodeLegal.bmdec (a : Bool) : EncodeLegal.Statement (.bmdec a) := by
  unfold EncodeLegal.Statement legal
  cases a <;> decide

theorem EncodeLegal.bhenc (a : Bool) : EncodeLegal.Statement (.bhenc a) := by
  unfold EncodeLegal.Statement legal
  cases a <;> decide

theorem EncodeLegal.bhdec (a : Bool) : EncodeLegal.Statement (.bhdec a) := by
  unfold EncodeLegal.Statement legal
  cases a <;> decide

theorem EncodeLegal.bm2h (a : Bool) : EncodeLegal.Statement (.bm2h a) := by
  unfold EncodeLegal.Statement legal
  cases a <;> decide

theorem EncodeLegal.bh2m (a : Bool) : EncodeLegal.Statement (.bh2m a) := by
  unfold EncodeLegal.Statement legal
  cases a <;> decide

theorem EncodeLegal.bpchk (a : Bool) : EncodeLegal.Statement (.bpchk a) := by
  unfold EncodeLegal.Statement legal
  cases a <;> decide

theorem EncodeLegal.bnbrc (f a : Bool) : EncodeLegal.Statement (.bnbrc f a) := by
  unfold EncodeLegal.Statement legal
  cases f <;> cases a <;> decide

theorem EncodeLegal.bnbrm (f a : Bool) : EncodeLegal.Statement (.bnbrm f a) := by
  unfold EncodeLegal.Statement legal
  cases f <;> cases a <;> decide

theorem EncodeLegal.bnbrh (f a : Bool) : EncodeLegal.Statement (.bnbrh f a) := by
  unfold EncodeLegal.Statement legal
  cases f <;> cases a <;> decide

theorem EncodeLegal.abort : EncodeLegal.Statement .abort := by
  unfold EncodeLegal.Statement legal
  decide

end Sys2Proof.Laws
end

