-- ==== Sys2Proof/Laws/Step.lean ====
section
/-! SUPPORT. What one step does for each kind of move, said once (R71, R72): which move is next, HOST's
well-formed accesses to the window, ENGINE's turn, and the moves around the block. -/

namespace Sys2Proof.Machine

/-! ### The next move (R8c) -/

theorem nextMove_placed {s : State} {e : Event} {rest : List Event} (h : s.sched = e :: rest) :
    nextMove s = e := by
  simp only [nextMove, nextMoveOf, h]

theorem nextMove_schedule {s : State} (h : s.sched = []) : nextMove s = Config.schedule s.turn := by
  simp only [nextMove, nextMoveOf, h]

/-- The whole of one step. -/
theorem step_eq (s : State) : step s = runEvent (nextMove s) (takeMove s) := rfl

theorem step_engine {s : State} (h : nextMove s = .engine) : step s = engineTurn (takeMove s) := by
  rw [step_eq, h, runEvent]

theorem step_reset {s : State} (h : nextMove s = .reset) : step s = .next (resetBlock (takeMove s)) := by
  rw [step_eq, h, runEvent]

theorem step_memStore {s : State} {word : BitVec 61} {lanes : List (Fin 8 × Byte)}
    (h : nextMove s = .memStore word lanes) :
    step s = .next { takeMove s with mem := storeLanes s.mem word lanes } := by
  rw [step_eq, h, runEvent]
  rfl

/-- Which command is in progress does not depend on the coming moves. -/
@[simp] theorem acceptedCommand_takeMove (s : State) : acceptedCommand (takeMove s) = acceptedCommand s := rfl

/-! ### HOST's accesses -/

/-- HOST writes a register by an 8-byte access (R39, R71, R73). -/
theorem step_write {s : State} {off : Nat} {lanes : List Byte}
    (hb : s.platform.base.toNat % 0x100 = 0) (ho : off < 0x100) (h8 : off % 8 = 0) (hl : lanes.length = 8)
    (h : nextMove s = .host (.write (s.platform.base + BitVec.ofNat 64 off) lanes)) :
    step s =
      if regAt off = .cmd then cmdWrite (wordOfBytes lanes) { takeMove s with port := .written }
      else .next (writeReg (regAt off) (wordOfBytes lanes) { takeMove s with port := .written }) := by
  rw [step_eq, h]
  simp only [runEvent, hostWrite, takeMove_platform, windowOffset_add _ _ ho, goodAccess_add _ _ _ hb, hl, h8]
  simp

/-- A read of a register does not see the coming moves. -/
theorem readReg_takeMove (r : Reg) (s : State) : readReg r (takeMove s) = readReg r s := by
  cases r <;> rfl

/-- HOST reads a register by an 8-byte access (R20, R39, R71). -/
theorem step_read {s : State} {off : Nat}
    (hb : s.platform.base.toNat % 0x100 = 0) (ho : off < 0x100) (h8 : off % 8 = 0)
    (h : nextMove s = .host (.read (s.platform.base + BitVec.ofNat 64 off) 8)) :
    step s = .next { takeMove s with port := .data (bytesOf (readReg (regAt off) s)) } := by
  rw [step_eq, h]
  simp only [runEvent, hostRead, takeMove_platform, windowOffset_add _ _ ho, goodAccess_add _ _ _ hb, h8,
    readReg_takeMove]
  simp

end Sys2Proof.Machine
end

