-- ==== Sys2Proof/Tests/Slice0.lean ====
section
/-! SUPPORT. Tests: the checks of WellFormed refuse ill-formed words, each command's word decodes to it, one
step of each command gives what the spec's own example says (the rule is named in each comment), and a
witness for the hypotheses of each obligation. -/

open Sys2Proof Sys2Proof.Machine

namespace Sys2Proof.Tests

/-! ### WellFormed (R59, R66, R67) -/

theorem test_wf_reservedBits : (fieldsOf 0x401#64).wellFormed = false := by decide

theorem test_wf_reservedBits_high : (fieldsOf 0x8000000000000001#64).wellFormed = false := by decide

theorem test_wf_func0 : (fieldsOf 0x000#64).wellFormed = false := by decide

theorem test_wf_func11 : (fieldsOf 0x00B#64).wellFormed = false := by decide

theorem test_wf_func126 : (fieldsOf 0x0FE#64).wellFormed = false := by decide

/-- FUNC = 127 in a value other than 0xFF (R67). -/
theorem test_wf_func127 : (fieldsOf 0x07F#64).wellFormed = false ∧ (fieldsOf 0x1FF#64).wellFormed = false := by
  decide

/-- F = 1 with FUNC 7 (R67). -/
theorem test_wf_f : (fieldsOf 0x107#64).wellFormed = false := by decide

/-- A = 1 with B = 0 (R67). -/
theorem test_wf_a : (fieldsOf 0x208#64).wellFormed = false := by decide

/-! ### Decoding: words written out from the table of R65 and the fields of R59 -/

theorem test_decode_menc : decode 0b0000000001#64 = .ok .menc := by decide

theorem test_decode_mdec : decode 0b0000000010#64 = .ok .mdec := by decide

theorem test_decode_henc : decode 0b0000000011#64 = .ok .henc := by decide

theorem test_decode_hdec : decode 0b0000000100#64 = .ok .hdec := by decide

theorem test_decode_m2h : decode 0b0000000101#64 = .ok .m2h := by decide

theorem test_decode_h2m : decode 0b0000000110#64 = .ok .h2m := by decide

theorem test_decode_pchk : decode 0b0000000111#64 = .ok .pchk := by decide

theorem test_decode_nbrc :
    decode 0b0000001000#64 = .ok (.nbrc false) ∧ decode 0b0100001000#64 = .ok (.nbrc true) := by decide

theorem test_decode_nbrm :
    decode 0b0000001001#64 = .ok (.nbrm false) ∧ decode 0b0100001001#64 = .ok (.nbrm true) := by decide

theorem test_decode_nbrh :
    decode 0b0000001010#64 = .ok (.nbrh false) ∧ decode 0b0100001010#64 = .ok (.nbrh true) := by decide

theorem test_decode_bmenc :
    decode 0b0010000001#64 = .ok (.bmenc false) ∧ decode 0b1010000001#64 = .ok (.bmenc true) := by decide

theorem test_decode_bmdec :
    decode 0b0010000010#64 = .ok (.bmdec false) ∧ decode 0b1010000010#64 = .ok (.bmdec true) := by decide

theorem test_decode_bhenc :
    decode 0b0010000011#64 = .ok (.bhenc false) ∧ decode 0b1010000011#64 = .ok (.bhenc true) := by decide

theorem test_decode_bhdec :
    decode 0b0010000100#64 = .ok (.bhdec false) ∧ decode 0b1010000100#64 = .ok (.bhdec true) := by decide

theorem test_decode_bm2h :
    decode 0b0010000101#64 = .ok (.bm2h false) ∧ decode 0b1010000101#64 = .ok (.bm2h true) := by decide

theorem test_decode_bh2m :
    decode 0b0010000110#64 = .ok (.bh2m false) ∧ decode 0b1010000110#64 = .ok (.bh2m true) := by decide

theorem test_decode_bpchk :
    decode 0b0010000111#64 = .ok (.bpchk false) ∧ decode 0b1010000111#64 = .ok (.bpchk true) := by decide

theorem test_decode_bnbrc :
    decode 0b0010001000#64 = .ok (.bnbrc false false) ∧ decode 0b1010001000#64 = .ok (.bnbrc false true) ∧
    decode 0b0110001000#64 = .ok (.bnbrc true false) ∧ decode 0b1110001000#64 = .ok (.bnbrc true true) := by decide

theorem test_decode_bnbrm :
    decode 0b0010001001#64 = .ok (.bnbrm false false) ∧ decode 0b1010001001#64 = .ok (.bnbrm false true) ∧
    decode 0b0110001001#64 = .ok (.bnbrm true false) ∧ decode 0b1110001001#64 = .ok (.bnbrm true true) := by decide

theorem test_decode_bnbrh :
    decode 0b0010001010#64 = .ok (.bnbrh false false) ∧ decode 0b1010001010#64 = .ok (.bnbrh false true) ∧
    decode 0b0110001010#64 = .ok (.bnbrh true false) ∧ decode 0b1110001010#64 = .ok (.bnbrh true true) := by decide

theorem test_decode_abort : decode 0b0011111111#64 = .ok .abort := by decide

theorem test_decodeTableWord : decodeTableWord 64 0x389 = some (.bnbrm true true) ∧ decodeTableWord 64 0 = none := by
  decide

/-! ### Helpers -/

/-- The next state of an outcome, or the state reset gives when there is none. -/
def nextOf : Host.Outcome State Fault Refusal → State
  | .next s => s
  | _ => State.reset

/-- A scalar command in progress with the given operands. -/
def scalarAt (coord key : Word) : State := { State.reset with busy := true, coordIn := coord, keyIn := key }

/-- A memory that holds one word at 0x1000. -/
def oneWord (w : Word) : List Host.Cell := writeWord [] 0x1000#64 w

/-- A batch command of one element in its write pass, from 0x1000 to 0x2000, as in the examples of R120 to R129. -/
def batchAt (w : Word) : State :=
  { State.reset with
    busy := true, srcAddr := 0x1000#64, dstAddr := 0x2000#64, count := 1#32, mem := oneWord w }

/-- What a scalar command leaves in RESULT, ERR and DONE. -/
def resultOf (i : Instr) (s : State) : Word × Err × Bool :=
  let t := nextOf (exec i s)
  (t.result, t.err, t.done && !t.busy)

/-- What a neighbor command leaves in NBR_MASK, NBR0, NBR7, NBR8, NBR13 and ERR. -/
def neighborsOf (i : Instr) (s : State) : BitVec 14 × Word × Word × Word × Word × Err :=
  let t := nextOf (exec i s)
  (t.nbrMask, t.nbr[0], t.nbr[7], t.nbr[8], t.nbr[13], t.err)

/-- The word a batch step leaves at 0x2000 + 8j, and PROGRESS. -/
def stored (i : Instr) (s : State) (j : Nat) : Word × BitVec 32 :=
  let t := nextOf (exec i s)
  (readWord t.mem (0x2000#64 + BitVec.ofNat 64 (8 * j)), t.progress)

/-! ### One step of each command -/

/-- R87, example. -/
theorem test_menc : resultOf .menc (scalarAt 0x0000040003000200#64 0#64) = (0x000000011A000000#64, .ok, true) := by
  decide

/-- R87, corner case (65535, 0, 0); the bits above 47 of COORD_IN are ignored. -/
theorem test_menc_axis : resultOf .menc (scalarAt 0xFFFF00000000FFFF#64 0#64) = (0x0000249249249249#64, .ok, true) := by
  decide

/-- R88, example. -/
theorem test_mdec : resultOf .mdec (scalarAt 0#64 0x00011A000000#64) = (0x0000040003000200#64, .ok, true) := by
  decide

/-- R88, corner case: the bits above 47 of KEY_IN are ignored. -/
theorem test_mdec_high : resultOf .mdec (scalarAt 0#64 0xFFFF800000000000#64) = (0x0000800000000000#64, .ok, true) := by
  decide

/-- R94, example. -/
theorem test_henc : resultOf .henc (scalarAt 0x0000000700050003#64 0#64) = (0x197#64, .ok, true) := by decide +kernel

/-- R94, corner case (65535, 65535, 65535). -/
theorem test_henc_corner :
    resultOf .henc (scalarAt 0x0000FFFFFFFFFFFF#64 0#64) = (0xACB2CB2CB2CB#64, .ok, true) := by decide +kernel

/-- R95, example. -/
theorem test_hdec : resultOf .hdec (scalarAt 0#64 0x197#64) = (0x0000000700050003#64, .ok, true) := by decide

/-- R96, example. -/
theorem test_m2h : resultOf .m2h (scalarAt 0#64 0x00011A000000#64) = (0x00000001D59A69A6#64, .ok, true) := by
  decide +kernel

/-- R97, example. -/
theorem test_h2m : resultOf .h2m (scalarAt 0#64 0x0001D59A69A6#64) = (0x000000011A000000#64, .ok, true) := by
  decide

/-- R100, example: (1, 0, 0) fails. -/
theorem test_pchk_odd :
    resultOf .pchk (scalarAt 0x1#64 0#64) = (0x0200000000000000#64, .parityViolation, true) := by decide

/-- R100, example: (2, 0, 0) succeeds. -/
theorem test_pchk_even : resultOf .pchk (scalarAt 0x2#64 0#64) = (0x1#64, .ok, true) := by decide

/-- R109, example. -/
theorem test_nbrc : neighborsOf (.nbrc false) (scalarAt 0x0000001E0014000A#64 0#64) =
    (0x3FFF#14, 0x0000001F0015000B#64, 0x0000001D00130009#64, 0x0000001E0014000C#64, 0x0000001C0014000A#64, .ok) := by
  decide

/-- R103, R104: F = 1 at the origin fails the whole call. -/
theorem test_nbrc_f : neighborsOf (.nbrc true) (scalarAt 0#64 0#64) =
    (0#14, 0x0300000000000000#64, 0x0300000000000000#64, 0x0300000000000000#64, 0x0300000000000000#64,
      .outOfRange) := by decide

/-- R110, example. -/
theorem test_nbrm : neighborsOf (.nbrm false) (scalarAt 0#64 0x00011A000000#64) =
    (0x3FFF#14, 0x00011A000007#64, 0x000035FFFFFF#64, 0x00011A000008#64, 0x00003E924920#64, .ok) := by
  decide +kernel

/-- R110, corner case: key 0xFFFF_FFFF_FFFF with F = 0. -/
theorem test_nbrm_edge :
    (nextOf (exec (.nbrm false) (scalarAt 0#64 0xFFFFFFFFFFFF#64))).nbrMask = 0x2A80#14 := by decide +kernel

/-- R111, example. -/
theorem test_nbrh : neighborsOf (.nbrh false) (scalarAt 0#64 0x0001D59A69A6#64) =
    (0x3FFF#14, 0x0001D59A69A3#64, 0x000016659659#64, 0x0001D59A69BE#64, 0x00002A659658#64, .ok) := by
  decide +kernel

/-- R120, example, element (3, 5, 7). -/
theorem test_bmenc : stored (.bmenc false) (batchAt 0x0000000700050003#64) 0 = (0x1AF#64, 1#32) := by decide +kernel

/-- R121, example. -/
theorem test_bmdec : stored (.bmdec false) (batchAt 0xFFFF000000000007#64) 0 = (0x0000000100010001#64, 1#32) := by
  decide

/-- R122, example. -/
theorem test_bhenc : stored (.bhenc false) (batchAt 0x1#64) 0 = (0x7#64, 1#32) := by decide +kernel

/-- R123, example. -/
theorem test_bhdec : stored (.bhdec true) (batchAt 0xFFFFFFFFFFFF#64) 0 = (0xFFFF#64, 1#32) := by decide

/-- R124, example. -/
theorem test_bm2h : stored (.bm2h false) (batchAt 0x800000000000#64) 0 = (0x6A69A69A69A6#64, 1#32) := by
  decide +kernel

/-- R125, example. -/
theorem test_bh2m : stored (.bh2m false) (batchAt 0x123456789ABC#64) 0 = (0x0F11F34E14D0#64, 1#32) := by
  decide +kernel

/-- R126, example: an odd element is written with its mark and counted. -/
theorem test_bpchk : stored (.bpchk false) (batchAt 0x1#64) 0 = (0x0200000000000000#64, 1#32) ∧
    (nextOf (exec (.bpchk false) (batchAt 0x1#64))).failCount = 1#32 ∧
    (nextOf (exec (.bpchk false) (batchAt 0x1#64))).err = .parityViolation ∧
    (nextOf (exec (.bpchk false) (batchAt 0x1#64))).busy = true := by decide

/-- R126, example (A = 1): in the validation pass the odd element rejects the batch, and nothing is written. -/
theorem test_bpchk_a :
    let t := nextOf (exec (.bpchk true) { batchAt 0x1#64 with vphase := true })
    t.mem = oneWord 0x1#64 ∧ t.failCount = 1#32 ∧ t.progress = 0#32 ∧ t.err = .parityViolation ∧
      t.busy = false ∧ t.done = true := by decide

/-- R127, example: the last word of element (4, 4, 4). -/
theorem test_bnbrc : stored (.bnbrc true false) (batchAt 0x0000000400040004#64) 13 = (0x0000000200040004#64, 1#32) := by
  decide

/-- R128, example: words of element 0. -/
theorem test_bnbrm : stored (.bnbrm false false) (batchAt 0#64) 10 = (0x10#64, 1#32) ∧
    stored (.bnbrm false false) (batchAt 0#64) 13 = (0x0300000000000000#64, 1#32) := by decide +kernel

/-- R129, example: words of element 0. -/
theorem test_bnbrh : stored (.bnbrh false false) (batchAt 0#64) 12 = (0x3C#64, 1#32) := by decide +kernel

/-- R82: ABORT sets the pending abort; the next step of ENGINE ends the batch with ABORTED. -/
theorem test_abort :
    let t := nextOf (exec (.bmenc false) (nextOf (exec .abort { batchAt 0x1#64 with progress := 4#32, cursor := 4, count := 10#32 })))
    t.err = .aborted ∧ t.errIndex = 4#32 ∧ t.busy = false ∧ t.done = true ∧ t.mem = oneWord 0x1#64 := by
  decide

/-- Entry 5: the write withFetchWord places is the next step, and it is that of the command. -/
theorem test_fetch :
    (nextOf (step (State.reset.withFetchWord 64 0x001))).busy = true ∧
      (nextOf (step (State.reset.withFetchWord 64 0x001))).lastCmd = 0x001#10 := by decide

/-- R43, R52: a two-byte store to a word of memory, little-endian. -/
theorem test_memStore :
    readWord (storeLanes (oneWord 0x1122334455667788#64) ((0x1000#64).extractLsb' 3 61) [(2, 0xBB), (3, 0xAA)])
      0x1000#64 = 0x11223344AABB7788#64 := by decide

/-- R52: after the first element is written, a racing read gives the word of before or the new one, as it chooses. -/
theorem test_memLoad :
    let s := nextOf (exec (.bmenc false) { batchAt 0x7#64 with lastCmd := 0x081#10, count := 2#32 })
    let lanes : List (Fin 8) := [0, 1]
    (nextOf (runEvent (.memLoad ((0x2000#64).extractLsb' 3 61) lanes false) s)).port = .data [0x49, 0] ∧
      (nextOf (runEvent (.memLoad ((0x2000#64).extractLsb' 3 61) lanes true) s)).port = .data [0, 0] := by
  decide +kernel

/-! ### Witnesses: a state and operands that meet the hypotheses of each obligation that has some -/

/-- A platform with the window at 0x4000_0000 that refuses reads of 0x1008 and writes of 0x2068. -/
def plat : Platform :=
  { base := 0x40000000#64, refused := [⟨.read, 0x1008, 0x1010⟩, ⟨.write, 0x2068, 0x2070⟩] }

/-- An idle block; HOST's next access is the write of `v` at an offset of the window. -/
def hostWrites (off v : Word) : State :=
  { State.reset with platform := plat, sched := [.host (.write (plat.base + off) (bytesOf v)), .engine] }

/-- BMENC or BPCHK (as `cmd` says) of two elements running in its write pass, the first of them still to come. -/
def batchRunning (cmd : BitVec 10) (sched : List Event) : State :=
  { batchAt 0x1#64 with count := 2#32, lastCmd := cmd, platform := { plat with refused := [] }, sched := sched }

/-- BPCHK.A of two elements running in its validation pass. -/
def validating (sched : List Event) : State :=
  { batchRunning 0x287#10 sched with vphase := true }

/-- MENC running on (1, 0, 0). -/
def scalarRunning (sched : List Event) : State :=
  { scalarAt 0x1#64 0#64 with lastCmd := 0x001#10, platform := plat, sched := sched }

/-- A command for an idle block, and ABORT for a busy one. -/
theorem witness_StepRunsTheCommandWritten :
    let s := hostWrites 0x18#64 0x108#64
    let t : State := { hostWrites 0x18#64 0xFF#64 with busy := true }
    s.platform.base.toNat % 0x100 = 0 ∧ s.busy = false ∧ decode 0x108#64 = .ok (.nbrc true) ∧
      nextMove s = .host (.write (s.platform.base + 0x18#64) (bytesOf 0x108#64)) ∧
      t.platform.base.toNat % 0x100 = 0 ∧ t.busy = true ∧ decode 0xFF#64 = .ok .abort ∧
      nextMove t = .host (.write (t.platform.base + 0x18#64) (bytesOf 0xFF#64)) := by decide

theorem witness_EngineStepRunsTheAcceptedCommand :
    (scalarRunning [.engine]).busy = true ∧ Instr.menc ≠ .abort ∧
      decode ((scalarRunning [.engine]).lastCmd.setWidth 64) = .ok .menc ∧
      nextMove (scalarRunning [.engine]) = .engine := by decide

theorem witness_EngineIsIdleWhenNotBusy :
    State.reset.busy = false ∧ nextMove { State.reset with sched := [.engine] } = .engine := by decide

theorem witness_ScalarCommandsAreAccepted :
    scalarForm (.nbrh true) = some (.nbrh, true) ∧ (hostWrites 0x18#64 0x10A#64).busy = false := by decide

/-- The last three: the ranges [2^64 − 8, 2^64) and one element more; and the output range that begins at the
input's last word and the one that begins after it. -/
theorem witness_BatchCommandsAreCheckedThenAccepted :
    batchForm (.bmenc true) = some (.menc, false, true) ∧ State.reset.busy = false ∧
      batchCheck .menc { batchAt 0#64 with srcAddr := 0x1004#64 } = some .misaligned ∧
      batchCheck .menc { batchAt 0#64 with srcAddr := 0xFFFFFFFFFFFFFFF8#64 } = none ∧
      batchCheck .menc { batchAt 0#64 with srcAddr := 0xFFFFFFFFFFFFFFF8#64, count := 2#32 } = some .addrRange ∧
      batchCheck .menc { batchAt 0#64 with dstAddr := 0x1008#64, count := 2#32 } = some .overlap ∧
      batchCheck .menc { batchAt 0#64 with dstAddr := 0x1010#64, count := 2#32 } = none := by decide

theorem witness_IllegalValuesAreRejected :
    (hostWrites 0x18#64 0x7F#64).platform.base.toNat % 0x100 = 0 ∧ (hostWrites 0x18#64 0x7F#64).busy = false ∧
      ¬ legal 0x7F#64 ∧
      nextMove (hostWrites 0x18#64 0x7F#64) =
        .host (.write ((hostWrites 0x18#64 0x7F#64).platform.base + 0x18#64) (bytesOf 0x7F#64)) := by
  unfold legal; decide

theorem witness_CommandsWrittenWhileBusyAreLost :
    let s : State := { hostWrites 0x18#64 0x1#64 with busy := true }
    s.platform.base.toNat % 0x100 = 0 ∧ s.busy = true ∧ (0x1#64 : Word) ≠ 0xFF#64 ∧
      nextMove s = .host (.write (s.platform.base + 0x18#64) (bytesOf 0x1#64)) := by decide

theorem witness_AbortSetsThePendingAbort : (scalarRunning []).busy = true ∧ State.reset.busy = false := by decide

theorem witness_PendingAbortEndsEveryCommand :
    let s : State := { batchRunning 0x081#10 [] with abrt := true }
    Instr.bmenc false ≠ .abort ∧ s.busy = true ∧ s.abrt = true := by decide

theorem witness_DecodeAndEncodeAgree : decode 0x1#64 = .ok .menc ∧ decode 0x38A#64 = .ok (.bnbrh true true) := by
  decide

theorem witness_MencInterleavesTheCoordinates :
    (scalarRunning []).busy = true ∧ (scalarRunning []).abrt = false := by decide

theorem witness_MdecDeinterleavesTheKey :
    (scalarAt 0#64 0xFFFF800000000001#64).busy = true ∧ (scalarAt 0#64 0xFFFF800000000001#64).abrt = false := by
  decide

theorem witness_HilbertCommandsFollowTheLoops :
    (scalarAt 0xFFFFFFFFFFFFFFFF#64 0x197#64).busy = true ∧
      (scalarAt 0xFFFFFFFFFFFFFFFF#64 0x197#64).abrt = false := by decide

/-- An odd triple, and the even triple (65535, 65535, 0). -/
theorem witness_PchkReportsTheParityOfTheSum :
    (scalarAt 0x1#64 0#64).busy = true ∧ (scalarAt 0x1#64 0#64).abrt = false ∧
      evenCell (cwCell 0x1#64) = false ∧
      (scalarAt 0x0000FFFFFFFF#64 0#64).busy = true ∧ (scalarAt 0x0000FFFFFFFF#64 0#64).abrt = false ∧
      evenCell (cwCell 0x0000FFFFFFFF#64) = true := by decide

/-- One cell with all slots in range and one that F = 1 fails. -/
theorem witness_NeighborCommandsGiveTheFourteenNeighbors :
    (scalarAt 0x000200020002#64 0#64).busy = true ∧ (scalarAt 0x000200020002#64 0#64).abrt = false ∧
      (neighbors (cwCell 0x000200020002#64) true fun p => mkCW p .ok).st = .ok ∧
      (neighbors (cwCell 0x000200010002#64) true fun p => mkCW p .ok).st = .outOfRange := by decide

theorem witness_ScalarCommandsFinishInOneEngineStep :
    scalarForm .pchk = some (.pchk, false) ∧ State.reset.busy = false ∧ Func.isNeighbor .pchk = false ∧
      scalarForm (.nbrm true) = some (.nbrm, true) ∧ Func.isNeighbor .nbrm = true := by decide

theorem witness_BatchPassesEnd :
    let s : State := { batchRunning 0x081#10 [] with cursor := 2 }
    let v : State := { validating [] with cursor := 2 }
    batchForm (.bmenc false) = some (.menc, false, false) ∧ s.busy = true ∧ s.abrt = false ∧
      s.cursor = s.count.toNat ∧ s.vphase = false ∧
      batchForm (.bpchk true) = some (.pchk, false, true) ∧ v.busy = true ∧ v.abrt = false ∧
      v.cursor = v.count.toNat ∧ v.vphase = true := by decide

/-- Element 0 is odd, element 1 even. -/
theorem witness_BatchValidationStepReadsOneElement :
    let s := validating []
    let t : State := { validating [] with cursor := 1 }
    batchForm (.bpchk true) = some (.pchk, false, true) ∧ s.busy = true ∧ s.abrt = false ∧ s.vphase = true ∧
      s.cursor ≠ s.count.toNat ∧ admits s.platform .read (s.srcAddr + BitVec.ofNat 64 (8 * s.cursor)) = true ∧
      (elem .pchk false (inputWord s 0)).st ≠ .ok ∧
      t.cursor ≠ t.count.toNat ∧ admits t.platform .read (t.srcAddr + BitVec.ofNat 64 (8 * t.cursor)) = true ∧
      (elem .pchk false (inputWord t 1)).st = .ok := by decide

theorem witness_RefusedReadEndsTheBatch :
    let s : State := { batchRunning 0x081#10 [] with platform := plat, cursor := 1 }
    batchForm (.bmenc false) = some (.menc, false, false) ∧ s.busy = true ∧ s.abrt = false ∧
      s.cursor ≠ s.count.toNat ∧
      admits s.platform .read (s.srcAddr + BitVec.ofNat 64 (8 * s.cursor)) = false := by decide

theorem witness_BatchWriteStepStoresOneWord :
    let s := batchRunning 0x087#10 []
    batchForm (.bpchk false) = some (.pchk, false, false) ∧ Func.isNeighbor .pchk = false ∧
      Memory.wf s.mem = true ∧ s.busy = true ∧ s.abrt = false ∧ s.vphase = false ∧ s.cursor ≠ s.count.toNat ∧
      admits s.platform .read (s.srcAddr + BitVec.ofNat 64 (8 * s.cursor)) = true ∧
      admits s.platform .write (s.dstAddr + BitVec.ofNat 64 (8 * s.cursor)) = true := by decide

theorem witness_BatchWriteStepStoresFourteenWords :
    let s := batchRunning 0x188#10 []
    batchForm (.bnbrc true false) = some (.nbrc, true, false) ∧ Func.isNeighbor .nbrc = true ∧
      Memory.wf s.mem = true ∧ s.dstAddr.toNat % 8 = 0 ∧ s.busy = true ∧ s.abrt = false ∧ s.vphase = false ∧
      s.cursor ≠ s.count.toNat ∧
      admits s.platform .read (s.srcAddr + BitVec.ofNat 64 (8 * s.cursor)) = true ∧
      ∀ j, j < 14 → admits s.platform .write (s.dstAddr + BitVec.ofNat 64 (112 * s.cursor + 8 * j)) = true := by
  decide

/-- Word 13 of an element of 14 words, and word 0 of an element of one word. -/
theorem witness_RefusedWriteKeepsTheWordsBefore :
    let s : State := { batchRunning 0x188#10 [] with platform := plat }
    let t : State := { batchRunning 0x081#10 [] with platform := plat, dstAddr := 0x2068#64 }
    batchForm (.bnbrc true false) = some (.nbrc, true, false) ∧ Memory.wf s.mem = true ∧
      s.dstAddr.toNat % 8 = 0 ∧ s.busy = true ∧ s.abrt = false ∧ s.vphase = false ∧ s.cursor ≠ s.count.toNat ∧
      admits s.platform .read (s.srcAddr + BitVec.ofNat 64 (8 * s.cursor)) = true ∧
      (∀ l, l < 13 → admits s.platform .write (s.dstAddr + BitVec.ofNat 64 (112 * s.cursor + 8 * l)) = true) ∧
      admits s.platform .write (s.dstAddr + BitVec.ofNat 64 (112 * s.cursor + 8 * 13)) = false ∧
      t.dstAddr.toNat % 8 = 0 ∧
      admits t.platform .read (t.srcAddr + BitVec.ofNat 64 (8 * t.cursor)) = true ∧
      admits t.platform .write (t.dstAddr + BitVec.ofNat 64 (8 * t.cursor + 8 * 0)) = false := by decide

/-- The same block, idle, before the command: two elements, the first odd. -/
def beforeBatch (first second : Word) : State :=
  { batchAt first with busy := false, count := 2#32, mem := writeWord (oneWord first) 0x1008#64 second }

theorem beforeBatch_admitted (first second : Word) (fn : Func) : platformAdmits fn (beforeBatch first second) :=
  ⟨fun _ _ => rfl, fun _ _ _ _ => rfl⟩

/-- Element 0 fails, element 1 does not. -/
theorem witness_BatchEqualsScalarElementForElement :
    let s := beforeBatch 0x1#64 0x2#64
    (batchForm (.bpchk false) = some (.pchk, false, false) ∧ s.busy = false ∧ Memory.wf s.mem = true) ∧
      batchAccepted .pchk s ∧ platformAdmits .pchk s ∧ (elem .pchk false (inputWord s 0)).st ≠ .ok ∧
      (elem .pchk false (inputWord s 1)).st = .ok := by
  refine ⟨by decide, ?_, beforeBatch_admitted _ _ _, by decide, by decide⟩
  unfold batchAccepted; decide

/-- The first invalid element is element 1. -/
theorem witness_InvalidElementRejectsTheWholeBatch :
    let s := beforeBatch 0x2#64 0x1#64
    batchForm (.bpchk true) = some (.pchk, false, true) ∧ s.busy = false ∧ batchAccepted .pchk s ∧
      1 < s.count.toNat ∧ (∀ n, n ≤ 1 → admits s.platform .read (inAddr s n) = true) ∧
      (∀ n, n < 1 → (elem .pchk false (inputWord s n)).st = .ok) ∧
      (elem .pchk false (inputWord s 1)).st ≠ .ok := by
  refine ⟨rfl, rfl, ?_, by decide, fun _ _ => rfl, by decide, by decide⟩
  unfold batchAccepted; decide

theorem witness_ValidBatchIsIndifferentToThePolicy :
    let s := beforeBatch 0x2#64 0x10001#64
    batchForm (.bpchk true) = some (.pchk, false, true) ∧ batchForm (.bpchk false) = some (.pchk, false, false) ∧
      s.busy = false ∧ batchAccepted .pchk s ∧ platformAdmits .pchk s ∧
      ∀ n, n < s.count.toNat → (elem .pchk false (inputWord s n)).st = .ok := by
  refine ⟨rfl, rfl, rfl, ?_, beforeBatch_admitted _ _ _, by decide⟩
  unfold batchAccepted; decide

theorem witness_MortonRoundTripsAndIsMonotone : (0#16 : Coord).toNat < (0xFFFF#16 : Coord).toNat := by decide

/-- The second key is the last one that has a successor. -/
theorem witness_HilbertCurveIsContinuous :
    (0#48 : Key).toNat < 2 ^ 48 - 1 ∧ (0xFFFFFFFFFFFE#48 : Key).toNat < 2 ^ 48 - 1 := by decide

/-- At the boundary levels 0 and 16, and at level 1, with both sides of the equivalence true. -/
theorem witness_HilbertKeysNest : (0 : Nat) ≤ 16 ∧ (16 : Nat) ≤ 16 ∧
    (0x197#48 : Key).toNat / 2 ^ (3 * 1) = (0x190#48 : Key).toNat / 2 ^ (3 * 1) ∧
    (hilbertDec 0x197#48).x.toNat / 2 ^ 1 = (hilbertDec 0x190#48).x.toNat / 2 ^ 1 := by decide

theorem witness_KeyConversionsAreInverse :
    (scalarAt 0#64 0xFFFF00011A000000#64).busy = true ∧ (scalarAt 0#64 0xFFFF00011A000000#64).abrt = false := by
  decide

theorem witness_ParityOfSignedCoordinates :
    (-32768 : Int) ≤ -32768 ∧ (-32768 : Int) ≤ 32767 ∧ (-32768 : Int) ≤ 32767 ∧ (32767 : Int) ≤ 32767 := by decide

/-- A slot of each kind, at the edge of the domain. -/
theorem witness_NeighborParityAndDistance :
    slotHolds ⟨1, 1, 1⟩ 7 ⟨0, 0, 0⟩ ∧ slotHolds ⟨0, 0, 65533⟩ 12 ⟨0, 0, 65535⟩ :=
  ⟨⟨_, rfl, by decide⟩, ⟨_, rfl, by decide⟩⟩

theorem witness_NeighborsAreDistinct :
    slotHolds ⟨2, 2, 2⟩ 7 ⟨1, 1, 1⟩ ∧ slotHolds ⟨2, 2, 2⟩ 8 ⟨4, 2, 2⟩ ∧ (7 : Nat) ≠ 8 :=
  ⟨⟨_, rfl, by decide⟩, ⟨_, rfl, by decide⟩, by decide⟩

theorem witness_NeighborsAreSymmetric :
    slotHolds ⟨1, 1, 1⟩ 0 ⟨2, 2, 2⟩ ∧ slotHolds ⟨2, 0, 0⟩ 9 ⟨0, 0, 0⟩ :=
  ⟨⟨_, rfl, by decide⟩, ⟨_, rfl, by decide⟩⟩

theorem witness_NeighborsDoNotDependOnTheKeyFormat : (0 : Nat) < 14 ∧ (13 : Nat) < 14 ∧
    wordStatus ((elem .nbrm false 0x7#64).outs.getD 0 0#64) = 0#4 := by decide

theorem witness_ReadsReturnTheRegisters :
    let s : State := { hostWrites 0#64 0#64 with
      sched := [.host (.read (plat.base + BitVec.ofNat 64 0x0F8) 8)], nbr := Vector.replicate 14 7#64 }
    s.platform.base.toNat % 0x100 = 0 ∧ (0x0F8, 0#64) ∈ windowReads s ∧ (0x0E8, 7#64) ∈ windowReads s ∧
      (0x000, 0x000000013358494F#64) ∈ windowReads s ∧
      nextMove s = .host (.read (s.platform.base + BitVec.ofNat 64 0x0F8) 8) := by decide

theorem witness_ReadOnlyWritesAreIgnored :
    let s := hostWrites (BitVec.ofNat 64 0x0F8) 0xFF#64
    s.platform.base.toNat % 0x100 = 0 ∧ 0x0F8 < 0x100 ∧ 0x0F8 % 8 = 0 ∧
      0x0F8 ∉ [0x008, 0x010, 0x018, 0x020, 0x028, 0x040, 0x048, 0x050] ∧
      0x000 ∉ [0x008, 0x010, 0x018, 0x020, 0x028, 0x040, 0x048, 0x050] ∧
      nextMove s = .host (.write (s.platform.base + BitVec.ofNat 64 0x0F8) (bytesOf 0xFF#64)) := by
  decide

/-- Idle, and busy. -/
theorem witness_OperandWrites :
    let s := hostWrites (BitVec.ofNat 64 0x050) 0xFFFFFFFFFFFFFFFF#64
    let t : State := { s with busy := true }
    s.platform.base.toNat % 0x100 = 0 ∧ 0x050 ∈ [0x020, 0x028, 0x040, 0x048, 0x050] ∧ s.busy = false ∧
      nextMove s = .host (.write (s.platform.base + BitVec.ofNat 64 0x050) (bytesOf 0xFFFFFFFFFFFFFFFF#64)) ∧
      t.busy = true ∧ nextMove t = nextMove s := by decide

theorem witness_ControlAndStatusWrites :
    let s := hostWrites 0x008#64 0x1#64
    let t := hostWrites 0x010#64 0x6#64
    s.platform.base.toNat % 0x100 = 0 ∧
      nextMove s = .host (.write (s.platform.base + 0x008#64) (bytesOf 0x1#64)) ∧
      nextMove t = .host (.write (t.platform.base + 0x010#64) (bytesOf 0x6#64)) := by decide

/-- A narrow read, a misaligned 8-byte read, and a write of seven lanes. -/
theorem witness_MalformedAccessesChangeNothing :
    let s : HostAccess → State := fun a => { hostWrites 0#64 0#64 with sched := [.host a] }
    (s (.read (plat.base + BitVec.ofNat 64 0x030) 4)).platform.base.toNat % 0x100 = 0 ∧ 0x030 < 0x100 ∧ 4 ≠ 8 ∧
      nextMove (s (.read (plat.base + BitVec.ofNat 64 0x030) 4)) =
        .host (.read ((s (.read 0#64 4)).platform.base + BitVec.ofNat 64 0x030) 4) ∧
      0x0FC < 0x100 ∧ 0x0FC % 8 ≠ 0 ∧
      nextMove (s (.read (plat.base + BitVec.ofNat 64 0x0FC) 8)) =
        .host (.read ((s (.read 0#64 8)).platform.base + BitVec.ofNat 64 0x0FC) 8) ∧
      (List.replicate 7 0#8).length ≠ 8 ∧
      nextMove (s (.write (plat.base + BitVec.ofNat 64 0x018) (List.replicate 7 0#8))) =
        .host (.write ((s (.write 0#64 [])).platform.base + BitVec.ofNat 64 0x018) (List.replicate 7 0#8)) := by
  decide

/-- By ENGINE's completion, and by rejection. -/
theorem witness_CompletionsRaiseTheInterrupt :
    let s := scalarRunning []
    let r : State := { batchAt 0#64 with busy := false, srcAddr := 0x1004#64, irqEn := true }
    exec .menc s = .next (nextOf (exec .menc s)) ∧ Instr.menc ≠ .abort ∧ (nextOf (exec .menc s)).busy = false ∧
      exec (.bmenc false) r = .next (nextOf (exec (.bmenc false) r)) ∧
      (nextOf (exec (.bmenc false) r)).busy = false :=
  ⟨rfl, by decide, by decide, rfl, by decide⟩

/-- One offset for each clause. -/
theorem witness_ResetValues :
    (0x000, 0x000000013358494F#64) ∈ windowReads State.reset ∧ (0x060, 0xFFFFFFFF#64) ∈ windowReads State.reset ∧
      (0x0F8, 0#64) ∈ windowReads State.reset := by decide

theorem witness_ResetEvent : nextMove (scalarRunning [.reset, .engine]) = .reset := rfl

theorem batchRunning_inv (sched : List Event) : Inv (batchRunning 0x081#10 sched) := by
  have hac : acceptedCommand (batchRunning 0x081#10 sched) = some (.bmenc false) := by
    simp [acceptedCommand, show (batchRunning 0x081#10 sched).lastCmd = 0x081#10 from rfl,
      show decode 0x081#64 = .ok (.bmenc false) by decide]
  have hrb : runningBatch (batchRunning 0x081#10 sched) = some .menc := by simp [runningBatch, hac, batchForm]
  refine ⟨(by change Memory.wf (oneWord 0x1#64) = true; decide), rfl, (by change plat.base.toNat % 0x100 = 0; decide),
    ⟨fun h => (by cases h), fun h => (by cases h)⟩,
    (by change resultWordOk 0#64 = true; decide), ?_, ?_, fun _ => rfl,
    fun h => ?_, fun _ => ?_, fun h => ?_, fun _ fn h => ?_, fun _ _ => ?_, fun _ _ _ => rfl, fun h => ?_,
    fun _ => ?_, fun _ => ?_⟩
  · change ∀ k : Fin 14, resultWordOk State.reset.nbr[k] = true; decide
  · change ∀ k : Fin 14, State.reset.nbrMask.getLsbD k.val = true → wordStatus State.reset.nbr[k] = 0#4; decide
  · cases h
  · rw [hac]; exact Option.some_ne_none _
  · cases h
  · rw [hrb] at h
    cases h
    change batchAccepted .menc (batchRunning 0x081#10 [])
    unfold batchAccepted
    decide
  · exact Nat.zero_le _
  · cases h
  · exact Nat.zero_le _
  · exact ⟨fun _ => rfl, fun _ => rfl⟩

theorem scalarRunning_inv (sched : List Event) : Inv (scalarRunning sched) := by
  have hac : acceptedCommand (scalarRunning sched) = some .menc := by
    simp [acceptedCommand, show (scalarRunning sched).lastCmd = 0x001#10 from rfl,
      show decode 0x001#64 = .ok .menc by decide]
  have hrb : runningBatch (scalarRunning sched) = none := by simp [runningBatch, hac, batchForm]
  refine ⟨rfl, rfl, (by change plat.base.toNat % 0x100 = 0; decide), ⟨fun h => (by cases h), fun h => (by cases h)⟩,
    (by change resultWordOk 0#64 = true; decide), ?_, ?_, fun _ => rfl, fun h => ?_, fun _ => ?_, fun h => ?_,
    fun _ fn h => ?_, fun _ h => absurd hrb h, fun _ h _ => absurd hrb h, fun h => ?_, fun _ => ?_, fun _ => ?_⟩
  · change ∀ k : Fin 14, resultWordOk State.reset.nbr[k] = true; decide
  · change ∀ k : Fin 14, State.reset.nbrMask.getLsbD k.val = true → wordStatus State.reset.nbr[k] = 0#4; decide
  · cases h
  · rw [hac]; exact Option.some_ne_none _
  · cases h
  · rw [hrb] at h; cases h
  · cases h
  · exact Nat.zero_le _
  · exact ⟨fun _ => rfl, fun _ => rfl⟩

theorem witness_EveryStepKeepsTheInvariant :
    let s := batchRunning 0x081#10 [.engine]
    Inv s ∧ step s = .next (nextOf (step s)) ∧ (nextOf (step s)).progress = 1#32 :=
  ⟨batchRunning_inv _, rfl, by decide⟩

theorem witness_TheMachineNeverStops : Inv (batchRunning 0x081#10 [.engine]) ∧ Inv (scalarRunning []) :=
  ⟨batchRunning_inv _, scalarRunning_inv _⟩

theorem witness_ResultsChangeOnlyAtScalarCompletion :
    let s := scalarRunning [.engine]
    Inv s ∧ step s = .next (nextOf (step s)) ∧ (nextOf (step s)).result ≠ s.result :=
  ⟨scalarRunning_inv _, rfl, by decide⟩

theorem witness_OperandsAreStableWhileBusy :
    let e := Event.host (.write (plat.base + 0x020#64) (bytesOf 0x5#64))
    (scalarRunning [e]).busy = true ∧ step (scalarRunning [e]) = .next (nextOf (step (scalarRunning [e]))) ∧
      nextMove (scalarRunning [e]) ≠ .reset :=
  ⟨rfl, rfl, by decide⟩

theorem witness_OverrunIsSticky :
    let s : State := { hostWrites 0x010#64 0x4#64 with ovr := true }
    step s = .next (nextOf (step s)) ∧ s.ovr = true ∧ (nextOf (step s)).ovr = false :=
  ⟨rfl, rfl, by decide⟩

theorem witness_ProgressNeverDecreases :
    let s := batchRunning 0x081#10 [.engine]
    Inv s ∧ step s = .next (nextOf (step s)) ∧ s.busy = true ∧ nextMove s ≠ .reset :=
  ⟨batchRunning_inv _, rfl, rfl, by decide⟩

theorem witness_MemoryChangesOnlyInTheOutputRange :
    let s := batchRunning 0x081#10 [.engine]
    Inv s ∧ step s = .next (nextOf (step s)) ∧ (∀ word lanes, nextMove s ≠ .memStore word lanes) ∧
      readByte (nextOf (step s)).mem 0x2000 ≠ readByte s.mem 0x2000 :=
  ⟨batchRunning_inv _, rfl, fun _ _ h => (by cases h), by decide +kernel⟩

theorem witness_ThePlatformIsFixed :
    step (scalarRunning [.engine]) = .next (nextOf (step (scalarRunning [.engine]))) := rfl

/-- The last output word of the batch, its two lowest lanes. -/
theorem witness_RacingReadsGiveOldOrNew :
    let s := batchRunning 0x081#10 [.memLoad ((0x2008#64).extractLsb' 3 61) [0, 1] true]
    Inv s ∧ s.busy = true ∧ runningBatch s = some .menc ∧ 1 < s.count.toNat ∧ 8 * 0 < outSize .menc ∧
      nextMove s = .memLoad ((outAddr .menc s 1 + BitVec.ofNat 64 (8 * 0)).extractLsb' 3 61) [0, 1] true :=
  ⟨batchRunning_inv _, rfl, rfl, by decide, by decide, rfl⟩

/-- MENC under the schedule in which every move is ENGINE's: finished after the first move, and idle from then on. -/
theorem scalarRunning_run (n : Nat) :
    runOf (fun _ => .engine) (n + 1) (scalarRunning []) =
      .next { nextOf (exec .menc (scalarRunning [])) with turn := n + 1 } := by
  induction n with
  | zero => rfl
  | succ n ih =>
    rw [runOf, ih]
    rfl

/-- An element written, with more to come; and a command that a fair schedule finishes. -/
theorem witness_EveryFairScheduleFinishesTheCommand :
    let b := batchRunning 0x081#10 []
    (Inv b ∧ b.busy = true ∧ stepOf (fun _ => .engine) b = .next (nextOf (stepOf (fun _ => .engine) b)) ∧
      (nextOf (stepOf (fun _ => .engine) b)).busy = true ∧ nextMoveOf (fun _ => .engine) b = .engine) ∧
    Inv (scalarRunning []) ∧ (scalarRunning []).busy = true ∧ weaklyFair (fun _ => .engine) (scalarRunning []) :=
  ⟨⟨batchRunning_inv _, rfl, rfl, by decide, rfl⟩, scalarRunning_inv _, rfl,
    fun n _ => ⟨n + 1, _, Nat.le_succ n, scalarRunning_run n, rfl⟩⟩

end Sys2Proof.Tests
end

section
/-! The form of an element's words (R62), the command LAST_CMD names (R35, R73), and the two parts of
the invariant: what it says of memory, platform and record, and what it says of a command in progress. -/

namespace Sys2Proof.Machine

/-! ### The words of an element (R62) -/

/-- A word made with status 0, 2 or 3 has the form of a result word (R62). -/
theorem resultWordOk_mkKW {k : Key} {st : Err} (h : st = .ok ∨ st = .parityViolation ∨ st = .outOfRange) :
    resultWordOk (mkKW k st) = true := by
  have hlow : (mkKW k st).extractLsb' 48 8 = 0#8 := by
    apply BitVec.eq_of_getLsbD_eq
    intro i hi
    rw [BitVec.getLsbD_extractLsb', getLsbD_mkKW, BitVec.getLsbD_of_ge k _ (by omega)]
    simp [show 48 + i < 56 by omega]
  have hhigh : (mkKW k st).extractLsb' 60 4 = 0#4 := by
    apply BitVec.eq_of_getLsbD_eq
    intro i hi
    rw [BitVec.getLsbD_extractLsb', getLsbD_mkKW, BitVec.getLsbD_of_ge k _ (by omega),
      BitVec.getLsbD_of_ge st.code _ (by omega)]
    simp
  rw [resultWordOk, hlow, hhigh, wordStatus_mkKW]
  rcases h with rfl | rfl | rfl <;> rfl

/-- Each output word of an element has the form of a result word (R62). -/
theorem resultWordOk_elem (fn : Func) (f : Bool) (w : Word) (j : Nat) :
    resultWordOk ((elem fn f w).outs.getD j 0#64) = true := by
  by_cases hj : j < (elem fn f w).outs.length
  · rw [List.getD_eq_getElem _ _ hj]
    obtain ⟨k, st, hv, hst⟩ := elem_mem (List.getElem_mem hj)
    rw [hv]
    exact resultWordOk_mkKW hst
  · rw [List.getD_eq_default _ _ (by omega)]
    decide

/-! ### The accepted command (R73) -/

theorem decodeFields_scalarFields {fn : Func} {f : Bool} (h : f = true → fn.isNeighbor = true) :
    decodeFields (scalarFields fn f) = .ok (scalarInstr fn f) := by
  revert h
  cases fn <;> cases f <;> decide

theorem decodeFields_batchFields {fn : Func} {f a : Bool} (h : f = true → fn.isNeighbor = true) :
    decodeFields (batchFields fn f a) = .ok (batchInstr fn f a) := by
  revert h
  cases fn <;> cases f <;> cases a <;> decide

/-- A command's fields decode to the command (R65, R66). -/
theorem decodeFields_fields (i : Instr) : decodeFields i.fields = .ok i := by
  cases i
  case abort => rfl
  case menc | mdec | henc | hdec | m2h | h2m | pchk | nbrc | nbrm | nbrh =>
    exact decodeFields_scalarFields (by simp [Func.isNeighbor])
  all_goals exact decodeFields_batchFields (by simp [Func.isNeighbor])

theorem fields_reserved (i : Instr) : i.fields.reserved = 0#54 := by
  cases i <;> rfl

/-- The bits [9:0] that STATUS.LAST_CMD keeps of a command's word are the whole of it (R23, R59). -/
theorem setWidth_extractLsb'_encode (i : Instr) :
    ((encode i).extractLsb' 0 10).setWidth 64 = encode i := by
  have hzero : (encode i).extractLsb' 10 54 = 0#54 :=
    (congrArg CmdFields.reserved (fieldsOf_wordOf i.fields)).trans (fields_reserved i)
  apply BitVec.eq_of_getLsbD_eq
  intro n hn
  by_cases h : n < 10
  · simp [h, hn]
  · have hbit : (encode i).getLsbD n = false := by
      simpa [show n - 10 < 54 by omega, show 10 + (n - 10) = n by omega]
        using congrArg (BitVec.getLsbD · (n - 10)) hzero
    simp [h, hbit]

/-- While LAST_CMD holds the bits of a command other than ABORT, that is the command in progress (R35, R73). -/
theorem acceptedCommand_of_lastCmd {s : State} {i : Instr} (hi : i ≠ .abort)
    (h : s.lastCmd = (encode i).extractLsb' 0 10) : acceptedCommand s = some i := by
  have hdec : decode (s.lastCmd.setWidth 64) = .ok i := by
    rw [h, setWidth_extractLsb'_encode, decode, encode, fieldsOf_wordOf, decodeFields_fields]
  unfold acceptedCommand
  rw [hdec]
  cases i
  case abort => exact absurd rfl hi
  all_goals rfl

/-- The command in progress is never ABORT (R73). -/
theorem acceptedCommand_ne_abort {s : State} {i : Instr} (h : acceptedCommand s = some i) : i ≠ .abort := by
  rintro rfl
  unfold acceptedCommand at h
  split at h <;> simp_all

theorem batchForm_of_scalarForm {i : Instr} {p : Func × Bool} (h : scalarForm i = some p) :
    batchForm i = none := by
  cases i <;> simp_all [scalarForm, batchForm]

theorem runningBatch_eq {s : State} {i : Instr} (h : acceptedCommand s = some i) :
    runningBatch s = (batchForm i).map (·.1) := by
  simp only [runningBatch, h]

/-! ### The parts of the invariant -/

/-- What the invariant says of memory, the platform and the record, whether or not a command is in progress:
the fields of `Inv` with these names. -/
structure DataInv (s : State) : Prop where
  mem_wf : Memory.wf s.mem = true
  memAtIssue_wf : Memory.wf s.memAtIssue = true
  base_aligned : s.platform.base.toNat % 0x100 = 0
  err_raised : s.err ≠ .invalidField ∧ s.err ≠ .decodeError
  result_form : resultWordOk s.result = true
  nbr_form : ∀ k : Fin 14, resultWordOk s.nbr[k] = true
  mask_valid : ∀ k : Fin 14, s.nbrMask.getLsbD k.val = true → wordStatus s.nbr[k] = 0#4

/-- What the invariant says of a command in progress: the other fields of `Inv`, without the premise BUSY = 1. -/
structure RunInv (s : State) : Prop where
  not_done : s.done = false
  command : acceptedCommand s ≠ none
  vphase_batch : s.vphase = true → s.lastCmd.getLsbD 7 = true ∧ s.lastCmd.getLsbD 9 = true
  batch_accepted : ∀ fn, runningBatch s = some fn → batchAccepted fn s
  cursor_le : runningBatch s ≠ none → s.cursor ≤ s.count.toNat
  progress_cursor : runningBatch s ≠ none → s.vphase = false → s.progress.toNat = s.cursor
  vphase_counts : s.vphase = true → s.progress = 0#32 ∧ s.failCount = 0#32 ∧ s.err = .ok
  fail_le : s.failCount.toNat ≤ s.progress.toNat
  err_index : s.err = .ok ↔ s.errIndex = Config.noElement

theorem Inv.data {s : State} (h : Inv s) : DataInv s := { h with }

theorem Inv.run {s : State} (h : Inv s) (hb : s.busy = true) : RunInv s :=
  { h with
    not_done := h.busy_not_done hb
    command := h.busy_command hb
    vphase_batch := fun hv => (h.vphase_batch hv).2
    batch_accepted := h.batch_accepted hb
    cursor_le := h.cursor_le hb
    progress_cursor := h.progress_cursor hb
    fail_le := h.fail_le hb
    err_index := h.err_index hb }

/-- While a command is in progress the invariant is its two parts. -/
theorem Inv.of_busy {s : State} (hb : s.busy = true) (hd : DataInv s) (hr : RunInv s) : Inv s :=
  { hd, hr with
    busy_not_done := fun _ => hr.not_done
    abrt_busy := fun _ => hb
    busy_command := fun _ => hr.command
    vphase_batch := fun hv => ⟨hb, hr.vphase_batch hv⟩
    batch_accepted := fun _ => hr.batch_accepted
    cursor_le := fun _ => hr.cursor_le
    progress_cursor := fun _ => hr.progress_cursor
    fail_le := fun _ => hr.fail_le
    err_index := fun _ => hr.err_index }

/-- With no command in progress, and so none pending to abort or to validate, the first part is enough. -/
theorem Inv.of_idle {s : State} (hb : s.busy = false) (ha : s.abrt = false) (hv : s.vphase = false)
    (hd : DataInv s) : Inv s :=
  { hd with
    busy_not_done := by simp [hb]
    abrt_busy := by simp [ha]
    busy_command := by simp [hb]
    vphase_batch := by simp [hv]
    batch_accepted := by simp [hb]
    cursor_le := by simp [hb]
    progress_cursor := by simp [hb]
    vphase_counts := by simp [hv]
    fail_le := by simp [hb]
    err_index := by simp [hb] }

end Sys2Proof.Machine
end

section
/-! What one move can do, said once: ENGINE's turn (R72), a CMD write (R73), and every other move (R71, R141).
None of them is a fault where the command in progress is one ENGINE can run. -/

namespace Sys2Proof.Machine

/-! ### ENGINE's turn (R72) -/

/-- The codes an element's status can name are among those STATUS.ERR can hold (R130). -/
theorem elem_st_raised (fn : Func) (f : Bool) (w : Word) :
    (elem fn f w).st ≠ .invalidField ∧ (elem fn f w).st ≠ .decodeError := by
  rcases elem_st fn f w with h | h | h <;> simp [h]

/-- The result registers of a scalar command get words of the right form and the mask that belongs to them (R80). -/
theorem DataInv.putResults {s : State} (h : DataInv s) (fn : Func) (f : Bool) (w : Word) :
    DataInv (putResults fn (elem fn f w).outs s) := by
  unfold Machine.putResults
  split
  · refine { h with nbr_form := fun k => ?_, mask_valid := fun k => ?_ } <;> dsimp only
    · rw [getElem_nbrOf]
      exact resultWordOk_elem fn f w k
    · rw [getLsbD_maskOf _ _ k.isLt, getElem_nbrOf]
      exact fun hk => eq_of_beq hk
  · exact { h with result_form := resultWordOk_elem fn f w 0 }

/-- An error is recorded in ERR, and where it names an element in ERR_INDEX (R78). -/
theorem DataInv.recordError {s : State} (h : DataInv s) {e : Err}
    (he : e ≠ .invalidField ∧ e ≠ .decodeError) (index : Option (BitVec 32)) :
    DataInv (setErrIndex index { s with err := e }) := by
  cases index <;> exact { h with err_raised := he }

theorem elementWritten_eq_elementRecorded (e : Err) (s : State) (mem : List Host.Cell) (bus : List BusAccess) :
    elementWritten e s.cursor { s with mem := mem, bus := bus } = elementRecorded s e mem bus := by
  by_cases he : e = .ok
  · simp [elementWritten, elementRecorded, elemIndex, he]
  · by_cases hi : s.errIndex = Config.noElement <;>
      simp_all [elementWritten, elementRecorded, recordFailure, elemIndex, Config.noElement]

/-- ENGINE's next step is one of a pass of a batch command (R72, R116). -/
structure InPass (s : State) : Prop where
  busy : s.busy = true
  abrt : s.abrt = false
  batch : runningBatch s ≠ none

/-- Everything ENGINE's turn can do (R72): nothing while idle; the end of the command; or, in a pass of a batch
command, the change to the write pass (R116), one element validated (R117) or one element written (R118). Of the end
it says as much as the invariant needs: the result, error and memory it leaves keep `DataInv`. -/
inductive EngineEffect (s : State) : State → Prop where
  | idle (hb : s.busy = false) : EngineEffect s s
  | ended {u : State} (hp : u.platform = s.platform) (hd : DataInv s → DataInv u) : EngineEffect s (finish u)
  | writePassNext (hs : InPass s) (hc : s.cursor = s.count.toNat) (hv : s.vphase = true) :
      EngineEffect s { s with vphase := false, cursor := 0 }
  | validated (hs : InPass s) (hc : s.cursor ≠ s.count.toNat) (hv : s.vphase = true) (bus : List BusAccess) :
      EngineEffect s { s with bus := bus, cursor := s.cursor + 1 }
  | written (hs : InPass s) (hc : s.cursor ≠ s.count.toNat) (hv : s.vphase = false) {e : Err}
      (he : e ≠ .invalidField ∧ e ≠ .decodeError) {mem : List Host.Cell}
      (hm : Memory.wf s.mem = true → Memory.wf mem = true) (bus : List BusAccess) :
      EngineEffect s (elementRecorded s e mem bus)

/-- An error ends the command (R78). -/
theorem EngineEffect.raised {s u : State} {e : Err} {index : Option (BitVec 32)}
    (hp : u.platform = s.platform) (hd : DataInv s → DataInv u) (he : e ≠ .invalidField ∧ e ≠ .decodeError) :
    EngineEffect s (raiseError e index u) :=
  .ended ((setErrIndex_platform _ _).trans hp) fun h => (hd h).recordError he index

theorem scalarCommand_effect (i : Instr) (fn : Func) (f : Bool) {s : State} (hb : s.busy = true) :
    EngineEffect s (scalarCommand i fn f s) := by
  rcases scalarCommand_busy_cases i fn f s hb with ⟨-, h⟩ | ⟨-, ⟨-, h⟩ | ⟨-, h⟩⟩ <;> rw [h]
  · exact .raised rfl id (by decide)
  · exact .ended (putResults_platform ..) fun h => h.putResults ..
  · exact .raised (putResults_platform ..) (fun h => h.putResults ..) (elem_st_raised ..)

theorem validateStep_effect (fn : Func) (f : Bool) {s : State} (hs : InPass s)
    (hc : s.cursor ≠ s.count.toNat) (hv : s.vphase = true) : EngineEffect s (validateStep fn f s.cursor s) := by
  rcases validateStep_cases fn f s.cursor s with ⟨-, h⟩ | ⟨-, ⟨-, h⟩ | ⟨-, h⟩⟩ <;> rw [h]
  · exact .raised rfl id (by decide)
  · exact .validated hs hc hv _
  · exact .raised rfl (fun h => { h with }) (elem_st_raised ..)

theorem writeStep_effect (fn : Func) (f : Bool) {s : State} (hs : InPass s)
    (hc : s.cursor ≠ s.count.toNat) (hv : s.vphase = false) : EngineEffect s (writeStep fn f s.cursor s) := by
  rcases writeStep_cases fn f s.cursor s with ⟨-, h⟩ | ⟨-, ⟨n, -, h⟩ | h⟩ <;> rw [h]
  · exact .raised rfl id (by decide)
  · exact .raised rfl (fun h => { h with mem_wf := storeWords_wf h.mem_wf }) (by decide)
  · rw [elementWritten_eq_elementRecorded]
    exact .written hs hc hv (elem_st_raised ..) storeWords_wf _

theorem batchCommand_effect (i : Instr) (fn : Func) (f : Bool) {s : State} (hb : s.busy = true)
    (hr : runningBatch s ≠ none) : EngineEffect s (batchCommand i fn f s) := by
  rcases batchCommand_busy_cases i fn f s hb with
    ⟨-, h⟩ | ⟨ha, hc, hv, h⟩ | ⟨-, -, -, h⟩ | ⟨ha, hc, hv, h⟩ | ⟨ha, hc, hv, h⟩ <;> rw [h]
  · exact .raised rfl id (by decide)
  · exact .writePassNext ⟨hb, ha, hr⟩ hc hv
  · exact .ended rfl id
  · exact validateStep_effect fn f ⟨hb, ha, hr⟩ hc hv
  · exact writeStep_effect fn f ⟨hb, ha, hr⟩ hc hv

theorem engineTurn_effect {s t : State} (h : engineTurn s = .next t) : EngineEffect s t := by
  unfold engineTurn at h
  split at h
  · next hb =>
    split at h
    · next i hac =>
      rcases instr_forms i with ⟨fn, f, hf⟩ | ⟨fn, f, a, hf⟩ | rfl
      · rw [exec_scalar hf, Host.Outcome.next.injEq] at h
        exact h ▸ scalarCommand_effect i fn f hb
      · rw [exec_batch hf, Host.Outcome.next.injEq] at h
        exact h ▸ batchCommand_effect i fn f hb (by simp [runningBatch_eq hac, hf])
      · exact absurd rfl (acceptedCommand_ne_abort hac)
    · cases h
  · next hb =>
    cases h
    exact .idle (Bool.eq_false_of_not_eq_true hb)

/-- ENGINE's turn is no fault while a command it can run is in progress (R72). -/
theorem engineTurn_next {s : State} (h : s.busy = true → acceptedCommand s ≠ none) :
    ∃ t, engineTurn s = .next t := by
  unfold engineTurn
  split
  · next hb =>
    obtain ⟨i, hi⟩ := Option.ne_none_iff_exists'.mp (h hb)
    simpa only [hi] using exec_next i s
  · exact ⟨s, rfl⟩

/-! ### The moves around ENGINE (R71, R73, R141) -/

/-- Everything a CMD write can do (R73): ABORT without effect or left pending, a lost command, a rejected value or
command, and an accepted command. -/
inductive CmdEffect (s : State) : State → Prop where
  | nothing : CmdEffect s s
  | abortPending (hb : s.busy = true) : CmdEffect s { s with abrt := true }
  | lost (hb : s.busy = true) : CmdEffect s { s with ovr := true }
  | rejected (hb : s.busy = false) (c : Word) {e : Err} (he : e ≠ .invalidField ∧ e ≠ .decodeError) :
      CmdEffect s (reject e (prologue c s))
  | accepted (hb : s.busy = false) {i : Instr} (hi : i ≠ .abort)
      (hc : ∀ fn f a, batchForm i = some (fn, f, a) → batchAccepted fn s) :
      CmdEffect s (accept (encode i) (prologue (encode i) s))

theorem execAbort_effect {s t : State} (h : exec .abort s = .next t) : CmdEffect s t := by
  rw [exec, execAbort, Host.Outcome.next.injEq] at h
  subst h
  split
  · next hb => exact .abortPending hb
  · exact .nothing

/-- The codes a batch command is rejected with (R113). -/
theorem batchCheck_raised {fn : Func} {s : State} {e : Err} (h : batchCheck fn s = some e) :
    e ≠ .invalidField ∧ e ≠ .decodeError := by
  unfold batchCheck at h
  dsimp only at h
  split at h
  · cases h; decide
  · split at h
    · cases h; decide
    · split at h
      · cases h; decide
      · cases h

/-- A command written to an idle block is rejected or accepted; ABORT does nothing (R73, R113). -/
theorem exec_idle_effect {i : Instr} {s t : State} (hb : s.busy = false) (h : exec i s = .next t) :
    CmdEffect s t := by
  rcases instr_forms i with ⟨fn, f, hf⟩ | ⟨fn, f, a, hf⟩ | rfl
  · rw [exec_scalar hf, Host.Outcome.next.injEq] at h
    subst h
    simp only [scalarCommand, hb, Bool.false_eq_true, if_false, issueScalar]
    exact .accepted hb (by rintro rfl; cases hf) (by simp [batchForm_of_scalarForm hf])
  · rw [exec_batch hf, Host.Outcome.next.injEq] at h
    subst h
    simp only [batchCommand, hb, Bool.false_eq_true, if_false, issueBatch]
    cases hc : batchCheck fn s with
    | some e => exact .rejected hb _ (batchCheck_raised hc)
    | none =>
      refine .accepted hb (by rintro rfl; cases hf) fun fn' f' a' hf' => ?_
      obtain ⟨rfl, -, -⟩ : fn = fn' ∧ f = f' ∧ a = a' := by simpa [hf] using hf'
      exact batchCheck_eq_none.mp hc
  · exact execAbort_effect h

theorem cmdWrite_effect {c : Word} {s t : State} (h : cmdWrite c s = .next t) : CmdEffect s t := by
  unfold cmdWrite at h
  split at h
  · exact execAbort_effect h
  · split at h
    · next hb =>
      cases h
      exact .lost hb
    · next hb =>
      have hidle : s.busy = false := Bool.eq_false_of_not_eq_true hb
      split at h
      · exact exec_idle_effect hidle h
      · cases h
        exact .rejected hidle c (by decide)

theorem cmdWrite_next (c : Word) (s : State) : ∃ t, cmdWrite c s = .next t := by
  unfold cmdWrite
  split
  · exact exec_next _ _
  · split
    · exact ⟨_, rfl⟩
    · split
      · exact exec_next _ _
      · exact ⟨_, rfl⟩

/-- Everything a move other than ENGINE's can do: reset, a CMD write, the write of another register, or a change of
no more than the answer HOST holds and of memory. -/
inductive MoveEffect (s : State) : State → Prop where
  | reset : MoveEffect s (resetBlock s)
  | command {t : State} (p : HostReply) (h : CmdEffect { s with port := p } t) : MoveEffect s t
  | register (p : HostReply) (r : Reg) (v : Word) : MoveEffect s (writeReg r v { s with port := p })
  | around (p : HostReply) {mem : List Host.Cell} (hm : Memory.wf s.mem = true → Memory.wf mem = true) :
      MoveEffect s { s with port := p, mem := mem }

theorem hostRead_effect (addr : Word) (width : Nat) (s : State) : MoveEffect s (hostRead addr width s) := by
  unfold hostRead
  split
  · exact .around _ id
  · split <;> exact .around _ id

theorem hostWrite_effect {addr : Word} {lanes : List Byte} {s t : State} (h : hostWrite addr lanes s = .next t) :
    MoveEffect s t := by
  unfold hostWrite at h
  split at h
  · cases h
    exact .around _ id
  · split at h
    · split at h
      · exact .command _ (cmdWrite_effect h)
      · cases h
        exact .register ..
    · cases h
      exact .around _ id

theorem hostWrite_next (addr : Word) (lanes : List Byte) (s : State) : ∃ t, hostWrite addr lanes s = .next t := by
  unfold hostWrite
  split
  · exact ⟨_, rfl⟩
  · split
    · split
      · exact cmdWrite_next _ _
      · exact ⟨_, rfl⟩
    · exact ⟨_, rfl⟩

theorem runEvent_effect {e : Event} {s t : State} (he : e ≠ .engine) (h : runEvent e s = .next t) :
    MoveEffect s t := by
  cases e with
  | engine => exact absurd rfl he
  | host a =>
    cases a with
    | read addr width => cases h; exact hostRead_effect ..
    | write addr lanes => exact hostWrite_effect h
  | memStore word lanes => cases h; exact .around _ (storeLanes_wf word lanes)
  | memLoad word lanes old => cases h; exact .around _ id
  | reset => cases h; exact .reset

/-- No move is a fault or a refusal while a command in progress is one ENGINE can run (R138). -/
theorem runEvent_next (e : Event) {s : State} (h : s.busy = true → acceptedCommand s ≠ none) :
    ∃ t, runEvent e s = .next t := by
  cases e with
  | engine => exact engineTurn_next h
  | host a =>
    cases a with
    | read addr width => exact ⟨_, rfl⟩
    | write addr lanes => exact hostWrite_next ..
  | memStore word lanes => exact ⟨_, rfl⟩
  | memLoad word lanes old => exact ⟨_, rfl⟩
  | reset => exact ⟨_, rfl⟩

/-- A register write of HOST touches no more than CTRL, the W1C bits of STATUS and the operands (R17 to R34). -/
theorem writeReg_frame (r : Reg) (v : Word) (s : State) :
    ∃ irqEn done ovr coordIn keyIn srcAddr dstAddr count, writeReg r v s =
      { s with
        irqEn := irqEn, done := done, ovr := ovr, coordIn := coordIn, keyIn := keyIn
        srcAddr := srcAddr, dstAddr := dstAddr, count := count } := by
  cases r
  case coordIn | keyIn | srcAddr | dstAddr | count =>
    simp only [writeReg, guardedWrite]
    split <;> exact ⟨_, _, _, _, _, _, _, _, rfl⟩
  all_goals exact ⟨_, _, _, _, _, _, _, _, rfl⟩

end Sys2Proof.Machine
end

section
/-! The platform of the run (R8, R143). -/

namespace Sys2Proof.Machine

theorem EngineEffect.platform {s t : State} (h : EngineEffect s t) : t.platform = s.platform := by
  cases h with
  | ended hp _ => exact hp
  | _ => rfl

theorem CmdEffect.platform {s t : State} (h : CmdEffect s t) : t.platform = s.platform := by
  cases h <;> rfl

theorem MoveEffect.platform {s t : State} (h : MoveEffect s t) : t.platform = s.platform := by
  cases h with
  | command p h => exact h.platform
  | register p r v =>
    obtain ⟨_, _, _, _, _, _, _, _, hw⟩ := writeReg_frame r v { s with port := p }
    rw [hw]
  | _ => rfl

theorem runEvent_platform {e : Event} {s t : State} (h : runEvent e s = .next t) : t.platform = s.platform := by
  by_cases he : e = .engine
  · subst he
    exact (engineTurn_effect h).platform
  · exact (runEvent_effect he h).platform

/-- Settles O58: no move of an agent writes the platform. -/
theorem thePlatformIsFixed : Obligations.ThePlatformIsFixed := by
  intro s t ht
  exact runEvent_platform (s := takeMove s) ht

end Sys2Proof.Machine
end

section
/-! Every step keeps the invariant: each effect of a move keeps both of its parts. -/

namespace Sys2Proof.Machine

theorem InPass.cursor_lt {s : State} (hs : InPass s) (h : RunInv s) (hc : s.cursor ≠ s.count.toNat) :
    s.cursor < s.count.toNat :=
  Nat.lt_of_le_of_ne (h.cursor_le hs.batch) hc

/-- The write pass starts at element 0, with the zero PROGRESS of the validation pass (R116, R117). -/
theorem RunInv.writePassNext {s : State} (h : RunInv s) (hv : s.vphase = true) :
    RunInv { s with vphase := false, cursor := 0 } :=
  { h with
    vphase_batch := by simp
    cursor_le := fun _ => Nat.zero_le _
    progress_cursor := fun _ _ => by simp [(h.vphase_counts hv).1]
    vphase_counts := by simp }

/-- The validation of an element moves the cursor alone (R117). -/
theorem RunInv.validated {s : State} (h : RunInv s) (hc : s.cursor < s.count.toNat) (hv : s.vphase = true)
    (bus : List BusAccess) : RunInv { s with bus := bus, cursor := s.cursor + 1 } :=
  { h with
    cursor_le := fun _ => hc
    progress_cursor := fun _ hw => by simp [hv] at hw }

/-- The index of an element is never the value ERR_INDEX has when no element is meant, since COUNT.N has 32 bits
(R30, R32). -/
theorem elemIndex_ne_noElement {i : Nat} {n : BitVec 32} (h : i < n.toNat) :
    BitVec.ofNat 32 i ≠ Config.noElement := by
  intro hi
  have hval : i % 2 ^ 32 = 0xFFFFFFFF := by simpa [Config.noElement] using congrArg BitVec.toNat hi
  have := n.isLt
  omega

/-- A written element is counted, and the first failing one recorded (R118). -/
theorem RunInv.written {s : State} (h : RunInv s) (hs : InPass s) (hc : s.cursor < s.count.toNat)
    (hv : s.vphase = false) (e : Err) (mem : List Host.Cell) (bus : List BusAccess) :
    RunInv (elementRecorded s e mem bus) := by
  have hn := s.count.isLt
  have hp : s.progress.toNat = s.cursor := h.progress_cursor hs.batch hv
  have hle := h.fail_le
  refine { h with
    cursor_le := fun _ => hc, progress_cursor := fun _ _ => ?_, vphase_counts := fun hv' => ?_
    fail_le := ?_, err_index := ?_ } <;> dsimp only [elementRecorded]
  · rw [BitVec.toNat_ofNat]
    omega
  · simp [elementRecorded, hv] at hv'
  · rw [BitVec.toNat_ofNat]
    split
    · omega
    · rw [BitVec.toNat_add, BitVec.toNat_ofNat]
      omega
  · have hidx := elemIndex_ne_noElement hc
    have herr := h.err_index
    by_cases he : e = .ok
    · simp [he, herr]
    · by_cases hi : s.errIndex = Config.noElement <;> simp_all [Config.noElement]

theorem EngineEffect.inv {s t : State} (he : EngineEffect s t) (h : Inv s) : Inv t := by
  cases he with
  | idle _ => exact h
  | ended _ hd => exact .of_idle rfl rfl rfl { hd h.data with }
  | writePassNext hs _ hv => exact .of_busy hs.busy { h.data with } ((h.run hs.busy).writePassNext hv)
  | validated hs hc hv bus =>
    have hr := h.run hs.busy
    exact .of_busy hs.busy { h.data with } (hr.validated (hs.cursor_lt hr hc) hv bus)
  | written hs hc hv hst hm bus =>
    have hr := h.run hs.busy
    refine .of_busy hs.busy ?_ (hr.written hs (hs.cursor_lt hr hc) hv ..)
    refine { h.data with mem_wf := hm h.mem_wf, err_raised := ?_ }
    dsimp only [elementRecorded]
    split
    · exact h.err_raised
    · exact hst

/-- What an accepted command starts with (R73, R74, R113). -/
theorem RunInv.accepted {s : State} {i : Instr} (hi : i ≠ .abort)
    (hc : ∀ fn f a, batchForm i = some (fn, f, a) → batchAccepted fn s) :
    RunInv (accept (encode i) (prologue (encode i) s)) := by
  have hac : acceptedCommand (accept (encode i) (prologue (encode i) s)) = some i :=
    acceptedCommand_of_lastCmd hi rfl
  constructor
  case not_done => rfl
  case command => simp [hac]
  case vphase_batch => simp
  case batch_accepted =>
    intro fn hfn
    rw [runningBatch_eq hac, Option.map_eq_some_iff] at hfn
    obtain ⟨⟨fn, f, a⟩, hf, rfl⟩ := hfn
    exact hc fn f a hf
  case cursor_le => exact fun _ => Nat.zero_le _
  case progress_cursor => exact fun _ _ => rfl
  case vphase_counts => exact fun _ => ⟨rfl, rfl, rfl⟩
  case fail_le => exact Nat.le_refl 0
  case err_index => exact ⟨fun _ => rfl, fun _ => rfl⟩

theorem CmdEffect.inv {s t : State} (he : CmdEffect s t) (h : Inv s) : Inv t := by
  cases he with
  | nothing => exact h
  | abortPending hb => exact { h with abrt_busy := fun _ => hb }
  | lost _ => exact { h with }
  | rejected hb c hst => exact .of_idle hb rfl rfl { h.data with err_raised := hst }
  | accepted hb hi hc =>
    exact .of_busy rfl { h.data with memAtIssue_wf := h.mem_wf, err_raised := by simp } (.accepted hi hc)

theorem writeReg_inv {s : State} (r : Reg) (v : Word) (h : Inv s) : Inv (writeReg r v s) := by
  cases hb : s.busy with
  | true =>
    rcases writeReg_of_busy r v s hb with hw | hw | ⟨b, hw⟩ | hw <;> rw [hw]
    · exact h
    · exact { h with }
    · exact { h with }
    · exact { h with busy_not_done := fun _ => by simp [h.busy_not_done hb] }
  | false =>
    have ha : s.abrt = false := Bool.eq_false_of_not_eq_true fun ha => by simp [h.abrt_busy ha] at hb
    have hv : s.vphase = false := Bool.eq_false_of_not_eq_true fun hv => by simp [(h.vphase_batch hv).1] at hb
    obtain ⟨_, _, _, _, _, _, _, _, hw⟩ := writeReg_frame r v s
    rw [hw]
    exact .of_idle hb ha hv { h.data with }

theorem reset_data : DataInv State.reset := by
  constructor <;> decide

theorem resetBlock_inv {s : State} (h : Inv s) : Inv (resetBlock s) :=
  .of_idle rfl rfl rfl
    { reset_data with
      mem_wf := h.mem_wf, memAtIssue_wf := h.memAtIssue_wf, base_aligned := h.base_aligned }

theorem MoveEffect.inv {s t : State} (he : MoveEffect s t) (h : Inv s) : Inv t := by
  cases he with
  | reset => exact resetBlock_inv h
  | command p he => exact he.inv { h with }
  | register p r v => exact writeReg_inv r v { h with }
  | around p hm => exact { h with mem_wf := hm h.mem_wf }

/-- Every move keeps the invariant. -/
theorem runEvent_inv {e : Event} {s t : State} (h : Inv s) (ht : runEvent e s = .next t) : Inv t := by
  by_cases he : e = .engine
  · subst he
    exact (engineTurn_effect ht).inv h
  · exact (runEvent_effect he ht).inv h

theorem takeMove_inv {s : State} (h : Inv s) : Inv (takeMove s) := { h with }

/-- Every step keeps the invariant, whatever the schedule. -/
theorem stepOf_inv {schedule : Nat → Event} {s t : State} (h : Inv s) (ht : stepOf schedule s = .next t) : Inv t :=
  runEvent_inv (takeMove_inv h) ht

/-- Settles O51, by the effects a move can have. -/
theorem everyStepKeepsTheInvariant : Obligations.EveryStepKeepsTheInvariant := by
  intro s t h ht
  exact stepOf_inv h ht

end Sys2Proof.Machine
end

section
/-! Progress (R8c, R149): ENGINE's moves leave a command fewer steps, no other move leaves it more, and so a weakly fair
schedule finishes it. -/

namespace Sys2Proof.Machine

theorem stepsLeft_pos (s : State) : 1 ≤ stepsLeft s := by
  unfold stepsLeft
  split
  · exact Nat.le_refl 1
  · split
    · exact Nat.le_refl 1
    · dsimp only
      split <;> omega

/-- In the passes of a batch command ENGINE still has the elements from the cursor on and the pass's end, and before
the end of the validation pass the whole write pass too (R116). -/
theorem stepsLeft_of_pass {s : State} (ha : s.abrt = false) (hr : runningBatch s ≠ none) :
    stepsLeft s =
      (s.count.toNat - s.cursor + 1) + bif s.vphase then s.count.toNat + 1 else 0 := by
  obtain ⟨fn, hfn⟩ := Option.ne_none_iff_exists'.mp hr
  cases hv : s.vphase <;> simp [stepsLeft, ha, hfn, hv]

/-- ENGINE's turn ends the command or leaves it fewer steps (R149). -/
theorem EngineEffect.stepsLeft_lt {s t : State} (he : EngineEffect s t) (h : Inv s) (hb : s.busy = true)
    (ht : t.busy = true) : stepsLeft t < stepsLeft s := by
  cases he with
  | idle hidle => simp [hb] at hidle
  | ended _ _ => cases ht
  | writePassNext hs hc hv =>
    refine lt_of_eq_of_lt (stepsLeft_of_pass hs.abrt hs.batch) ?_
    rw [stepsLeft_of_pass hs.abrt hs.batch]
    simp [hc, hv]
  | validated hs hc hv bus =>
    have := hs.cursor_lt (h.run hb) hc
    refine lt_of_eq_of_lt (stepsLeft_of_pass hs.abrt hs.batch) ?_
    rw [stepsLeft_of_pass hs.abrt hs.batch]
    dsimp only
    omega
  | written hs hc hv _ _ bus =>
    have := hs.cursor_lt (h.run hb) hc
    refine lt_of_eq_of_lt (stepsLeft_of_pass hs.abrt hs.batch) ?_
    rw [stepsLeft_of_pass hs.abrt hs.batch]
    dsimp only [elementRecorded]
    omega

theorem CmdEffect.stepsLeft_le {s t : State} (he : CmdEffect s t) (hb : s.busy = true) :
    stepsLeft t ≤ stepsLeft s := by
  cases he with
  | nothing | lost _ => exact Nat.le_refl _
  | abortPending _ => exact stepsLeft_pos s
  | rejected hidle | accepted hidle => simp [hb] at hidle

/-- No move other than ENGINE's leaves the command in progress more steps (R149). -/
theorem MoveEffect.stepsLeft_le {s t : State} (he : MoveEffect s t) (hb : s.busy = true) (ht : t.busy = true) :
    stepsLeft t ≤ stepsLeft s := by
  cases he with
  | reset => cases ht
  | command p he => exact he.stepsLeft_le hb
  | register p r v =>
    rcases writeReg_of_busy r v { s with port := p } hb with hw | hw | ⟨b, hw⟩ | hw <;> rw [hw]
    all_goals exact Nat.le_refl _
  | around p hm => exact Nat.le_refl _

theorem stepOf_stepsLeft_le {schedule : Nat → Event} {s t : State} (h : Inv s) (hb : s.busy = true)
    (ht : stepOf schedule s = .next t) (htb : t.busy = true) : stepsLeft t ≤ stepsLeft s := by
  by_cases he : nextMoveOf schedule s = .engine
  · rw [stepOf, he] at ht
    exact Nat.le_of_lt ((engineTurn_effect ht).stepsLeft_lt (takeMove_inv h) hb htb)
  · exact (runEvent_effect he ht).stepsLeft_le hb htb

theorem stepOf_engine_stepsLeft_lt {schedule : Nat → Event} {s t : State} (h : Inv s) (hb : s.busy = true)
    (ht : stepOf schedule s = .next t) (htb : t.busy = true) (he : nextMoveOf schedule s = .engine) :
    stepsLeft t < stepsLeft s := by
  rw [stepOf, he] at ht
  exact (engineTurn_effect ht).stepsLeft_lt (takeMove_inv h) hb htb

/-- The bounds of R149. -/
theorem stepsLeft_le {s : State} (h : Inv s) :
    stepsLeft s ≤ if runningBatch s = none then 1
      else if s.lastCmd.getLsbD 9 then 2 * s.count.toNat + 2 else s.count.toNat + 1 := by
  cases ha : s.abrt with
  | true =>
    have hone : stepsLeft s = 1 := by simp [stepsLeft, ha]
    rw [hone]
    split
    · exact Nat.le_refl 1
    · split <;> omega
  | false =>
    split
    · next hr => simp [stepsLeft, ha, hr]
    · next hr =>
      rw [stepsLeft_of_pass ha hr]
      cases hv : s.vphase with
      | true =>
        obtain ⟨-, -, hpolicy⟩ := h.vphase_batch hv
        rw [if_pos hpolicy, cond_true]
        omega
      | false =>
        rw [cond_false]
        split <;> omega

/-! ### Weak fairness -/

/-- From a state with the invariant the machine goes on, whatever the schedule. -/
theorem stepOf_next {s : State} (schedule : Nat → Event) (h : Inv s) : ∃ t, stepOf schedule s = .next t :=
  runEvent_next _ (takeMove_inv h).busy_command

theorem runOf_succ {schedule : Nat → Event} {s t : State} {n : Nat} (h : runOf schedule n s = .next t) :
    runOf schedule (n + 1) s = stepOf schedule t := by
  rw [runOf, h]

/-- Every run from a state with the invariant goes on for ever, and keeps the invariant. -/
theorem runOf_next {s : State} (schedule : Nat → Event) (h : Inv s) (n : Nat) :
    ∃ t, runOf schedule n s = .next t ∧ Inv t := by
  induction n with
  | zero => exact ⟨s, rfl, h⟩
  | succ n ih =>
    obtain ⟨t, ht, hinv⟩ := ih
    obtain ⟨u, hu⟩ := stepOf_next schedule hinv
    exact ⟨u, (runOf_succ ht).trans hu, stepOf_inv hinv hu⟩

/-- A run in which the command in progress never ends. -/
def NeverEnds (schedule : Nat → Event) (s : State) : Prop :=
  ∀ n t, runOf schedule n s = .next t → t.busy = true

/-- Along such a run the steps left never grow. -/
theorem stepsLeft_le_of_neverEnds {schedule : Nat → Event} {s t u : State} {n m : Nat} (h : Inv s)
    (hrun : NeverEnds schedule s) (hnm : n ≤ m) (ht : runOf schedule n s = .next t)
    (hu : runOf schedule m s = .next u) : stepsLeft u ≤ stepsLeft t := by
  induction m, hnm using Nat.le_induction generalizing u with
  | base =>
    cases ht.symm.trans hu
    exact Nat.le_refl _
  | succ m _ ih =>
    obtain ⟨v, hv, hinv⟩ := runOf_next schedule h m
    have hstep : stepOf schedule v = .next u := (runOf_succ hv).symm.trans hu
    exact (stepOf_stepsLeft_le hinv (hrun _ _ hv) hstep (hrun _ _ hu)).trans (ih hv)

/-- Under a weakly fair schedule ENGINE moves once more in such a run, and leaves fewer steps. -/
theorem exists_stepsLeft_lt {schedule : Nat → Event} {s t : State} {n : Nat} (h : Inv s)
    (hfair : weaklyFair schedule s) (hrun : NeverEnds schedule s) (ht : runOf schedule n s = .next t) :
    ∃ m u, runOf schedule m s = .next u ∧ stepsLeft u < stepsLeft t := by
  obtain ⟨m, v, hnm, hv, hmove⟩ := hfair n fun m t _ ht => hrun m t ht
  obtain ⟨v', hv', hinv⟩ := runOf_next schedule h m
  cases hv.symm.trans hv'
  obtain ⟨u, hu⟩ := stepOf_next schedule hinv
  have hnext : runOf schedule (m + 1) s = .next u := (runOf_succ hv).trans hu
  refine ⟨m + 1, u, hnext, ?_⟩
  calc stepsLeft u < stepsLeft v :=
        stepOf_engine_stepsLeft_lt hinv (hrun _ _ hv) hu (hrun _ _ hnext) hmove
    _ ≤ stepsLeft t := stepsLeft_le_of_neverEnds h hrun hnm ht hv

/-- The steps left cannot shrink for ever, so under a weakly fair schedule the command in progress ends. -/
theorem not_neverEnds_of_weaklyFair {schedule : Nat → Event} {s : State} (h : Inv s)
    (hfair : weaklyFair schedule s) : ¬ NeverEnds schedule s := by
  intro hrun
  have hdescent : ∀ k n t, runOf schedule n s = .next t → stepsLeft t = k → False := by
    intro k
    induction k using Nat.strong_induction_on with
    | _ k ih =>
      rintro n t ht rfl
      obtain ⟨m, u, hu, hlt⟩ := exists_stepsLeft_lt h hfair hrun ht
      exact ih _ hlt m u hu rfl
  exact hdescent _ 0 s rfl rfl

/-- Settles O60: the bounds and the descent of `stepsLeft`, and from them the end under weak fairness. -/
theorem everyFairScheduleFinishesTheCommand : Obligations.EveryFairScheduleFinishesTheCommand := by
  refine ⟨fun schedule s t h hb ht htb => ?_, fun s h _ => ?_, fun schedule s h _ hfair => ?_⟩
  · exact ⟨stepOf_stepsLeft_le h hb ht htb, stepOf_engine_stepsLeft_lt h hb ht htb⟩
  · exact ⟨stepsLeft_pos s, stepsLeft_le h⟩
  · by_contra hnone
    refine not_neverEnds_of_weaklyFair h hfair fun n t ht => ?_
    by_contra hidle
    exact hnone ⟨n, t, ht, Bool.eq_false_of_not_eq_true hidle⟩

end Sys2Proof.Machine
end

section
/-! What a move leaves unchanged (R15, R23, R31, R145): ENGINE's turn, and every other move but reset. -/

namespace Sys2Proof.Machine

/-! ### ENGINE's turn (R72) -/

/-- The batch command of a function is no scalar command (R65). -/
theorem scalarForm_batchInstr (fn : Func) (f a : Bool) : scalarForm (batchInstr fn f a) = none := by
  cases fn <;> rfl

/-- Fields that decode to a scalar command have B = 0 (R59, R65). -/
theorem decodeFields_scalar_b {c : CmdFields} {i : Instr} {p : Func × Bool} (h : decodeFields c = .ok i)
    (hi : scalarForm i = some p) : c.b = false := by
  unfold decodeFields at h
  split at h
  · cases h; cases hi
  split at h
  · cases h
  split at h
  · cases h
  split at h
  · cases h
  split at h
  · cases h
  cases hb : c.b with
  | false => rfl
  | true =>
    rw [hb, if_pos rfl, Except.ok.injEq] at h
    rw [← h, scalarForm_batchInstr] at hi
    cases hi

/-- While a scalar command is in progress, bit B of LAST_CMD is clear (R23, R59). -/
theorem lastCmd_b_of_scalar {s : State} {i : Instr} {p : Func × Bool} (h : acceptedCommand s = some i)
    (hi : scalarForm i = some p) : s.lastCmd.getLsbD 7 = false := by
  unfold acceptedCommand at h
  split at h
  · cases h
  · next j _ hdec =>
    cases h
    simpa [fieldsOf] using decodeFields_scalar_b hdec hi
  · cases h

/-- ENGINE's turn by the command in progress: none, a scalar one or a batch one (R72). -/
theorem engineTurn_cases {s t : State} (h : engineTurn s = .next t) :
    (s.busy = false ∧ t = s) ∨
    (s.busy = true ∧ ∃ i fn f, acceptedCommand s = some i ∧ scalarForm i = some (fn, f) ∧
      t = scalarCommand i fn f s) ∨
    (s.busy = true ∧ runningBatch s ≠ none ∧ ∃ i fn f, t = batchCommand i fn f s) := by
  unfold engineTurn at h
  split at h
  · next hb =>
    split at h
    · next i hac =>
      rcases instr_forms i with ⟨fn, f, hf⟩ | ⟨fn, f, a, hf⟩ | rfl
      · rw [exec_scalar hf, Host.Outcome.next.injEq] at h
        exact .inr (.inl ⟨hb, i, fn, f, hac, hf, h.symm⟩)
      · rw [exec_batch hf, Host.Outcome.next.injEq] at h
        exact .inr (.inr ⟨hb, by simp [runningBatch_eq hac, hf], i, fn, f, h.symm⟩)
      · exact absurd rfl (acceptedCommand_ne_abort hac)
    · cases h
  · next hb =>
    cases h
    exact .inl ⟨Bool.eq_false_of_not_eq_true hb, rfl⟩

/-- What ENGINE's turn leaves unchanged (R72): outside the completion of a scalar command and the write of an element
it touches no operand, no result register, no PROGRESS and no OVR. -/
inductive EngineFrame (s : State) : State → Prop where
  | recordOnly (busy done abrt vphase : Bool) (err : Err) (errIndex failCount : BitVec 32) (cursor : Nat)
      (mem : List Host.Cell) (bus : List BusAccess) :
      EngineFrame s { s with
        busy := busy, done := done, abrt := abrt, vphase := vphase, err := err, errIndex := errIndex
        failCount := failCount, cursor := cursor, mem := mem, bus := bus }
  | written (hs : InPass s) (hc : s.cursor ≠ s.count.toNat) (hv : s.vphase = false) (e : Err)
      (mem : List Host.Cell) (bus : List BusAccess) : EngineFrame s (elementRecorded s e mem bus)
  | scalarEnd (hb : s.busy = true) (ha : s.abrt = false) (hc : s.lastCmd.getLsbD 7 = false) (fn : Func)
      (outs : List Word) (err : Err) : EngineFrame s (finish { putResults fn outs s with err := err })

theorem scalarCommand_frame {i : Instr} {fn : Func} {f : Bool} {s : State} (hb : s.busy = true)
    (hc : s.lastCmd.getLsbD 7 = false) : EngineFrame s (scalarCommand i fn f s) := by
  rcases scalarCommand_busy_cases i fn f s hb with ⟨-, h⟩ | ⟨ha, ⟨-, h⟩ | ⟨-, h⟩⟩ <;> rw [h]
  · exact .recordOnly ..
  · exact .scalarEnd hb ha hc fn _ (putResults fn _ s).err
  · exact .scalarEnd hb ha hc fn _ _

theorem validateStep_frame (fn : Func) (f : Bool) (s : State) : EngineFrame s (validateStep fn f s.cursor s) := by
  rcases validateStep_cases fn f s.cursor s with ⟨-, h⟩ | ⟨-, ⟨-, h⟩ | ⟨-, h⟩⟩ <;> rw [h]
  all_goals exact .recordOnly ..

theorem writeStep_frame (fn : Func) (f : Bool) {s : State} (hs : InPass s) (hc : s.cursor ≠ s.count.toNat)
    (hv : s.vphase = false) : EngineFrame s (writeStep fn f s.cursor s) := by
  rcases writeStep_cases fn f s.cursor s with ⟨-, h⟩ | ⟨-, ⟨n, -, h⟩ | h⟩ <;> rw [h]
  · exact .recordOnly ..
  · exact .recordOnly ..
  · rw [elementWritten_eq_elementRecorded]
    exact .written hs hc hv ..

theorem batchCommand_frame (i : Instr) (fn : Func) (f : Bool) {s : State} (hb : s.busy = true)
    (hr : runningBatch s ≠ none) : EngineFrame s (batchCommand i fn f s) := by
  rcases batchCommand_busy_cases i fn f s hb with
    ⟨-, h⟩ | ⟨-, -, -, h⟩ | ⟨-, -, -, h⟩ | ⟨-, -, -, h⟩ | ⟨ha, hc, hv, h⟩ <;> rw [h]
  · exact .recordOnly ..
  · exact .recordOnly ..
  · exact .recordOnly ..
  · exact validateStep_frame fn f s
  · exact writeStep_frame fn f ⟨hb, ha, hr⟩ hc hv

theorem engineTurn_frame {s t : State} (h : engineTurn s = .next t) : EngineFrame s t := by
  rcases engineTurn_cases h with ⟨-, rfl⟩ | ⟨hb, i, fn, f, hac, hf, rfl⟩ | ⟨hb, hr, i, fn, f, rfl⟩
  · exact .recordOnly ..
  · exact scalarCommand_frame hb (lastCmd_b_of_scalar hac hf)
  · exact batchCommand_frame i fn f hb hr

/-! ### The other moves but reset (R71) -/

/-- Everything a move of an agent other than ENGINE can do when it is not reset: a change of no more than memory and
the answer HOST holds, a CMD write, or HOST's write of the register at an offset of the window. -/
inductive OutsideEffect (e : Event) (s : State) : State → Prop where
  | around (port : HostReply) (mem : List Host.Cell) : OutsideEffect e s { s with port := port, mem := mem }
  | command {t : State} (port : HostReply) (h : CmdEffect { s with port := port } t) : OutsideEffect e s t
  | register {addr : Word} {lanes : List Byte} {off : Nat} (he : e = .host (.write addr lanes))
      (ho : windowOffset s.platform.base addr = some off) :
      OutsideEffect e s (writeReg (regAt off) (wordOfBytes lanes) { s with port := .written })

theorem hostRead_outside (e : Event) (addr : Word) (width : Nat) (s : State) :
    OutsideEffect e s (hostRead addr width s) := by
  unfold hostRead
  split
  · exact .around ..
  · split <;> exact .around ..

theorem hostWrite_outside {addr : Word} {lanes : List Byte} {s t : State}
    (h : hostWrite addr lanes s = .next t) : OutsideEffect (.host (.write addr lanes)) s t := by
  unfold hostWrite at h
  split at h
  · cases h
    exact .around ..
  · next off ho =>
    split at h
    · split at h
      · exact .command _ (cmdWrite_effect h)
      · cases h
        exact .register rfl ho
    · cases h
      exact .around ..

theorem runEvent_outside {e : Event} {s t : State} (he : e ≠ .engine) (hr : e ≠ .reset)
    (h : runEvent e s = .next t) : OutsideEffect e s t := by
  cases e with
  | engine => exact absurd rfl he
  | reset => exact absurd rfl hr
  | host a =>
    cases a with
    | read addr width => cases h; exact hostRead_outside ..
    | write addr lanes => exact hostWrite_outside h
  | memStore word lanes => cases h; exact .around ..
  | memLoad word lanes old => cases h; exact .around ..

/-- One step is reset, ENGINE's turn or another move. -/
theorem step_cases {s t : State} (h : step s = .next t) :
    nextMove s = .reset ∨ (nextMove s = .engine ∧ EngineFrame (takeMove s) t) ∨
      OutsideEffect (nextMove s) (takeMove s) t := by
  by_cases hr : nextMove s = .reset
  · exact .inl hr
  · by_cases he : nextMove s = .engine
    · rw [step_engine he] at h
      exact .inr (.inl ⟨he, engineTurn_frame h⟩)
    · exact .inr (.inr (runEvent_outside he hr h))

end Sys2Proof.Machine
end

section
/-! The result registers change only when a scalar command completes (R27, R28, R34, R145). -/

namespace Sys2Proof.Machine

/-- RESULT, NBR_MASK and NBR0 to NBR13 are the same in both states. -/
def SameResults (s t : State) : Prop := t.result = s.result ∧ t.nbrMask = s.nbrMask ∧ t.nbr = s.nbr

theorem CmdEffect.sameResults {s t : State} (h : CmdEffect s t) : SameResults s t := by
  cases h <;> exact ⟨rfl, rfl, rfl⟩

theorem OutsideEffect.sameResults {e : Event} {s t : State} (h : OutsideEffect e s t) : SameResults s t := by
  cases h with
  | around port mem => exact ⟨rfl, rfl, rfl⟩
  | command port h => exact h.sameResults
  | @register addr lanes off he ho =>
    obtain ⟨_, _, _, _, _, _, _, _, hw⟩ :=
      writeReg_frame (regAt off) (wordOfBytes lanes) { s with port := .written }
    rw [hw]
    exact ⟨rfl, rfl, rfl⟩

/-- ENGINE's turn changes a result register only where it completes a scalar command that is not aborted (R80). -/
theorem EngineFrame.sameResults_or {s t : State} (h : EngineFrame s t) :
    SameResults s t ∨
      (s.busy = true ∧ s.abrt = false ∧ t.busy = false ∧ t.done = true ∧ s.lastCmd.getLsbD 7 = false) := by
  cases h with
  | recordOnly => exact .inl ⟨rfl, rfl, rfl⟩
  | written => exact .inl ⟨rfl, rfl, rfl⟩
  | scalarEnd hb ha hc => exact .inr ⟨hb, ha, rfl, rfl, hc⟩

/-- Settles O53: reset and ENGINE's completion of a scalar command are the only moves that do not keep the result
registers. -/
theorem resultsChangeOnlyAtScalarCompletion : Obligations.ResultsChangeOnlyAtScalarCompletion := by
  intro s t _ ht hchange
  have hne : ¬ SameResults (takeMove s) t := by
    rintro ⟨hresult, hmask, hnbr⟩
    rcases hchange with h | h | h
    · exact h hresult
    · exact h hmask
    · exact h hnbr
  rcases step_cases ht with hr | ⟨he, hf⟩ | ho
  · exact .inl hr
  · rcases hf.sameResults_or with hsame | hend
    · exact absurd hsame hne
    · exact .inr ⟨he, hend⟩
  · exact absurd ho.sameResults hne

end Sys2Proof.Machine
end

section
/-! What a command in progress works on: its operands do not change (R15, R76) and PROGRESS never decreases (R31). -/

namespace Sys2Proof.Machine

/-- COORD_IN, KEY_IN, SRC_ADDR, DST_ADDR and COUNT are the same in both states. -/
def SameOperands (s t : State) : Prop :=
  t.coordIn = s.coordIn ∧ t.keyIn = s.keyIn ∧ t.srcAddr = s.srcAddr ∧ t.dstAddr = s.dstAddr ∧ t.count = s.count

theorem EngineFrame.sameOperands {s t : State} (h : EngineFrame s t) : SameOperands s t := by
  cases h with
  | recordOnly => exact ⟨rfl, rfl, rfl, rfl, rfl⟩
  | written => exact ⟨rfl, rfl, rfl, rfl, rfl⟩
  | scalarEnd => simp [SameOperands]

/-- While a command is in progress no move of another agent but reset touches its operands or PROGRESS (R76). -/
theorem OutsideEffect.of_busy {e : Event} {s t : State} (h : OutsideEffect e s t) (hb : s.busy = true) :
    SameOperands s t ∧ t.progress = s.progress := by
  cases h with
  | around port mem => exact ⟨⟨rfl, rfl, rfl, rfl, rfl⟩, rfl⟩
  | command port h =>
    cases h with
    | nothing | abortPending | lost => exact ⟨⟨rfl, rfl, rfl, rfl, rfl⟩, rfl⟩
    | rejected hidle | accepted hidle => simp [hb] at hidle
  | @register addr lanes off he ho =>
    rcases writeReg_of_busy (regAt off) (wordOfBytes lanes) { s with port := .written } hb with
      hw | hw | ⟨b, hw⟩ | hw <;> rw [hw] <;> exact ⟨⟨rfl, rfl, rfl, rfl, rfl⟩, rfl⟩

/-- Settles O54: ENGINE's turn never writes an operand, and HOST's writes are lost while busy. -/
theorem operandsAreStableWhileBusy : Obligations.OperandsAreStableWhileBusy := by
  intro s t hb ht hnr
  rcases step_cases ht with hr | ⟨-, hf⟩ | ho
  · exact absurd hr hnr
  · exact hf.sameOperands
  · exact (ho.of_busy hb).1

/-- A written element raises PROGRESS from the cursor to the next one; nothing else ENGINE does writes it (R118). -/
theorem EngineFrame.progress_le {s t : State} (h : EngineFrame s t) (hinv : Inv s) :
    s.progress.toNat ≤ t.progress.toNat := by
  cases h with
  | recordOnly => exact Nat.le_refl _
  | written hs hc hv e mem bus =>
    have hp : s.progress.toNat = s.cursor := hinv.progress_cursor hs.busy hs.batch hv
    have hlt : s.cursor < s.count.toNat := hs.cursor_lt (hinv.run hs.busy) hc
    have hn := s.count.isLt
    dsimp only [elementRecorded]
    rw [BitVec.toNat_ofNat]
    omega
  | scalarEnd => simp

/-- Settles O56: PROGRESS is raised by a written element and kept by every other move of a command in progress. -/
theorem progressNeverDecreases : Obligations.ProgressNeverDecreases := by
  intro s t h ht hb hnr
  rcases step_cases ht with hr | ⟨-, hf⟩ | ho
  · exact absurd hr hnr
  · exact hf.progress_le (takeMove_inv h)
  · obtain ⟨-, hp⟩ := ho.of_busy hb
    exact Nat.le_of_eq (congrArg BitVec.toNat hp.symm)

end Sys2Proof.Machine
end

section
/-! OVR is sticky (R23). -/

namespace Sys2Proof.Machine

theorem EngineFrame.ovr {s t : State} (h : EngineFrame s t) : t.ovr = s.ovr := by
  cases h with
  | recordOnly => rfl
  | written => rfl
  | scalarEnd => simp

theorem CmdEffect.ovr {s t : State} (h : CmdEffect s t) (ho : s.ovr = true) : t.ovr = true := by
  cases h with
  | lost => rfl
  | _ => exact ho

/-- Of the registers HOST can write, only STATUS clears OVR, by a 1 in bit 2 (R23, R76). -/
theorem writeReg_clears_ovr {r : Reg} {v : Word} {s : State} (ho : s.ovr = true)
    (h : (writeReg r v s).ovr = false) : r = .status ∧ v.getLsbD 2 = true := by
  cases r
  case status => simpa [writeReg, ho] using h
  case coordIn | keyIn | srcAddr | dstAddr | count =>
    simp only [writeReg, guardedWrite] at h
    split at h <;> simp [ho] at h
  all_goals simp [writeReg, ho] at h

/-- STATUS stands at offset 0x010 alone (R17). -/
theorem regAt_eq_status {off : Nat} (h : regAt off = .status) : off = 0x010 := by
  unfold regAt at h
  split at h <;> cases h
  rfl

/-- The offset of an address in the window is its distance from P_BASE (R38a). -/
theorem sub_base_of_windowOffset {base addr : Word} {off : Nat} (h : windowOffset base addr = some off) :
    addr - base = BitVec.ofNat 64 off := by
  simp only [windowOffset] at h
  split at h
  · cases h
    exact BitVec.eq_of_toNat_eq (by simp)
  · cases h

/-- Settles O55: but for reset, OVR is cleared by a register write alone, and of those by STATUS's. -/
theorem overrunIsSticky : Obligations.OverrunIsSticky := by
  intro s t ht hovr hclear
  rcases step_cases ht with hr | ⟨-, hf⟩ | ho
  · exact .inl hr
  · simp [hf.ovr, hovr] at hclear
  · right
    generalize nextMove s = e at ho
    cases ho with
    | around port mem => simp [hovr] at hclear
    | command port h => simp [h.ovr hovr] at hclear
    | @register addr lanes off he hoff =>
      obtain ⟨hreg, hbit⟩ := writeReg_clears_ovr (s := { takeMove s with port := .written }) hovr hclear
      have hoff' := sub_base_of_windowOffset hoff
      rw [regAt_eq_status hreg] at hoff'
      exact ⟨addr, lanes, he, hoff', hbit⟩

end Sys2Proof.Machine
end

section
/-! The register window as HOST reads and writes it (R17 to R34), and the block after reset (R37). -/

namespace Sys2Proof.Machine

/-! ### Reads (R20, R23) -/

/-- The window holds a register at every eighth byte, and a read gives what stands there (R17). -/
theorem windowReads_eq (s : State) :
    windowReads s = (List.range 32).map fun i => (8 * i, readReg (regAt (8 * i)) s) := rfl

theorem readReg_of_mem_windowReads {s : State} {off : Nat} {v : Word} (h : (off, v) ∈ windowReads s) :
    off < 0x100 ∧ off % 8 = 0 ∧ readReg (regAt off) s = v := by
  rw [windowReads_eq, List.mem_map] at h
  obtain ⟨i, hi, heq⟩ := h
  rw [List.mem_range] at hi
  cases heq
  exact ⟨by omega, by omega, rfl⟩

/-- Settles O41: HOST's read answers the register at its offset. -/
theorem readsReturnTheRegisters : Obligations.ReadsReturnTheRegisters := by
  intro s off v hb hv hmove
  obtain ⟨hoff, h8, hreg⟩ := readReg_of_mem_windowReads hv
  rw [step_read hb hoff h8 hmove, hreg]
  rfl

/-- The one-bit fields of STATUS (R23). -/
theorem statusWord_flags (s : State) :
    (statusWord s).getLsbD 0 = s.busy ∧ (statusWord s).getLsbD 1 = s.done ∧ (statusWord s).getLsbD 2 = s.ovr ∧
      (statusWord s).getLsbD 3 = s.abrt ∧ (statusWord s).getLsbD 4 = s.vphase := by
  refine ⟨?_, ?_, ?_, ?_, ?_⟩ <;>
    · simp only [statusWord, BitVec.getLsbD_append]
      simp

/-- Above its five one-bit fields STATUS is ERR and LAST_CMD between zeros (R23). -/
theorem extractLsb'_statusWord (s : State) {start len : Nat} (h : 5 ≤ start) :
    (statusWord s).extractLsb' start len =
      (0#38 ++ s.lastCmd ++ 0#4 ++ s.err.code ++ 0#3).extractLsb' (start - 5) len := by
  unfold statusWord
  iterate 5 rw [BitVec.extractLsb'_append_eq_of_le (by omega)]
  simp only [Nat.sub_sub]

theorem statusWord_err (s : State) : (statusWord s).extractLsb' 8 4 = s.err.code := by
  rw [extractLsb'_statusWord s (by decide), BitVec.extractLsb'_append_eq_of_le (by decide),
    BitVec.extractLsb'_append_eq_of_add_le (by decide)]
  exact BitVec.extractLsb'_eq_self

theorem statusWord_lastCmd (s : State) : (statusWord s).extractLsb' 16 10 = s.lastCmd := by
  rw [extractLsb'_statusWord s (by decide)]
  iterate 3 rw [BitVec.extractLsb'_append_eq_of_le (by decide)]
  rw [BitVec.extractLsb'_append_eq_of_add_le (by decide)]
  exact BitVec.extractLsb'_eq_self

/-- The bits of STATUS that belong to no field (R23). -/
theorem statusWord_zeros (s : State) :
    (statusWord s).extractLsb' 5 3 = 0#3 ∧ (statusWord s).extractLsb' 12 4 = 0#4 ∧
      (statusWord s).extractLsb' 26 38 = 0#38 := by
  refine ⟨?_, ?_, ?_⟩ <;> rw [extractLsb'_statusWord s (by decide)]
  · rw [BitVec.extractLsb'_append_eq_of_add_le (by decide)]
    rfl
  · iterate 2 rw [BitVec.extractLsb'_append_eq_of_le (by decide)]
    rw [BitVec.extractLsb'_append_eq_of_add_le (by decide)]
    rfl
  · iterate 4 rw [BitVec.extractLsb'_append_eq_of_le (by decide)]
    rfl

/-- Settles O42, field by field. -/
theorem statusFields : Obligations.StatusFields := by
  intro s
  dsimp only
  obtain ⟨hbusy, hdone, hovr, habrt, hvphase⟩ := statusWord_flags s
  obtain ⟨hlow, hmid, hhigh⟩ := statusWord_zeros s
  refine ⟨hbusy, hdone, hovr, habrt, hvphase, hlow, ?_, hmid, statusWord_lastCmd s, hhigh⟩
  rw [statusWord_err]
  cases s.err <;> rfl

/-! ### Writes (R18, R19, R22, R23, R76) -/

/-- HOST's write of a whole word to a register other than CMD (R39, R40, R71). -/
theorem step_writeReg {s : State} {off : Nat} {v : Word} (hb : s.platform.base.toNat % 0x100 = 0)
    (ho : off < 0x100) (h8 : off % 8 = 0) (hr : regAt off ≠ .cmd)
    (h : nextMove s = .host (.write (s.platform.base + BitVec.ofNat 64 off) (bytesOf v))) :
    step s = .next (writeReg (regAt off) v { takeMove s with port := .written }) := by
  rw [step_write hb ho h8 (length_bytesOf v) h, if_neg hr, wordOfBytes_bytesOf]

/-- The registers a write of HOST can act on stand at these offsets alone (R17). -/
theorem offset_of_writable {off : Nat}
    (h : regAt off ∈ [.ctrl, .status, .cmd, .coordIn, .keyIn, .srcAddr, .dstAddr, .count]) :
    off ∈ [0x008, 0x010, 0x018, 0x020, 0x028, 0x040, 0x048, 0x050] := by
  unfold regAt at h
  split at h <;> simp at h ⊢

/-- A write to any other register is ignored (R18, R19). -/
theorem writeReg_readOnly {r : Reg}
    (h : r ∉ [.ctrl, .status, .cmd, .coordIn, .keyIn, .srcAddr, .dstAddr, .count]) (v : Word) (s : State) :
    writeReg r v s = s := by
  cases r
  case ctrl | status | cmd | coordIn | keyIn | srcAddr | dstAddr | count => exact absurd (by decide) h
  all_goals rfl

/-- Settles O43: every offset the statement leaves stands for a register that ignores writes. -/
theorem readOnlyWritesAreIgnored : Obligations.ReadOnlyWritesAreIgnored := by
  intro s off v hb ho h8 hoff hmove
  have hreg := mt offset_of_writable hoff
  have hcmd : regAt off ≠ .cmd := fun h => hreg (by simp [h])
  rw [step_writeReg hb ho h8 hcmd hmove, writeReg_readOnly hreg]

/-- Settles O44: at each of the five offsets stands an operand, whose write is guarded by BUSY. -/
theorem operandWrites : Obligations.OperandWrites := by
  intro s v off hb hmove hoff
  simp only [List.mem_cons, List.not_mem_nil, or_false] at hoff
  rcases hoff with rfl | rfl | rfl | rfl | rfl <;>
    exact step_writeReg hb (by decide) (by decide) (by decide) hmove

/-- A 1 in bit 1 clears DONE and a 1 in bit 2 clears OVR; a 0 leaves the flag as it is (R23). -/
theorem writeStatus_eq (v : Word) (s : State) : writeStatus v s =
    { s with
      done := if v.getLsbD 1 then false else s.done, ovr := if v.getLsbD 2 then false else s.ovr } := by
  have hclear : ∀ flag bit : Bool, (flag && !bit) = if bit then false else flag := by decide
  simp only [writeStatus, hclear]

/-- Settles O45: neither write passes the guard of the operands. -/
theorem controlAndStatusWrites : Obligations.ControlAndStatusWrites := by
  intro s v hb
  refine ⟨fun hmove => ?_, fun hmove => ?_⟩
  · exact step_writeReg hb (by decide) (by decide) (by decide) hmove
  · rw [step_writeReg (off := 0x010) hb (by decide) (by decide) (by decide) hmove]
    exact congrArg _ (writeStatus_eq ..)

/-! ### Reset (R37) -/

/-- Settles O48: the 32 offsets of the window, each read at reset. -/
theorem resetValues : Obligations.ResetValues := by
  refine ⟨rfl, rfl, fun off v h => ?_⟩
  have hall : ∀ p ∈ windowReads State.reset, p.2 = if p.1 = 0x000 then 0x000000013358494F#64
      else if p.1 = 0x060 then 0x00000000FFFFFFFF#64 else 0#64 := by decide
  exact hall _ h

/-- Settles O50: the block is idle at reset, and its record empty. -/
theorem invariantAtReset : Obligations.InvariantAtReset := Inv.of_idle rfl rfl rfl reset_data

end Sys2Proof.Machine
end

section
/-! What a move does to memory: ENGINE's write step stores words of one output element (R118), another agent's store is
a move of its own (R50), and nothing else writes (R38, R46). -/

namespace Sys2Proof.Machine

/-! ### The command in progress -/

@[simp] theorem runningBatch_takeMove (s : State) : runningBatch (takeMove s) = runningBatch s := rfl

theorem acceptedCommand_of_runningBatch {s : State} {fn : Func} (h : runningBatch s = some fn) :
    ∃ i f a, acceptedCommand s = some i ∧ batchForm i = some (fn, f, a) := by
  cases hac : acceptedCommand s with
  | none => simp [runningBatch, hac] at h
  | some i =>
    rw [runningBatch_eq hac, Option.map_eq_some_iff] at h
    obtain ⟨⟨_, f, a⟩, hf, rfl⟩ := h
    exact ⟨i, f, a, rfl, hf⟩

/-- ENGINE's turn while a batch command is in progress is a step of that batch (R72, R116). -/
theorem engineTurn_batch {s t : State} {fn : Func} (hb : s.busy = true) (hfn : runningBatch s = some fn)
    (h : engineTurn s = .next t) : ∃ i f, t = batchCommand i fn f s := by
  obtain ⟨i, f, a, hac, hf⟩ := acceptedCommand_of_runningBatch hfn
  refine ⟨i, f, ?_⟩
  simpa [engineTurn, hb, hac, exec_batch hf, eq_comm] using h

/-! ### The moves around ENGINE (R38, R50) -/

theorem CmdEffect.mem {s t : State} (h : CmdEffect s t) : t.mem = s.mem := by
  cases h <;> rfl

theorem hostRead_mem (addr : Word) (width : Nat) (s : State) : (hostRead addr width s).mem = s.mem := by
  unfold hostRead
  split
  · rfl
  · split <;> rfl

theorem hostWrite_mem {addr : Word} {lanes : List Byte} {s t : State} (h : hostWrite addr lanes s = .next t) :
    t.mem = s.mem := by
  unfold hostWrite at h
  split at h
  · cases h
    rfl
  · next off _ =>
    split at h
    · split at h
      · exact (cmdWrite_effect h).mem
      · cases h
        obtain ⟨_, _, _, _, _, _, _, _, hw⟩ :=
          writeReg_frame (regAt off) (wordOfBytes lanes) { s with port := .written }
        rw [hw]
    · cases h
      rfl

/-- Only ENGINE and another agent's store write memory; reset keeps it (R38, R50, R141). -/
theorem runEvent_mem {e : Event} {s t : State} (he : e ≠ .engine) (hstore : ∀ word lanes, e ≠ .memStore word lanes)
    (h : runEvent e s = .next t) : t.mem = s.mem := by
  cases e with
  | engine => exact absurd rfl he
  | memStore word lanes => exact absurd rfl (hstore word lanes)
  | host a =>
    cases a with
    | read addr width => cases h; exact hostRead_mem ..
    | write addr lanes => exact hostWrite_mem h
  | memLoad word lanes old => cases h; rfl
  | reset => cases h; rfl

/-! ### ENGINE's turn (R118) -/

/-- Memory after ENGINE's turn: as before, or, in the write pass of a batch command, with words of the output element at
the cursor stored. They are all of the element's words but where the platform refuses one (R118, R132). -/
inductive EngineMemory (s : State) : List Host.Cell → Prop where
  | kept : EngineMemory s s.mem
  | stored (hs : InPass s) (hc : s.cursor ≠ s.count.toNat) (hv : s.vphase = false) {fn : Func}
      (hfn : runningBatch s = some fn) {vs : List Word} (hlen : 8 * vs.length ≤ outSize fn) :
      EngineMemory s (storeWords (outAddr fn s s.cursor) vs s.mem)

/-- An output element is as long as the words of the element function (R79, R112). -/
theorem outSize_eq_length (fn : Func) (f : Bool) (w : Word) : outSize fn = 8 * (elem fn f w).outs.length := by
  rw [elem_outs_length, outSize]
  split <;> rfl

theorem scalarCommand_mem (i : Instr) (fn : Func) (f : Bool) {s : State} (hb : s.busy = true) :
    (scalarCommand i fn f s).mem = s.mem := by
  rcases scalarCommand_busy_cases i fn f s hb with ⟨-, h⟩ | ⟨-, ⟨-, h⟩ | ⟨-, h⟩⟩ <;> rw [h] <;> simp

theorem validateStep_mem (fn : Func) (f : Bool) (i : Nat) (s : State) : (validateStep fn f i s).mem = s.mem := by
  rcases validateStep_cases fn f i s with ⟨-, h⟩ | ⟨-, ⟨-, h⟩ | ⟨-, h⟩⟩ <;> rw [h] <;> simp

theorem writeStep_memory {fn : Func} (f : Bool) {s : State} (hs : InPass s) (hc : s.cursor ≠ s.count.toNat)
    (hv : s.vphase = false) (hfn : runningBatch s = some fn) :
    EngineMemory s (writeStep fn f s.cursor s).mem := by
  have hlen := outSize_eq_length fn f (readWord s.mem (inAddr s s.cursor))
  rcases writeStep_cases fn f s.cursor s with ⟨-, h⟩ | ⟨-, ⟨n, hn, h⟩ | h⟩ <;> rw [h]
  · exact .kept
  · exact .stored hs hc hv hfn (by rw [List.length_take]; omega)
  · rw [elementWritten_mem]
    exact .stored hs hc hv hfn (Nat.le_of_eq hlen.symm)

theorem batchCommand_memory (i : Instr) {fn : Func} (f : Bool) {s : State} (hb : s.busy = true)
    (hfn : runningBatch s = some fn) : EngineMemory s (batchCommand i fn f s).mem := by
  rcases batchCommand_busy_cases i fn f s hb with
    ⟨-, h⟩ | ⟨-, -, -, h⟩ | ⟨-, -, -, h⟩ | ⟨-, -, -, h⟩ | ⟨ha, hc, hv, h⟩ <;> rw [h]
  · exact .kept
  · exact .kept
  · exact .kept
  · rw [validateStep_mem]
    exact .kept
  · exact writeStep_memory f ⟨hb, ha, by simp [hfn]⟩ hc hv hfn

theorem engineTurn_memory {s t : State} (h : engineTurn s = .next t) : EngineMemory s t.mem := by
  rcases engineTurn_cases h with ⟨-, rfl⟩ | ⟨hb, i, fn, f, -, -, rfl⟩ | ⟨hb, hr, -⟩
  · exact .kept
  · rw [scalarCommand_mem i fn f hb]
    exact .kept
  · obtain ⟨fn, hfn⟩ := Option.ne_none_iff_exists'.mp hr
    obtain ⟨i, f, rfl⟩ := engineTurn_batch hb hfn h
    exact batchCommand_memory i f hb hfn

/-! ### The place of the output words (R112, R113) -/

/-- The output elements below an index lie before the one at it, and that one ends in the range (R112). -/
theorem outSize_mul_succ_le (fn : Func) {n count : Nat} (hn : n < count) :
    outSize fn * n + outSize fn ≤ outSize fn * count :=
  Nat.mul_le_mul_left (outSize fn) hn

/-- An element of the output is a whole number of words (R112). -/
theorem outSize_mod_eight (fn : Func) : outSize fn % 8 = 0 := by
  unfold outSize
  split <;> rfl

/-- Once accepted, no address of an output word wraps around the memory space (R112, R113). -/
theorem toNat_outWord {fn : Func} {s : State} (h : batchAccepted fn s) {n j : Nat} (hn : n < s.count.toNat)
    (hj : 8 * j < outSize fn) :
    (outAddr fn s n + BitVec.ofNat 64 (8 * j)).toNat = s.dstAddr.toNat + outSize fn * n + 8 * j := by
  obtain ⟨-, -, -, hend, -⟩ := h
  have hle := outSize_mul_succ_le fn hn
  rw [outAddr, BitVec.toNat_add, BitVec.toNat_add, BitVec.toNat_ofNat, BitVec.toNat_ofNat]
  omega

/-- Output words are aligned (R112, R113). -/
theorem outWord_aligned {fn : Func} {s : State} (h : batchAccepted fn s) {n j : Nat} (hn : n < s.count.toNat)
    (hj : 8 * j < outSize fn) : (outAddr fn s n + BitVec.ofNat 64 (8 * j)).toNat % 8 = 0 := by
  rw [toNat_outWord h hn hj]
  obtain ⟨-, hdst, -⟩ := h
  have hstart : outSize fn * n % 8 = 0 := by rw [Nat.mul_mod, outSize_mod_eight, Nat.zero_mul, Nat.zero_mod]
  omega

/-- The byte lanes of an output word lie in its element (R112). -/
theorem laneAddr_outWord {fn : Func} {s : State} (h : batchAccepted fn s) {n j l : Nat} (hn : n < s.count.toNat)
    (hj : 8 * j < outSize fn) (hl : l < 8) :
    laneAddr (outAddr fn s n + BitVec.ofNat 64 (8 * j)) l = s.dstAddr.toNat + outSize fn * n + 8 * j + l := by
  rw [laneAddr_of_aligned (outWord_aligned h hn hj) hl, toNat_outWord h hn hj]

/-- Storing words of one output element changes bytes of that element alone (R112, R118). -/
theorem mem_element_of_stored {fn : Func} {s : State} (h : batchAccepted fn s) {n : Nat} (hn : n < s.count.toNat)
    {vs : List Word} (hlen : 8 * vs.length ≤ outSize fn) {m : List Host.Cell} {k : Nat}
    (hk : readByte (storeWords (outAddr fn s n) vs m) k ≠ readByte m k) :
    s.dstAddr.toNat + outSize fn * n ≤ k ∧ k < s.dstAddr.toNat + outSize fn * (n + 1) := by
  by_contra hout
  refine hk (readByte_storeWords_other fun j l hj hl heq => hout ?_)
  rw [laneAddr_outWord h hn (by omega) hl] at heq
  rw [Nat.mul_succ]
  omega

/-- An output element lies in the output range (R112). -/
theorem inOutput_of_element {fn : Func} {s : State} {n k : Nat} (hn : n < s.count.toNat)
    (hlo : s.dstAddr.toNat + outSize fn * n ≤ k) (hhi : k < s.dstAddr.toNat + outSize fn * (n + 1)) :
    inOutput fn s k := by
  have hle := outSize_mul_succ_le fn hn
  rw [Nat.mul_succ] at hhi
  exact ⟨by omega, by omega⟩

/-- The output range of an accepted batch and its input range share no byte (R113). -/
theorem not_inInput_of_inOutput {fn : Func} {s : State} (h : batchAccepted fn s) {k : Nat} (hk : inOutput fn s k) :
    ¬ (s.srcAddr.toNat ≤ k ∧ k < s.srcAddr.toNat + 8 * s.count.toNat) := by
  obtain ⟨-, -, -, -, hdisjoint⟩ := h
  obtain ⟨hlo, hhi⟩ := hk
  omega

/-- Settles O57: with stores of other agents set aside ENGINE alone writes memory, and it stores words of the output
element at the cursor, which acceptance keeps apart from the input. -/
theorem memoryChangesOnlyInTheOutputRange : Obligations.MemoryChangesOnlyInTheOutputRange := by
  intro s t hinv ht hstore k hk
  by_cases he : nextMove s = .engine
  · rw [step_engine he] at ht
    have hmem := engineTurn_memory ht
    generalize t.mem = m at hmem hk
    cases hmem with
    | kept => exact absurd rfl hk
    | @stored hs hc hv fn hfn vs hlen =>
      have hacc : batchAccepted fn s := hinv.batch_accepted hs.busy fn hfn
      have hlt : s.cursor < s.count.toNat := hs.cursor_lt ((takeMove_inv hinv).run hs.busy) hc
      obtain ⟨hlo, hhi⟩ := mem_element_of_stored hacc hlt hlen hk
      have hout := inOutput_of_element hlt hlo hhi
      exact ⟨he, hs.busy, hs.abrt, hv, hlt, fn, hfn, hout, hlo, hhi, not_inInput_of_inOutput hacc hout⟩
  · have hkept : t.mem = s.mem := runEvent_mem (s := takeMove s) he hstore ht
    exact absurd (by rw [hkept]) hk

end Sys2Proof.Machine
end

section
/-! Races with a batch command (R52): what another agent reads from an output word. -/

namespace Sys2Proof.Machine

/-! ### The command word of a batch (R59, R65) -/

/-- What fields decode to, ABORT aside, is a command of the function FUNC names, in the form B says (R65, R66). -/
theorem decodeFields_eq_ok {c : CmdFields} {i : Instr} (h : decodeFields c = .ok i) (hi : i ≠ .abort) :
    ∃ fn, funcOfCode c.func = some fn ∧ i = if c.b then batchInstr fn c.f c.a else scalarInstr fn c.f := by
  unfold decodeFields at h
  split at h
  · cases h; exact absurd rfl hi
  split at h
  · cases h
  split at h
  · cases h
  next fn hfn =>
  split at h
  · cases h
  split at h
  · cases h
  exact ⟨fn, hfn, by simpa using h.symm⟩

theorem batchForm_batchInstr {fn fn' : Func} {f f' a a' : Bool}
    (h : batchForm (batchInstr fn f a) = some (fn', f', a')) : fn' = fn := by
  cases fn <;> cases h <;> rfl

theorem batchForm_scalarInstr (fn : Func) (f : Bool) : batchForm (scalarInstr fn f) = none := by
  cases fn <;> rfl

/-- While a batch command is in progress, LAST_CMD holds its function and B = 1 (R23, R59). -/
theorem lastCmd_of_runningBatch {s : State} {fn : Func} (h : runningBatch s = some fn) :
    funcOfCode (s.lastCmd.extractLsb' 0 7) = some fn ∧ s.lastCmd.getLsbD 7 = true := by
  obtain ⟨i, f, a, hac, hf⟩ := acceptedCommand_of_runningBatch h
  have hdec : decodeFields (fieldsOf (s.lastCmd.setWidth 64)) = .ok i := by
    unfold acceptedCommand at hac
    split at hac <;> cases hac
    assumption
  obtain ⟨fn', hfunc, rfl⟩ := decodeFields_eq_ok hdec (acceptedCommand_ne_abort hac)
  have hfield : (fieldsOf (s.lastCmd.setWidth 64)).func = s.lastCmd.extractLsb' 0 7 :=
    BitVec.eq_of_getLsbD_eq fun n hn => by simp [fieldsOf, hn, show n < 64 by omega]
  have hbit : (fieldsOf (s.lastCmd.setWidth 64)).b = s.lastCmd.getLsbD 7 := by simp [fieldsOf]
  rw [hfield] at hfunc
  rw [hbit] at hf
  cases hB : s.lastCmd.getLsbD 7 with
  | false =>
    rw [hB, if_neg Bool.false_ne_true, batchForm_scalarInstr] at hf
    cases hf
  | true =>
    rw [hB, if_pos rfl] at hf
    exact ⟨batchForm_batchInstr hf ▸ hfunc, rfl⟩

/-! ### Loads of another agent (R43, R52) -/

theorem step_memLoad {s : State} {word : BitVec 61} {lanes : List (Fin 8)} {old : Bool}
    (h : nextMove s = .memLoad word lanes old) :
    step s = .next { takeMove s with port := .data (lanes.map fun l => memLoadByte old s (wordLane word l)) } := by
  rw [step_eq, h]
  rfl

/-- The lanes of an aligned word are the lanes of the word its upper 61 address bits name (R43). -/
theorem wordLane_of_aligned {addr : Word} (ha : addr.toNat % 8 = 0) (l : Fin 8) :
    wordLane (addr.extractLsb' 3 61) l = laneAddr addr l.val := by
  have := addr.isLt
  rw [laneAddr_of_aligned ha l.isLt, wordLane, BitVec.extractLsb'_toNat, Nat.shiftRight_eq_div_pow]
  omega

/-- While a batch command is in progress, its output range is where reads can race with it (R52, R112). -/
theorem inOutputRange_eq_true {s : State} {fn : Func} {k : Nat} (hb : s.busy = true)
    (hfn : runningBatch s = some fn) (hk : inOutput fn s k) : inOutputRange k s = true := by
  obtain ⟨hfunc, hbit⟩ := lastCmd_of_runningBatch hfn
  obtain ⟨hlo, hhi⟩ := hk
  simp [inOutputRange, hfunc, hbit, hb, hlo, hhi]

/-- A read of a byte of the output range gives the byte of before the command or the present one, as the move
chooses (R52). -/
theorem memLoadByte_inOutput {s : State} {fn : Func} {k : Nat} (hb : s.busy = true)
    (hfn : runningBatch s = some fn) (hk : inOutput fn s k) (old : Bool) :
    memLoadByte old s k = readByte (if old then s.memAtIssue else s.mem) k := by
  rw [memLoadByte, inOutputRange_eq_true hb hfn hk]
  cases old <;> rfl

/-- The byte lanes of an output word lie in the output range (R112). -/
theorem inOutput_outWord {fn : Func} {s : State} (h : batchAccepted fn s) {n j l : Nat} (hn : n < s.count.toNat)
    (hj : 8 * j < outSize fn) (hl : l < 8) :
    inOutput fn s (laneAddr (outAddr fn s n + BitVec.ofNat 64 (8 * j)) l) := by
  have hle := outSize_mul_succ_le fn hn
  have hwords := outSize_mod_eight fn
  rw [laneAddr_outWord h hn hj hl]
  exact ⟨by omega, by omega⟩

/-- A lane read from an output word is that lane of the word of before the command or of the present one (R52). -/
theorem memLoadByte_outWord {s : State} {fn : Func} (hinv : Inv s) (hb : s.busy = true)
    (hfn : runningBatch s = some fn) {n j : Nat} (hn : n < s.count.toNat) (hj : 8 * j < outSize fn)
    {addr : Word} (haddr : addr = outAddr fn s n + BitVec.ofNat 64 (8 * j)) (old : Bool) (l : Fin 8) :
    memLoadByte old s (wordLane (addr.extractLsb' 3 61) l) =
      laneOf (if old then readWord s.memAtIssue addr else readWord s.mem addr) l.val := by
  subst haddr
  have hacc := hinv.batch_accepted hb fn hfn
  rw [wordLane_of_aligned (outWord_aligned hacc hn hj),
    memLoadByte_inOutput hb hfn (inOutput_outWord hacc hn hj l.isLt), ← laneOf_readWord l.isLt]
  cases old <;> rfl

/-- Settles O59, lane by lane. -/
theorem racingReadsGiveOldOrNew : Obligations.RacingReadsGiveOldOrNew := by
  intro s fn n j lanes old hinv hb hfn hn hj addr hmove
  have hlane := memLoadByte_outWord hinv hb hfn hn hj (addr := addr) rfl old
  rw [step_memLoad hmove, List.map_congr_left fun l _ => hlane l]
  rfl

end Sys2Proof.Machine
end

section
/-! Malformed accesses to the register window (R39, R133). -/

namespace Sys2Proof.Machine

/-- In a window at a multiple of 0x100, an access of another width or at another offset is malformed (R39). -/
theorem goodAccess_eq_false {base : Word} {off width : Nat} (hb : base.toNat % 0x100 = 0)
    (h : width ≠ 8 ∨ off % 8 ≠ 0) : goodAccess (base + BitVec.ofNat 64 off) width = false := by
  rw [goodAccess_add _ _ _ hb]
  rcases h with h | h <;> simp [h]

/-- Settles O46: a read and a write find the address in the window, and the access not well formed. -/
theorem malformedAccessesChangeNothing : Obligations.MalformedAccessesChangeNothing := by
  intro s off width lanes hb ho
  refine ⟨fun hmove hbad => ?_, fun hmove hbad => ?_⟩
  · rw [step_eq, hmove]
    simp [runEvent, hostRead, windowOffset_add _ _ ho, goodAccess_eq_false hb hbad]
  · rw [step_eq, hmove]
    simp [runEvent, hostWrite, windowOffset_add _ _ ho, goodAccess_eq_false hb hbad]

end Sys2Proof.Machine
end

section
/-! The decoder and the encoder (R59, R65, R66): which fields decode to which command, the legal values, and that a
command and its word determine each other. -/

namespace Sys2Proof

/-! ### The decoder, on fields -/

/-- Fields that name a function, with modifiers its row allows: everything `legal` of R66 asks, ABORT aside. -/
structure CmdFields.Names (c : CmdFields) (fn : Func) : Prop where
  reserved : c.reserved = 0#54
  func : funcOfCode c.func = some fn
  failBit : c.f = true → fn.isNeighbor = true
  batchPolicy : c.a = true → c.b = true

/-- The row of the map that fields name, given their function (R65). -/
def CmdFields.instrOf (c : CmdFields) (fn : Func) : Instr :=
  if c.b then batchInstr fn c.f c.a else scalarInstr fn c.f

theorem CmdFields.Names.ne_abort {c : CmdFields} {fn : Func} (h : c.Names fn) : c ≠ Instr.abort.fields := by
  rintro rfl
  exact absurd h.func (by simp [Instr.fields, funcOfCode])

theorem CmdFields.Names.decodeFields_eq {c : CmdFields} {fn : Func} (h : c.Names fn) :
    decodeFields c = .ok (c.instrOf fn) := by
  have hf : (c.f && !fn.isNeighbor) = false := by simpa using h.failBit
  have ha : (c.a && !c.b) = false := by simpa using h.batchPolicy
  have habort : c ≠ { func := 0x7F#7, b := true, f := false, a := false, reserved := 0#54 } := h.ne_abort
  simp [decodeFields, CmdFields.instrOf, habort, h.reserved, h.func, hf, ha]

/-- Everything the decoder accepts: ABORT, and the fields that name a function (R65, R66). -/
theorem decodeFields_ok_cases {c : CmdFields} {i : Instr} (h : decodeFields c = .ok i) :
    (c = Instr.abort.fields ∧ i = .abort) ∨ ∃ fn, c.Names fn ∧ i = c.instrOf fn := by
  unfold decodeFields at h
  split at h
  · next hc => exact .inl ⟨hc, by simpa using h.symm⟩
  split at h
  · cases h
  next hr =>
  split at h
  · cases h
  next fn hfn =>
  split at h
  · cases h
  next hf =>
  split at h
  · cases h
  next ha =>
  exact .inr ⟨fn, ⟨by simpa using hr, hfn, by simpa using hf, by simpa using ha⟩, (Except.ok.inj h).symm⟩

/-! ### The legal values (R66) -/

/-- F is allowed with the functions 8, 9 and 10, which are the neighbor functions (R59, R65). -/
theorem isNeighbor_iff_code (fn : Func) : fn.isNeighbor = true ↔ 8 ≤ fn.code.toNat ∧ fn.code.toNat ≤ 10 := by
  cases fn <;> decide

theorem CmdFields.isAbort_iff (c : CmdFields) : c.isAbort = true ↔ c = Instr.abort.fields := by
  obtain ⟨func, b, f, a, reserved⟩ := c
  simp [CmdFields.isAbort, Instr.fields, and_assoc]

/-- The checks of WellFormed.lean as propositions (R59, R66). -/
theorem CmdFields.wellFormed_iff_checks (c : CmdFields) :
    c.wellFormed = true ↔ c.isAbort = true ∨
      (c.reserved = 0#54 ∧ (1 ≤ c.func.toNat ∧ c.func.toNat ≤ 10) ∧
        (c.f = true → 8 ≤ c.func.toNat ∧ c.func.toNat ≤ 10) ∧ (c.a = true → c.b = true)) := by
  simp [imp_iff_not_or, CmdFields.wellFormed, CmdFields.reservedClear, CmdFields.funcDefined,
    CmdFields.failBitAllowed, CmdFields.batchPolicyAllowed, and_assoc]

/-- The fields that pass the checks are ABORT's and those that name a function. -/
theorem CmdFields.wellFormed_iff (c : CmdFields) :
    c.wellFormed = true ↔ c = Instr.abort.fields ∨ ∃ fn, c.Names fn := by
  rw [c.wellFormed_iff_checks, c.isAbort_iff]
  refine or_congr_right ⟨fun ⟨hr, hfunc, hf, ha⟩ => ?_, fun ⟨fn, h⟩ => ?_⟩
  · obtain ⟨fn, hfn⟩ := Option.isSome_iff_exists.mp ((funcOfCode_isSome c.func).mpr hfunc)
    rw [funcOfCode_eq_some hfn, ← isNeighbor_iff_code] at hf
    exact ⟨fn, hr, hfn, hf, ha⟩
  · have hf := h.failBit
    rw [isNeighbor_iff_code, ← funcOfCode_eq_some h.func] at hf
    exact ⟨h.reserved, (funcOfCode_isSome c.func).mp (by simp [h.func]), hf, h.batchPolicy⟩

/-- The decoder accepts the fields that pass the checks (R66). -/
theorem exists_decodeFields_iff (c : CmdFields) : (∃ i, decodeFields c = .ok i) ↔ c.wellFormed = true := by
  rw [c.wellFormed_iff]
  refine ⟨fun ⟨i, h⟩ => ?_, ?_⟩
  · rcases decodeFields_ok_cases h with ⟨hc, -⟩ | ⟨fn, hn, -⟩
    · exact .inl hc
    · exact .inr ⟨fn, hn⟩
  · rintro (rfl | ⟨fn, hn⟩)
    · exact ⟨_, Machine.decodeFields_fields .abort⟩
    · exact ⟨_, hn.decodeFields_eq⟩

theorem eq_abort_iff (c : Word) : c = 0xFF#64 ↔ (fieldsOf c).isAbort = true := by
  rw [CmdFields.isAbort_iff]
  refine ⟨?_, fun h => ?_⟩
  · rintro rfl
    rfl
  · rw [← wordOf_fieldsOf c, h]
    rfl

/-- The fields of a word pass the checks exactly when the word is legal in the spec's own words (R66). -/
theorem legal_iff_wellFormed (c : Word) : legal c ↔ (fieldsOf c).wellFormed = true := by
  have hrange (n : Nat) : n ∈ [8, 9, 10] ↔ 8 ≤ n ∧ n ≤ 10 := by
    simp only [List.mem_cons, List.not_mem_nil, or_false]
    omega
  rw [legal, eq_abort_iff, hrange, CmdFields.wellFormed_iff_checks]
  simp only [imp_iff_not_or, Bool.not_eq_true, and_assoc]
  rfl

/-- Settles O1: both sides say that the fields of the word pass the checks of WellFormed.lean. -/
theorem decodeAcceptsExactlyTheLegalValues : Obligations.DecodeAcceptsExactlyTheLegalValues := by
  intro c
  rw [legal_iff_wellFormed]
  exact exists_decodeFields_iff (fieldsOf c)

/-! ### The encoder (R65) -/

theorem fields_scalarInstr {fn : Func} {f : Bool} (h : f = true → fn.isNeighbor = true) :
    (scalarInstr fn f).fields = scalarFields fn f := by
  revert h
  cases fn <;> cases f <;> decide

theorem fields_batchInstr {fn : Func} {f a : Bool} (h : f = true → fn.isNeighbor = true) :
    (batchInstr fn f a).fields = batchFields fn f a := by
  revert h
  cases fn <;> cases f <;> cases a <;> decide

/-- No bit of the fields that name a row is lost in the row: no other fields name it (R65). -/
theorem CmdFields.Names.fields_instrOf {c : CmdFields} {fn : Func} (h : c.Names fn) :
    (c.instrOf fn).fields = c := by
  obtain ⟨func, b, f, a, reserved⟩ := c
  obtain ⟨hr, hfunc, hf, ha⟩ := h
  obtain rfl : reserved = 0#54 := hr
  obtain rfl : func = fn.code := funcOfCode_eq_some hfunc
  cases b with
  | false =>
    obtain rfl : a = false := by simpa using ha
    exact fields_scalarInstr hf
  | true => exact fields_batchInstr hf

theorem fields_of_decodeFields {c : CmdFields} {i : Instr} (h : decodeFields c = .ok i) : i.fields = c := by
  rcases decodeFields_ok_cases h with ⟨rfl, rfl⟩ | ⟨fn, hn, rfl⟩
  · rfl
  · exact hn.fields_instrOf

theorem decode_encode (i : Instr) : decode (encode i) = .ok i := by
  rw [decode, encode, fieldsOf_wordOf, Machine.decodeFields_fields]

theorem encode_of_decode {c : Word} {i : Instr} (h : decode c = .ok i) : encode i = c := by
  rw [encode, fields_of_decodeFields h, wordOf_fieldsOf]

/-- Settles O2: each command's fields decode to it, and fields that decode to a command are the command's. -/
theorem decodeAndEncodeAgree : Obligations.DecodeAndEncodeAgree :=
  ⟨decode_encode, fun _ _ => encode_of_decode⟩

/-- Settles O3: each word of the map is the encoding of its command. -/
theorem specWordsDecode : Obligations.SpecWordsDecode := by
  intro row hrow
  have hencode : encode row.2 = row.1 := by
    revert row
    decide
  rw [← hencode]
  exact decode_encode row.2

end Sys2Proof
end

section
/-! The parity check (R98, R100). -/

namespace Sys2Proof.Machine

/-- The low bit of a coordinate is its parity (R98). -/
theorem getLsbD_zero_eq_bodd {w : Nat} (v : BitVec w) : v.getLsbD 0 = v.toNat.bodd := by
  rw [BitVec.getLsbD, Nat.testBit_zero, Nat.mod_two_of_bodd]
  cases v.toNat.bodd <;> rfl

/-- The exclusive or of the low bits is the parity of the sum (R98). -/
theorem evenCell_iff (p : Coords) : evenCell p = true ↔ (p.x.toNat + p.y.toNat + p.z.toNat) % 2 = 0 := by
  rw [evenCell, getLsbD_zero_eq_bodd, getLsbD_zero_eq_bodd, getLsbD_zero_eq_bodd, ← Nat.bodd_add, ← Nat.bodd_add,
    Nat.mod_two_of_bodd]
  cases (p.x.toNat + p.y.toNat + p.z.toNat).bodd <;> decide

/-- The element of PCHK by the sum of the coordinates: the words are those R63 writes out (R100). -/
theorem elem_pchk (f : Bool) (w : Word) : elem .pchk f w =
    if ((w.extractLsb' 0 16).toNat + (w.extractLsb' 16 16).toNat + (w.extractLsb' 32 16).toNat) % 2 = 0 then
      ⟨[0x1#64], .ok⟩
    else ⟨[0x0200000000000000#64], .parityViolation⟩ := by
  simp only [elem, elemPchk, evenCell_iff]
  rfl

/-- With no abort pending, ENGINE's step of a scalar command completes it (R72, R80). -/
theorem scalarCommand_completes (i : Instr) (fn : Func) (f : Bool) {s : State} (hb : s.busy = true)
    (ha : s.abrt = false) : scalarCommand i fn f s = scalarComplete fn f s := by
  simp [scalarCommand, engineStep, hb, ha]

/-- Settles O17: the completion of a scalar command with the element of PCHK, whose status the sum decides. -/
theorem pchkReportsTheParityOfTheSum : Obligations.PchkReportsTheParityOfTheSum := by
  intro s hb ha
  have hoperand : scalarOperand .pchk s = s.coordIn := rfl
  rw [exec_scalar (f := false) rfl, scalarCommand_completes _ _ _ hb ha, scalarComplete, hoperand, elem_pchk]
  dsimp only
  split
  · rfl
  · rfl

end Sys2Proof.Machine
end

section
/-! A value written to CMD that is no command (R67, R75). -/

namespace Sys2Proof.Machine

/-- HOST's write of a value to CMD, as a step (R24, R73). -/
theorem step_cmdWrite {s : State} {c : Word} (hb : s.platform.base.toNat % 0x100 = 0)
    (h : nextMove s = .host (.write (s.platform.base + 0x18#64) (bytesOf c))) :
    step s = cmdWrite c { takeMove s with port := .written } := by
  have hreg : regAt 0x18 = .cmd := rfl
  rw [step_write (off := 0x18) hb (by decide) (by decide) (length_bytesOf c) h, if_pos hreg, wordOfBytes_bytesOf]

/-- An idle block rejects an illegal value (R67, R73, R75). -/
theorem cmdWrite_illegal {s : State} {c : Word} (hb : s.busy = false) (hc : ¬ legal c) :
    cmdWrite c s = .next (reject .illegalCommand (prologue c s)) := by
  have habort : c ≠ 0xFF#64 := fun h => hc (.inl h)
  rw [cmdWrite, if_neg habort, hb, if_neg Bool.false_ne_true]
  split
  · next i hi => exact absurd ((decodeAcceptsExactlyTheLegalValues c).mp ⟨i, hi⟩) hc
  · rfl

/-- Settles O9: the write reaches CMD, and the rejection is the prologue with DONE and the code. -/
theorem illegalValuesAreRejected : Obligations.IllegalValuesAreRejected := by
  intro s c hbase hb hc hmove
  have hidle : ({ takeMove s with port := .written } : State).busy = false := hb
  rw [step_cmdWrite hbase hmove, cmdWrite_illegal hidle hc]
  have hlast : c.extractLsb' 0 10 = c.setWidth 10 := BitVec.eq_of_toNat_eq rfl
  rw [prologue, hlast]
  rfl

end Sys2Proof.Machine
end

section
/-! The machine never stops (R138). -/

namespace Sys2Proof.Machine

/-- Settles O52: whatever the schedule, so under P_SCHED too. -/
theorem theMachineNeverStops : Obligations.TheMachineNeverStops :=
  fun _ h => stepOf_next Config.schedule h

end Sys2Proof.Machine
end

section
/-! The writes of CMD that are commands, and ENGINE's turn (R71 to R73, R76). -/

namespace Sys2Proof.Machine

/-- Settles O4: the write reaches CMD, where ABORT is told by its value and any other command by the decoder. -/
theorem stepRunsTheCommandWritten : Obligations.StepRunsTheCommandWritten := by
  intro s c i hbase hstate hdec hmove
  rw [step_cmdWrite hbase hmove, cmdWrite]
  by_cases hc : c = 0xFF#64
  · have habort : decode c = .ok .abort := hc ▸ decode_encode .abort
    obtain rfl : i = .abort := Except.ok.inj (hdec.symm.trans habort)
    rw [if_pos hc]
  · have hidle : s.busy = false := hstate.resolve_right hc
    rw [if_neg hc]
    simp [hidle, hdec]

/-- Settles O5: LAST_CMD names a command ENGINE can run. -/
theorem engineStepRunsTheAcceptedCommand : Obligations.EngineStepRunsTheAcceptedCommand := by
  intro s i hb hi hdec hmove
  have hac : acceptedCommand (takeMove s) = some i := by
    cases i
    case abort => exact absurd rfl hi
    all_goals simp [acceptedCommand, hdec]
  rw [step_engine hmove, engineTurn, hac, takeMove_busy, if_pos hb]

/-- Settles O6: what is left of the step is the move taken from the schedule. -/
theorem engineIsIdleWhenNotBusy : Obligations.EngineIsIdleWhenNotBusy := by
  intro s hb hmove
  rw [step_engine hmove, engineTurn, takeMove_busy, if_neg (by simp [hb])]
  rfl

/-- Settles O10: the write reaches CMD, which tells ABORT by its value before it looks at BUSY. -/
theorem commandsWrittenWhileBusyAreLost : Obligations.CommandsWrittenWhileBusyAreLost := by
  intro s c hbase hb hc hmove
  rw [step_cmdWrite hbase hmove, cmdWrite, if_neg hc]
  exact if_pos hb

end Sys2Proof.Machine
end

section
/-! ABORT (R72, R82). -/

namespace Sys2Proof.Machine

/-- Settles O11, by the two cases of BUSY. -/
theorem abortSetsThePendingAbort : Obligations.AbortSetsThePendingAbort := by
  intro s
  refine ⟨fun hb => ?_, fun hb => ?_⟩ <;> simp [exec, execAbort, hb]

/-- ENGINE takes a pending abort before anything else, whatever the command in progress would do (R72). -/
theorem engineStep_abort (body : State → State) {s : State} (ha : s.abrt = true) :
    engineStep body s = raiseError .aborted (some s.progress) s :=
  if_pos ha

/-- Settles O12: a scalar and a batch command both take the pending abort in their ENGINE step. -/
theorem pendingAbortEndsEveryCommand : Obligations.PendingAbortEndsEveryCommand := by
  intro i s hi hb ha
  rcases instr_forms i with ⟨fn, f, hf⟩ | ⟨fn, f, a, hf⟩ | rfl
  · rw [exec_scalar hf, scalarCommand, if_pos hb, engineStep_abort _ ha]
    rfl
  · rw [exec_batch hf, batchCommand, if_pos hb, engineStep_abort _ ha]
    rfl
  · exact absurd rfl hi

end Sys2Proof.Machine
end

section
/-! The issue of a command on an idle block (R73 to R75, R113). -/

namespace Sys2Proof.Machine

/-- STATUS.LAST_CMD keeps bits [9:0] of the value written (R23, R74). -/
theorem extractLsb'_zero_ten (c : Word) : c.extractLsb' 0 10 = c.setWidth 10 :=
  BitVec.eq_of_toNat_eq rfl

theorem exec_scalar_idle {i : Instr} {fn : Func} {f : Bool} {s : State} (hf : scalarForm i = some (fn, f))
    (hb : s.busy = false) : exec i s = .next (issueScalar i s) := by
  rw [exec_scalar hf, scalarCommand, hb, if_neg Bool.false_ne_true]

theorem exec_batch_idle {i : Instr} {fn : Func} {f a : Bool} {s : State} (hf : batchForm i = some (fn, f, a))
    (hb : s.busy = false) : exec i s = .next (issueBatch i fn s) := by
  rw [exec_batch hf, batchCommand, hb, if_neg Bool.false_ne_true]

/-- An accepted scalar command has no validation pass (R73). -/
theorem accept_scalar {i : Instr} {fn : Func} {f : Bool} (hf : scalarForm i = some (fn, f)) (s : State) :
    accept (encode i) s = { s with busy := true, cursor := 0, vphase := false, memAtIssue := s.mem } := by
  rw [accept, encode_scalar_bits hf, Bool.false_and]

/-- An accepted batch command starts with the validation pass where A = 1 (R73). -/
theorem accept_batch {i : Instr} {fn : Func} {f a : Bool} (hf : batchForm i = some (fn, f, a)) (s : State) :
    accept (encode i) s = { s with busy := true, cursor := 0, vphase := a, memAtIssue := s.mem } := by
  obtain ⟨hB, hA⟩ := encode_batch_bits hf
  rw [accept, hB, hA, Bool.true_and]

/-- Settles O7: the issue is the prologue, then acceptance. -/
theorem scalarCommandsAreAccepted : Obligations.ScalarCommandsAreAccepted := by
  intro i fn f s hf hb
  rw [exec_scalar_idle hf hb, issueScalar, accept_scalar hf, prologue, extractLsb'_zero_ten]
  rfl

/-- The functions with 14 words per element are NBRC, NBRM and NBRH (R65, R112). -/
theorem outSize_eq_ite (fn : Func) : outSize fn = if fn = .nbrc ∨ fn = .nbrm ∨ fn = .nbrh then 112 else 8 := by
  cases fn <;> rfl

/-- Settles O8: the checks of `batchCheck` one after the other, each with its outcome. -/
theorem batchCommandsAreCheckedThenAccepted : Obligations.BatchCommandsAreCheckedThenAccepted := by
  intro i fn f a s hf hb n src dst osz p
  have hosz : osz = outSize fn := (outSize_eq_ite fn).symm
  have hp : prologue (encode i) s = p := by
    rw [prologue, extractLsb'_zero_ten]
    rfl
  rw [exec_batch_idle hf hb, issueBatch, accept_batch hf, hp, hosz, batchCheck]
  dsimp only [n, src, dst]
  split_ifs
  · rfl
  · rfl
  · rfl
  · rfl

end Sys2Proof.Machine
end

section
/-! A scalar command from its issue to its completion (R73, R80, R149). -/

namespace Sys2Proof.Machine

/-- A scalar command completes with the status of its element in ERR and no element index (R74, R80). -/
theorem scalarComplete_eq (fn : Func) (f : Bool) {s : State} (he : s.err = .ok) :
    scalarComplete fn f s = finish
      { putResults fn (elem fn f (scalarOperand fn s)).outs s with err := (elem fn f (scalarOperand fn s)).st } := by
  rw [scalarComplete]
  dsimp only
  split
  · next h => rw [h, ← he, ← putResults_err fn (elem fn f (scalarOperand fn s)).outs s]
  · rfl

/-- Where an element is one word, RESULT gets it (R79, R80). -/
theorem elem_outs_single {fn : Func} (hn : fn.isNeighbor = false) (f : Bool) (w : Word) :
    (elem fn f w).outs = [(elem fn f w).outs.getD 0 0#64] := by
  have hlen : (elem fn f w).outs.length = 1 := by simp [elem_outs_length, hn]
  obtain ⟨v, hv⟩ := List.length_eq_one_iff.mp hlen
  simp [hv]

/-- NBR0 to NBR13 hold fourteen words in their order (R80). -/
theorem toList_nbrOf {outs : List Word} (h : outs.length = 14) : (nbrOf outs).toList = outs := by
  refine List.ext_getElem (by simp [h]) fun k _ hk => ?_
  simp only [nbrOf, Vector.getElem_toList, Vector.getElem_ofFn, List.getD_eq_getElem _ _ hk]

/-- Settles O19: after the issue nothing is pending, so ENGINE's one step completes the command. -/
theorem scalarCommandsFinishInOneEngineStep : Obligations.ScalarCommandsFinishInOneEngineStep := by
  intro i fn f s hf hb
  have hoperand : scalarOperand fn (issueScalar i s) = scalarOperand fn s := rfl
  generalize hr : elem fn f (scalarOperand fn s) = r
  have hstep : exec i (issueScalar i s) =
      .next (finish { putResults fn r.outs (issueScalar i s) with err := r.st }) := by
    rw [exec_scalar hf, scalarCommand_completes i fn f rfl rfl, scalarComplete_eq fn f rfl, hoperand, hr]
  refine ⟨_, _, exec_scalar_idle hf hb, hstep, ?_⟩
  suffices hout : (fn.isNeighbor = false → r.outs = [r.outs.getD 0 0#64]) ∧
      (fn.isNeighbor = true → r.outs = (nbrOf r.outs).toList ∧
        ∀ k : Fin 14, (maskOf r.outs).getLsbD k.val = (wordStatus (nbrOf r.outs)[k] == 0#4)) by
    simpa +contextual [issueScalar, extractLsb'_zero_ten, Config.noElement] using hout
  refine ⟨fun hn => hr ▸ elem_outs_single hn f _, fun hn => ⟨(toList_nbrOf ?_).symm, fun k => ?_⟩⟩
  · simp [← hr, elem_outs_length, hn]
  · rw [getLsbD_maskOf _ _ k.isLt, getElem_nbrOf]

end Sys2Proof.Machine
end

section
/-! A whole write pass (R81, R112, R118, R119): memory after its first elements, the record of the elements that fail,
and the run of ENGINE's steps that makes both. -/

namespace Sys2Proof.Machine

/-! ### The input array (R112, R113) -/

/-- Once accepted, the byte lanes of an input word lie in the input range, without wrapping (R112, R113). -/
theorem laneAddr_inWord {fn : Func} {s : State} (h : batchAccepted fn s) {n l : Nat} (hn : n < s.count.toNat)
    (hl : l < 8) : laneAddr (inAddr s n) l = s.srcAddr.toNat + 8 * n + l := by
  obtain ⟨hsrc, -, hend, -, -⟩ := h
  have haddr : (inAddr s n).toNat = s.srcAddr.toNat + 8 * n := by
    rw [inAddr, BitVec.toNat_add, BitVec.toNat_ofNat]
    omega
  rw [laneAddr_of_aligned (by omega) hl, haddr]

/-- No byte of an input word lies in the output range (R113). -/
theorem not_inOutput_inWord {fn : Func} {s : State} (h : batchAccepted fn s) {n l : Nat} (hn : n < s.count.toNat)
    (hl : l < 8) : ¬ inOutput fn s (laneAddr (inAddr s n) l) := fun hk =>
  not_inInput_of_inOutput h hk (by rw [laneAddr_inWord h hn hl]; omega)

/-- Memories that read alike at the bytes of a word read alike at the word (R41). -/
theorem readWord_congr {m m' : List Host.Cell} {addr : Word}
    (h : ∀ l, l < 8 → readByte m (laneAddr addr l) = readByte m' (laneAddr addr l)) :
    readWord m addr = readWord m' addr :=
  word_ext_lanes fun l hl => by rw [laneOf_readWord hl, laneOf_readWord hl, h l hl]

/-! ### Memory in a write pass (R112, R118) -/

/-- The element function's result for input word `n` (R79, R112). -/
def elemOf (fn : Func) (f : Bool) (s : State) (n : Nat) : ElemResult := elem fn f (inputWord s n)

theorem outSize_eq_elemOf (fn : Func) (f : Bool) (s : State) (n : Nat) :
    outSize fn = 8 * (elemOf fn f s n).outs.length := outSize_eq_length ..

/-- Memory after the write pass has stored the first `n` output elements (R118). -/
def passMemory (fn : Func) (f : Bool) (s : State) : Nat → List Host.Cell
  | 0 => s.mem
  | n + 1 => storeWords (outAddr fn s n) (elemOf fn f s n).outs (passMemory fn f s n)

theorem passMemory_wf {fn : Func} {f : Bool} {s : State} (hm : Memory.wf s.mem = true) (n : Nat) :
    Memory.wf (passMemory fn f s n) = true := by
  induction n with
  | zero => exact hm
  | succ n ih => exact storeWords_wf ih

/-- The write pass changes no byte outside the output range (R118). -/
theorem readByte_passMemory {fn : Func} {f : Bool} {s : State} (h : batchAccepted fn s) {n : Nat}
    (hn : n ≤ s.count.toNat) {k : Nat} (hk : ¬ inOutput fn s k) :
    readByte (passMemory fn f s n) k = readByte s.mem k := by
  induction n with
  | zero => rfl
  | succ n ih =>
    rw [← ih (by omega)]
    by_contra hne
    obtain ⟨hlo, hhi⟩ := mem_element_of_stored h hn (outSize_eq_elemOf fn f s n).ge hne
    exact hk (inOutput_of_element hn hlo hhi)

/-- So each step of the pass reads the input word of before the command (R113, R118). -/
theorem readWord_passMemory_input {fn : Func} {f : Bool} {s : State} (h : batchAccepted fn s) {n m : Nat}
    (hn : n ≤ s.count.toNat) (hm : m < s.count.toNat) :
    readWord (passMemory fn f s n) (inAddr s m) = inputWord s m :=
  readWord_congr fun _ hl => readByte_passMemory h hn (not_inOutput_inWord h hm hl)

/-- Storing an output element changes no word of an earlier one (R112, R118). -/
theorem readWord_storeWords_earlier {fn : Func} {s : State} (h : batchAccepted fn s) {n m j : Nat} {vs : List Word}
    (hn : n < s.count.toNat) (hlen : 8 * vs.length ≤ outSize fn) (hm : m < n) (hj : 8 * j < outSize fn)
    (mem : List Host.Cell) :
    readWord (storeWords (outAddr fn s n) vs mem) (outAddr fn s m + BitVec.ofNat 64 (8 * j)) =
      readWord mem (outAddr fn s m + BitVec.ofNat 64 (8 * j)) := by
  refine readWord_congr fun l hl => ?_
  by_contra hne
  obtain ⟨hlo, -⟩ := mem_element_of_stored h hn hlen hne
  have hle := outSize_mul_succ_le fn hm
  have hwords := outSize_mod_eight fn
  rw [laneAddr_outWord h (hm.trans hn) hj hl] at hlo
  omega

/-- After `n` elements, each output word of them is the element function's word (R112, R118). -/
theorem readWord_passMemory_output {fn : Func} {f : Bool} {s : State} (h : batchAccepted fn s)
    (hwf : Memory.wf s.mem = true) {n m j : Nat} (hn : n ≤ s.count.toNat) (hm : m < n) (hj : 8 * j < outSize fn) :
    some (readWord (passMemory fn f s n) (outAddr fn s m + BitVec.ofNat 64 (8 * j))) =
      (elemOf fn f s m).outs[j]? := by
  induction n with
  | zero => omega
  | succ n ih =>
    have hlen := outSize_eq_elemOf fn f s n
    rw [passMemory]
    rcases Nat.lt_succ_iff_lt_or_eq.mp hm with hlt | rfl
    · rw [readWord_storeWords_earlier h hn hlen.ge hlt hj]
      exact ih (by omega) hlt
    · have hstart : (outAddr fn s m).toNat % 8 = 0 := by
        simpa using outWord_aligned h hn (j := 0) (by omega)
      have hsmall : outSize fn ≤ 112 := by unfold outSize; split <;> omega
      exact readWord_storeWords_self (passMemory_wf hwf m) hstart (by omega) (by omega)

/-! ### The failing elements (R118, R119) -/

/-- Element `n` has a nonzero status (R118). -/
def fails (fn : Func) (f : Bool) (s : State) (n : Nat) : Bool := decide ((elemOf fn f s n).st ≠ .ok)

/-- How many of the first `n` elements fail (R118). -/
def failures (fn : Func) (f : Bool) (s : State) (n : Nat) : Nat := ((List.range n).filter (fails fn f s)).length

/-- The first of the first `n` elements that fails (R118). -/
def firstFailure (fn : Func) (f : Bool) (s : State) (n : Nat) : Option Nat := (List.range n).find? (fails fn f s)

theorem failures_succ (fn : Func) (f : Bool) (s : State) (n : Nat) :
    failures fn f s (n + 1) = if (elemOf fn f s n).st = .ok then failures fn f s n else failures fn f s n + 1 := by
  by_cases h : (elemOf fn f s n).st = .ok <;>
    simp [failures, List.range_succ, List.filter_append, fails, h]

theorem failures_le (fn : Func) (f : Bool) (s : State) (n : Nat) : failures fn f s n ≤ n :=
  (List.length_filter_le ..).trans (List.length_range ..).le

theorem firstFailure_succ (fn : Func) (f : Bool) (s : State) (n : Nat) :
    firstFailure fn f s (n + 1) =
      (firstFailure fn f s n).or (if (elemOf fn f s n).st = .ok then none else some n) := by
  by_cases h : (elemOf fn f s n).st = .ok <;>
    simp [firstFailure, List.range_succ, List.find?_append, fails, h]

theorem lt_of_firstFailure {fn : Func} {f : Bool} {s : State} {n m : Nat} (h : firstFailure fn f s n = some m) :
    m < n :=
  List.mem_range.mp (List.mem_of_find?_eq_some h)

theorem firstFailure_eq_none {fn : Func} {f : Bool} {s : State} {n : Nat}
    (h : ∀ m, m < n → (elemOf fn f s m).st = .ok) : firstFailure fn f s n = none := by
  simpa [firstFailure, fails] using h

theorem firstFailure_eq_some {fn : Func} {f : Bool} {s : State} {n m : Nat} (hm : m < n)
    (hst : (elemOf fn f s m).st ≠ .ok) (hbefore : ∀ l, l < m → (elemOf fn f s l).st = .ok) :
    firstFailure fn f s n = some m := by
  rw [firstFailure, List.find?_range_eq_some]
  simpa [fails, hst, hm] using hbefore

/-! ### The run of ENGINE's steps (R116, R118) -/

/-- A write step whose accesses are all admitted (R118). -/
theorem writeStep_admitted {fn : Func} {f : Bool} {s : State} {r : ElemResult}
    (hr : elem fn f (readWord s.mem (inAddr s s.cursor)) = r)
    (hread : admits s.platform .read (inAddr s s.cursor) = true)
    (hwrite : ∀ j, j < r.outs.length →
      admits s.platform .write (outAddr fn s s.cursor + BitVec.ofNat 64 (8 * j)) = true) :
    writeStep fn f s.cursor s = elementRecorded s r.st (storeWords (outAddr fn s s.cursor) r.outs s.mem)
      (writesRecord (outAddr fn s s.cursor) r.outs.length (⟨.read, inAddr s s.cursor⟩ :: s.bus)) := by
  rw [writeStep, portRead_admitted hread]
  dsimp only
  have hall := portWrites_admitted (s := { s with bus := ⟨.read, inAddr s s.cursor⟩ :: s.bus }) hwrite
  rw [hr, hall, ← elementWritten_eq_elementRecorded]

/-- `v` is a state of the write pass of a batch command issued in `s`, with the first `n` elements written and
recorded (R118). -/
structure WritePass (fn : Func) (f : Bool) (s : State) (n : Nat) (v : State) : Prop where
  busy : v.busy = true
  abrt : v.abrt = false
  vphase : v.vphase = false
  cursor : v.cursor = n
  progress : v.progress = BitVec.ofNat 32 n
  operands : SameOperands s v
  results : SameResults s v
  platform : v.platform = s.platform
  mem : v.mem = passMemory fn f s n
  failCount : v.failCount = BitVec.ofNat 32 (failures fn f s n)
  err : v.err = (firstFailure fn f s n).elim .ok fun m => (elemOf fn f s m).st
  errIndex : v.errIndex = (firstFailure fn f s n).elim Config.noElement (BitVec.ofNat 32)

/-- A batch command accepted with A = 0 is at the start of its write pass (R73, R116). -/
theorem writePass_accept {i : Instr} {fn : Func} {f : Bool} (hf : batchForm i = some (fn, f, false)) (s : State) :
    WritePass fn f s 0 (accept (encode i) (prologue (encode i) s)) := by
  rw [accept_batch hf]
  exact ⟨rfl, rfl, rfl, rfl, rfl, ⟨rfl, rfl, rfl, rfl, rfl⟩, ⟨rfl, rfl, rfl⟩, rfl, rfl, rfl, rfl, rfl⟩

/-- ERR_INDEX is free until an element fails (R118). -/
theorem WritePass.errIndex_eq_noElement {fn : Func} {f : Bool} {s v : State} {n : Nat} (h : WritePass fn f s n v)
    (hn : n ≤ s.count.toNat) : v.errIndex = 0xFFFFFFFF#32 ↔ firstFailure fn f s n = none := by
  rw [h.errIndex]
  cases hff : firstFailure fn f s n with
  | none => simp [Config.noElement]
  | some m => simpa [Config.noElement] using elemIndex_ne_noElement ((lt_of_firstFailure hff).trans_le hn)

/-- The write of one more element, recorded, is the next state of the write pass (R118). -/
theorem WritePass.recorded {fn : Func} {f : Bool} {s v : State} {n : Nat} (h : WritePass fn f s n v)
    (hn : n < s.count.toNat) (bus : List BusAccess) :
    WritePass fn f s (n + 1) (elementRecorded v (elemOf fn f s n).st (passMemory fn f s (n + 1)) bus) := by
  have hfree := h.errIndex_eq_noElement hn.le
  refine { h with cursor := ?_, progress := ?_, mem := rfl, failCount := ?_, err := ?_, errIndex := ?_ } <;>
    dsimp only [elementRecorded]
  · rw [h.cursor]
  · rw [h.cursor]
  · rw [failures_succ, h.failCount]
    split
    · rfl
    · exact (BitVec.ofNat_add ..).symm
  · simp only [firstFailure_succ, ne_eq, hfree]
    rw [h.err]
    cases firstFailure fn f s n with
    | none => by_cases hst : (elemOf fn f s n).st = .ok <;> simp [hst]
    | some m => simp
  · simp only [firstFailure_succ, ne_eq, hfree]
    rw [h.errIndex, h.cursor]
    cases firstFailure fn f s n with
    | none => by_cases hst : (elemOf fn f s n).st = .ok <;> simp [hst]
    | some m => simp

/-- With no abort pending, ENGINE's step in the write pass writes the element at the cursor (R116). -/
theorem batchCommand_writes (i : Instr) (fn : Func) (f : Bool) {v : State} (hb : v.busy = true)
    (ha : v.abrt = false) (hv : v.vphase = false) (hc : v.cursor ≠ v.count.toNat) :
    batchCommand i fn f v = writeStep fn f v.cursor v := by
  simp [batchCommand, engineStep, batchStep, hb, ha, hv, hc]

/-- With no abort pending, ENGINE's step at the end of the write pass ends the command (R116). -/
theorem batchCommand_finishes (i : Instr) (fn : Func) (f : Bool) {v : State} (hb : v.busy = true)
    (ha : v.abrt = false) (hv : v.vphase = false) (hc : v.cursor = v.count.toNat) :
    batchCommand i fn f v = finish v := by
  simp [batchCommand, engineStep, batchStep, hb, ha, hv, hc]

/-- Where the platform admits the accesses, one step of ENGINE writes one more element (R116, R118). -/
theorem WritePass.exec_next {i : Instr} {fn : Func} {f a : Bool} {s v : State} {n : Nat} (h : WritePass fn f s n v)
    (hf : batchForm i = some (fn, f, a)) (hacc : batchAccepted fn s) (hadm : platformAdmits fn s)
    (hn : n < s.count.toNat) : ∃ u, exec i v = .next u ∧ WritePass fn f s (n + 1) u := by
  obtain ⟨-, -, hsrc, hdst, hcount⟩ := h.operands
  obtain ⟨hreads, hwrites⟩ := hadm
  have hin : inAddr v v.cursor = inAddr s n := by rw [inAddr, inAddr, hsrc, h.cursor]
  have hout : outAddr fn v v.cursor = outAddr fn s n := by rw [outAddr, outAddr, hdst, h.cursor]
  have hne : v.cursor ≠ v.count.toNat := by rw [h.cursor, hcount]; exact hn.ne
  have hr : elem fn f (readWord v.mem (inAddr v v.cursor)) = elemOf fn f s n := by
    rw [h.mem, hin, readWord_passMemory_input hacc hn.le hn, elemOf]
  have hread : admits v.platform .read (inAddr v v.cursor) = true := by
    rw [h.platform, hin]
    exact hreads n hn
  have hwrite (j : Nat) (hj : j < (elemOf fn f s n).outs.length) :
      admits v.platform .write (outAddr fn v v.cursor + BitVec.ofNat 64 (8 * j)) = true := by
    have hlen := outSize_eq_elemOf fn f s n
    rw [h.platform, hout]
    exact hwrites n j hn (by omega)
  refine ⟨_, exec_batch hf v, ?_⟩
  rw [batchCommand_writes i fn f h.busy h.abrt h.vphase hne, writeStep_admitted hr hread hwrite, h.mem, hout]
  exact h.recorded hn _

/-- The last of a run of ENGINE's steps. -/
theorem engineRun_succ {i : Instr} {n : Nat} {s t : State} (h : engineRun i n s = .next t) :
    engineRun i (n + 1) s = exec i t := by
  induction n generalizing s with
  | zero =>
    cases h
    obtain ⟨u, hu⟩ := exec_next i t
    rw [engineRun, hu]
    rfl
  | succ n ih =>
    obtain ⟨u, hu⟩ := exec_next i s
    rw [engineRun, hu] at h ⊢
    exact ih h

/-- `n` steps of ENGINE from the start of the write pass write the first `n` elements (R118). -/
theorem WritePass.engineRun_next {i : Instr} {fn : Func} {f a : Bool} {s t : State} (h : WritePass fn f s 0 t)
    (hf : batchForm i = some (fn, f, a)) (hacc : batchAccepted fn s) (hadm : platformAdmits fn s) {n : Nat}
    (hn : n ≤ s.count.toNat) : ∃ v, engineRun i n t = .next v ∧ WritePass fn f s n v := by
  induction n with
  | zero => exact ⟨t, rfl, h⟩
  | succ n ih =>
    obtain ⟨v, hrun, hv⟩ := ih (by omega)
    rw [engineRun_succ hrun]
    exact hv.exec_next hf hacc hadm hn

/-- The whole write pass takes one step for each element and one for its end (R116, R149). -/
theorem WritePass.engineRun_finish {i : Instr} {fn : Func} {f a : Bool} {s t : State} (h : WritePass fn f s 0 t)
    (hf : batchForm i = some (fn, f, a)) (hacc : batchAccepted fn s) (hadm : platformAdmits fn s) :
    ∃ v, engineRun i (s.count.toNat + 1) t = .next (finish v) ∧ WritePass fn f s s.count.toNat v := by
  obtain ⟨v, hrun, hv⟩ := h.engineRun_next hf hacc hadm le_rfl
  obtain ⟨-, -, -, -, hcount⟩ := hv.operands
  have hend : v.cursor = v.count.toNat := by rw [hv.cursor, hcount]
  refine ⟨v, ?_, hv⟩
  rw [engineRun_succ hrun, exec_batch hf, batchCommand_finishes i fn f hv.busy hv.abrt hv.vphase hend]

/-- In memory after the whole pass, the words of each output element are those of the element function (R81). -/
theorem outs_eq_outputWords {fn : Func} {f : Bool} {s u : State} (hacc : batchAccepted fn s)
    (hwf : Memory.wf s.mem = true) (hmem : u.mem = passMemory fn f s s.count.toNat) (hdst : u.dstAddr = s.dstAddr)
    {n : Nat} (hn : n < s.count.toNat) :
    (elemOf fn f s n).outs = (List.range (outSize fn / 8)).map fun j => outputWord fn u n j := by
  have hlen := outSize_eq_elemOf fn f s n
  refine List.ext_getElem (by simp; omega) fun j hj _ => ?_
  have hword := readWord_passMemory_output (f := f) hacc hwf le_rfl hn (j := j) (by omega)
  rw [List.getElem?_eq_getElem hj, Option.some.injEq] at hword
  rw [List.getElem_map, List.getElem_range, outputWord, outAddr, hdst, hmem, ← outAddr, hword]

/-- Settles O26: the run ends in the state after the write of all elements. -/
theorem batchEqualsScalarElementForElement : Obligations.BatchEqualsScalarElementForElement := by
  intro i fn f s hf hb hwf hacc hadm
  have hissue : exec i s = .next (accept (encode i) (prologue (encode i) s)) := by
    rw [exec_batch_idle hf hb, issueBatch, batchCheck_eq_none.mpr hacc]
  obtain ⟨v, hrun, hv⟩ := (writePass_accept hf s).engineRun_finish hf hacc hadm
  obtain ⟨-, -, hsrc, hdst, hcount⟩ := hv.operands
  obtain ⟨hresult, hmask, hnbr⟩ := hv.results
  have hsmall := s.count.isLt
  refine ⟨_, finish v, hissue, hrun, rfl, rfl, ?_, fun n hn => ?_, fun k hk => ?_, ?_, fun hok => ?_,
    fun n hn hst hbefore => ?_, hsrc, hdst, hcount, hresult, hmask, hnbr⟩
  · rw [finish_progress, hv.progress, BitVec.ofNat_toNat, BitVec.setWidth_eq]
  · exact outs_eq_outputWords hacc hwf hv.mem hdst hn
  · rw [finish_mem, hv.mem, readByte_passMemory hacc le_rfl hk]
  · have hle := failures_le fn f s s.count.toNat
    rw [finish_failCount, hv.failCount, BitVec.toNat_ofNat, Nat.mod_eq_of_lt (by omega)]
    rfl
  · rw [finish_err, finish_errIndex, hv.err, hv.errIndex, firstFailure_eq_none hok]
    exact ⟨rfl, rfl⟩
  · rw [finish_err, finish_errIndex, hv.err, hv.errIndex, firstFailure_eq_some hn hst hbefore]
    exact ⟨rfl, by rw [Option.elim_some, BitVec.toNat_ofNat, Nat.mod_eq_of_lt (by omega)]⟩

end Sys2Proof.Machine
end

section
/-! The Morton codec bit by bit (R84 to R86), and the commands MENC and MDEC (R87, R88). One law says where bit `i`
of axis `j` stands in the key, and one where it stands in a coordinate word; the rest follows from them. -/

namespace Sys2Proof.Machine

/-! ### The axes of a cell (R12) -/

/-- Axis `j` of a cell: 0 = x, 1 = y, 2 = z (R12). -/
def axis (p : Coords) : Fin 3 → Coord
  | 0 => p.x
  | 1 => p.y
  | 2 => p.z

theorem axisBit_eq_getLsbD_axis (p : Coords) (j : Fin 3) (i : Nat) : axisBit p j i = (axis p j).getLsbD i :=
  match j with
  | 0 | 1 | 2 => rfl

theorem eq_of_axis_eq {p q : Coords} (h : ∀ j, axis p j = axis q j) : p = q := by
  cases p
  cases q
  simpa [Fin.forall_fin_succ, axis] using h

/-- The bits of a cell where a coordinate word holds them (R60). -/
theorem getLsbD_axis_cwCell (w : Word) (j : Fin 3) {i : Nat} (hi : i < 16) :
    (axis (cwCell w) j).getLsbD i = w.getLsbD (16 * j + i) :=
  match j with
  | 0 | 1 | 2 => by simp [axis, cwCell, hi]

/-- A result word with status 0 has the bits of its value, and zero above them (R62). -/
theorem getLsbD_mkKW_ok (k : Key) (n : Nat) : (mkKW k .ok).getLsbD n = k.getLsbD n := by
  simp [getLsbD_mkKW, Err.code]

/-- The bits of a coordinate word with status 0 (R60). -/
theorem getLsbD_mkCW_ok (p : Coords) (j : Fin 3) {i : Nat} (hi : i < 16) :
    (mkCW p .ok).getLsbD (16 * j + i) = (axis p j).getLsbD i := by
  rw [mkCW, getLsbD_mkKW_ok]
  change (p.z ++ p.y ++ p.x : BitVec (16 + 16 + 16)).getLsbD _ = _
  rw [BitVec.getLsbD_append, BitVec.getLsbD_append]
  match j with
  | 0 | 1 => simp [axis, hi]
  | 2 => simp [axis, hi, show ¬ 32 + i < 16 by omega, show 32 + i - 16 = 16 + i by omega]

/-! ### The codec (R84, R85) -/

/-- Key bit `3i + j` is bit `i` of axis `j` (R84). -/
theorem getLsbD_mortonEnc (p : Coords) (i : Nat) (j : Fin 3) :
    (mortonEnc p).getLsbD (3 * i + j) = (axis p j).getLsbD i := by
  have hmod : (3 * i + j.val) % 3 = j := by omega
  have hdiv : (3 * i + j.val) / 3 = i := by omega
  rw [mortonEnc, getLsbD_bitsOf, hmod, hdiv, axisBit_eq_getLsbD_axis]
  by_cases hi : i < 16
  · simp [show 3 * i + j.val < 48 by omega]
  · simp [BitVec.getLsbD_of_ge _ i (Nat.le_of_not_lt hi)]

/-- Bit `i` of axis `j` is key bit `3i + j` (R85). -/
theorem getLsbD_axis_mortonDec (k : Key) (j : Fin 3) (i : Nat) :
    (axis (mortonDec k) j).getLsbD i = k.getLsbD (3 * i + j) := by
  have hbits : (axis (mortonDec k) j).getLsbD i = (decide (i < 16) && k.getLsbD (3 * i + j)) := by
    match j with
    | 0 | 1 | 2 => simp [axis, mortonDec]
  rw [hbits]
  by_cases hi : i < 16
  · simp [hi]
  · simp [hi, BitVec.getLsbD_of_ge k (3 * i + j) (by omega)]

/-- Every bit of a key is one of a level and an axis (R84). -/
theorem eq_three_mul_add_axis (n : Nat) : ∃ (i : Nat) (j : Fin 3), n = 3 * i + j :=
  ⟨n / 3, ⟨n % 3, Nat.mod_lt n (by decide)⟩, (Nat.div_add_mod n 3).symm⟩

theorem mortonDec_mortonEnc (p : Coords) : mortonDec (mortonEnc p) = p := by
  refine eq_of_axis_eq fun j => BitVec.eq_of_getLsbD_eq fun i _ => ?_
  rw [getLsbD_axis_mortonDec, getLsbD_mortonEnc]

theorem mortonEnc_mortonDec (k : Key) : mortonEnc (mortonDec k) = k := by
  refine BitVec.eq_of_getLsbD_eq fun n _ => ?_
  obtain ⟨i, j, rfl⟩ := eq_three_mul_add_axis n
  rw [getLsbD_mortonEnc, getLsbD_axis_mortonDec]

/-! ### The order of the keys (R86) -/

/-- The smaller of two values has a 0 and the greater a 1 at the highest bit where they differ. -/
theorem toNat_lt_iff_highest_difference {w : Nat} (a b : BitVec w) :
    a.toNat < b.toNat ↔
      ∃ m, a.getLsbD m = false ∧ b.getLsbD m = true ∧ ∀ n, m < n → a.getLsbD n = b.getLsbD n := by
  simp only [← BitVec.testBit_toNat]
  refine ⟨fun hlt => ?_, fun ⟨m, ha, hb, hab⟩ => Nat.lt_of_testBit m ha hb hab⟩
  obtain ⟨m, hm, habove⟩ := Nat.exists_most_significant_bit (Nat.xor_ne_zero_iff.mpr hlt.ne)
  simp only [Nat.testBit_xor, bne_iff_ne, bne_eq_false_iff_eq] at hm habove
  cases ha : a.toNat.testBit m with
  | false => exact ⟨m, ha, by simpa [ha] using hm.symm, habove⟩
  | true =>
    have hb : b.toNat.testBit m = false := by simpa [ha] using hm.symm
    have hgt : b.toNat < a.toNat := Nat.lt_of_testBit m hb ha fun n hn => (habove n hn).symm
    exact absurd hlt hgt.asymm

/-- With the other axes equal, the key grows with axis `j`: where that axis first differs, so do the keys (R86). -/
theorem mortonEnc_lt_mortonEnc {p q : Coords} (j : Fin 3) (hlt : (axis p j).toNat < (axis q j).toNat)
    (hothers : ∀ l, l ≠ j → axis p l = axis q l) : (mortonEnc p).toNat < (mortonEnc q).toNat := by
  obtain ⟨m, hp, hq, habove⟩ := (toNat_lt_iff_highest_difference _ _).mp hlt
  refine (toNat_lt_iff_highest_difference _ _).mpr ⟨3 * m + j, ?_, ?_, fun n hn => ?_⟩
  · rw [getLsbD_mortonEnc, hp]
  · rw [getLsbD_mortonEnc, hq]
  · obtain ⟨i, l, rfl⟩ := eq_three_mul_add_axis n
    rw [getLsbD_mortonEnc, getLsbD_mortonEnc]
    by_cases hl : l = j
    · subst hl
      exact habove i (by omega)
    · rw [hothers l hl]

/-- Settles O29: the bits decide both round trips, and the highest bit that differs decides the order. -/
theorem mortonRoundTripsAndIsMonotone : Obligations.MortonRoundTripsAndIsMonotone := by
  refine ⟨mortonDec_mortonEnc, mortonEnc_mortonDec, fun x y z v =>
    ⟨fun h => mortonEnc_lt_mortonEnc 0 h ?_, fun h => mortonEnc_lt_mortonEnc 1 h ?_,
      fun h => mortonEnc_lt_mortonEnc 2 h ?_⟩⟩
  all_goals simp [Fin.forall_fin_succ, axis]

/-! ### The commands (R80, R87, R88) -/

/-- A scalar command whose element is one word with status 0 completes with that word in RESULT (R77, R80). -/
theorem exec_scalar_result {i : Instr} {fn : Func} {f : Bool} {s : State} {r : Word}
    (hf : scalarForm i = some (fn, f)) (hfn : fn.isNeighbor = false)
    (hr : elem fn f (scalarOperand fn s) = ⟨[r], .ok⟩) (hb : s.busy = true) (ha : s.abrt = false) :
    exec i s = .next { s with result := r, busy := false, done := true, abrt := false, vphase := false } := by
  rw [exec_scalar hf, scalarCommand_completes i fn f hb ha, scalarComplete, hr]
  simp [putResults, hfn, finish]

/-- Settles O13: RESULT is the key word of the cell COORD_IN names. -/
theorem mencInterleavesTheCoordinates : Obligations.MencInterleavesTheCoordinates := by
  intro s hb ha
  have hbit (j : Fin 3) {i : Nat} (hi : i < 16) :
      (mkKW (mortonEnc (cwCell s.coordIn)) .ok).getLsbD (3 * i + j) = s.coordIn.getLsbD (16 * j + i) := by
    rw [getLsbD_mkKW_ok, getLsbD_mortonEnc, getLsbD_axis_cwCell _ j hi]
  refine ⟨_, fun i hi => ⟨?_, hbit 1 hi, hbit 2 hi⟩, fun n hn => ?_,
    exec_scalar_result (f := false) rfl rfl rfl hb ha⟩
  · simpa using hbit 0 hi
  · rw [getLsbD_mkKW_ok, BitVec.getLsbD_of_ge _ n hn]

/-- Settles O14: RESULT is the coordinate word of the cell of the key in KEY_IN. -/
theorem mdecDeinterleavesTheKey : Obligations.MdecDeinterleavesTheKey := by
  intro s hb ha
  have hbit (j : Fin 3) {i : Nat} (hi : i < 16) :
      (mkCW (mortonDec (kwKey s.keyIn)) .ok).getLsbD (16 * j + i) = s.keyIn.getLsbD (3 * i + j) := by
    rw [getLsbD_mkCW_ok _ j hi, getLsbD_axis_mortonDec, kwKey, BitVec.getLsbD_extractLsb']
    simp [show 3 * i + j.val < 48 by omega]
  refine ⟨_, fun i hi => ⟨?_, hbit 1 hi, hbit 2 hi⟩, fun n hn => ?_,
    exec_scalar_result (f := false) rfl rfl rfl hb ha⟩
  · simpa using hbit 0 hi
  · rw [mkCW, getLsbD_mkKW_ok, BitVec.getLsbD_of_ge _ n hn]

end Sys2Proof.Machine
end

section
/-! The Hilbert codec level by level (R89 to R92): the per-level transform and its inverse, and the lists of digits
and of octants as numbers. Everything said of keys and cells is said of those lists first. -/

namespace Sys2Proof.Machine

/-! ### Three bits, one per axis (R12) -/

theorem octant_eq_of_getLsbD_eq {a b : Octant} (h : ∀ j : Fin 3, a.getLsbD j = b.getLsbD j) : a = b :=
  BitVec.eq_of_getLsbD_eq fun j hj => h ⟨j, hj⟩

/-- Bit `j` of the octant at level `i` is bit `i` of axis `j` (R91). -/
theorem getLsbD_octantAt (p : Coords) (i : Nat) (j : Fin 3) : (octantAt p i).getLsbD j = (axis p j).getLsbD i := by
  simp [octantAt, axisBit_eq_getLsbD_axis]

/-- Bit `j` of the digit at level `i` is key bit `3i + j` (R91). -/
theorem getLsbD_digitAt (k : Key) (i : Nat) (j : Fin 3) : (digitAt k i).getLsbD j = k.getLsbD (3 * i + j) := by
  simp [digitAt]

theorem getLsbD_keyOfDigits (ds : List Octant) {i : Nat} (hi : i < 16) (j : Fin 3) :
    (keyOfDigits ds).getLsbD (3 * i + j) = (ds.getD (15 - i) 0#3).getLsbD j := by
  have hmod : (3 * i + j.val) % 3 = j := by omega
  have hdiv : (3 * i + j.val) / 3 = i := by omega
  rw [keyOfDigits, getLsbD_bitsOf, hmod, hdiv]
  simp [show 3 * i + j.val < 48 by omega]

theorem getLsbD_axis_cellOfOctants (ls : List Octant) {i : Nat} (hi : i < 16) (j : Fin 3) :
    (axis (cellOfOctants ls) j).getLsbD i = (ls.getD (15 - i) 0#3).getLsbD j :=
  match j with
  | 0 | 1 | 2 => by simp [axis, cellOfOctants, hi]

theorem digitAt_keyOfDigits (ds : List Octant) {i : Nat} (hi : i < 16) :
    digitAt (keyOfDigits ds) i = ds.getD (15 - i) 0#3 :=
  octant_eq_of_getLsbD_eq fun j => by rw [getLsbD_digitAt, getLsbD_keyOfDigits ds hi]

theorem octantAt_cellOfOctants (ls : List Octant) {i : Nat} (hi : i < 16) :
    octantAt (cellOfOctants ls) i = ls.getD (15 - i) 0#3 :=
  octant_eq_of_getLsbD_eq fun j => by rw [getLsbD_octantAt, getLsbD_axis_cellOfOctants ls hi]

/-! ### Keys and cells as lists, coarsest level first -/

/-- The 16 digits of a key. -/
def digitsOf (k : Key) : List Octant := levels.map (digitAt k)

/-- The 16 octants of a cell. -/
def octantsOf (p : Coords) : List Octant := levels.map (octantAt p)

theorem hilbertEnc_eq (p : Coords) : hilbertEnc p = keyOfDigits (encDigits .start (octantsOf p)) := rfl

theorem hilbertDec_eq (h : Key) : hilbertDec h = cellOfOctants (decDigits .start (digitsOf h)) := rfl

@[simp] theorem length_digitsOf (k : Key) : (digitsOf k).length = 16 := rfl

@[simp] theorem length_octantsOf (p : Coords) : (octantsOf p).length = 16 := rfl

theorem getD_map_levels (f : Nat → Octant) {i : Nat} (hi : i < 16) : (levels.map f).getD (15 - i) 0#3 = f i := by
  simp [levels, show 15 - i < 16 by omega, show 15 - (15 - i) = i by omega]

theorem map_levels_getD {ls : List Octant} (hls : ls.length = 16) {f : Nat → Octant}
    (hf : ∀ i, i < 16 → f i = ls.getD (15 - i) 0#3) : levels.map f = ls := by
  refine List.ext_getElem hls.symm fun i hi hi' => ?_
  simp [levels, hf (15 - i) (by omega), show 15 - (15 - i) = i by omega, hi']

theorem digitsOf_keyOfDigits {ds : List Octant} (hds : ds.length = 16) : digitsOf (keyOfDigits ds) = ds :=
  map_levels_getD hds fun _ => digitAt_keyOfDigits ds

theorem octantsOf_cellOfOctants {ls : List Octant} (hls : ls.length = 16) : octantsOf (cellOfOctants ls) = ls :=
  map_levels_getD hls fun _ => octantAt_cellOfOctants ls

theorem keyOfDigits_digitsOf (k : Key) : keyOfDigits (digitsOf k) = k := by
  refine BitVec.eq_of_getLsbD_eq fun n hn => ?_
  obtain ⟨i, j, rfl⟩ := eq_three_mul_add_axis n
  have hi : i < 16 := by omega
  rw [getLsbD_keyOfDigits _ hi, digitsOf, getD_map_levels _ hi, getLsbD_digitAt]

theorem cellOfOctants_octantsOf (p : Coords) : cellOfOctants (octantsOf p) = p := by
  refine eq_of_axis_eq fun j => BitVec.eq_of_getLsbD_eq fun i hi => ?_
  rw [getLsbD_axis_cellOfOctants _ hi, octantsOf, getD_map_levels _ hi, getLsbD_octantAt]

/-! ### The rotations and the tables (R89, R90) -/

theorem rotr3_mod (v : Octant) (r : Nat) : rotr3 v (r % 3) = rotr3 v r := by rw [rotr3, rotr3, Nat.mod_mod]

theorem rotl3_mod (v : Octant) (r : Nat) : rotl3 v (r % 3) = rotl3 v r := by rw [rotl3, rotl3, Nat.mod_mod]

/-- The rotations by 0, 1 and 2 are all there are: what holds of those holds of every rotation (R90). -/
theorem forall_rotation {P : (Octant → Octant) → (Octant → Octant) → Prop}
    (h : ∀ r : Fin 3, P (rotr3 · r) (rotl3 · r)) (r : Nat) : P (rotr3 · r) (rotl3 · r) := by
  simpa only [rotr3_mod, rotl3_mod] using h ⟨r % 3, Nat.mod_lt r (by decide)⟩

theorem rotl3_rotr3 (v : Octant) (r : Nat) : rotl3 (rotr3 v r) r = v :=
  forall_rotation (P := fun right left => ∀ v, left (right v) = v) (by decide) r v

theorem rotr3_rotl3 (v : Octant) (r : Nat) : rotr3 (rotl3 v r) r = v :=
  forall_rotation (P := fun right left => ∀ v, right (left v) = v) (by decide) r v

theorem gc_gcInv (v : Octant) : gc (gcInv v) = v := by
  revert v; decide

theorem gcInv_gc (v : Octant) : gcInv (gc v) = v := by
  revert v; decide

theorem Orient.fromCurve_toCurve (o : Orient) (l : Octant) : o.fromCurve (o.toCurve l) = l := by
  rw [fromCurve, toCurve, rotl3_rotr3, BitVec.xor_assoc, BitVec.xor_self, BitVec.xor_zero]

theorem Orient.toCurve_fromCurve (o : Orient) (t : Octant) : o.toCurve (o.fromCurve t) = t := by
  rw [fromCurve, toCurve, BitVec.xor_assoc, BitVec.xor_self, BitVec.xor_zero, rotr3_rotl3]

theorem getLsbD_rotr3 (v : Octant) (r : Nat) (j : Fin 3) : (rotr3 v r).getLsbD j = v.getLsbD ((j + r) % 3) := by
  have hsmall : ∀ (v : Octant) (r j : Fin 3), (rotr3 v r).getLsbD j = v.getLsbD ((j + r) % 3) := by decide
  rw [← rotr3_mod, ← Nat.add_mod_mod]
  exact hsmall v ⟨r % 3, Nat.mod_lt r (by decide)⟩ j

/-- Settles O15: the tables by evaluation, and the transform by the rotations undoing each other. -/
theorem hilbertTablesAndTransform : Obligations.HilbertTablesAndTransform := by
  have hgray : ∀ v : Octant, gc v = v ^^^ (v >>> 1) := by decide
  refine ⟨by decide, by decide, by decide, by decide, fun v r j hj => ?_, fun v => ⟨hgray v, gc_gcInv v⟩,
    fun o l w => ⟨rfl, rfl, o.fromCurve_toCurve l, rfl⟩, rfl⟩
  have hright (v : Octant) := getLsbD_rotr3 v r ⟨j, hj⟩
  exact ⟨hright v, by rw [← hright, rotr3_rotl3]⟩

/-! ### The recursion over the levels (R91, R92) -/

@[simp] theorem length_encDigits (o : Orient) (ls : List Octant) : (encDigits o ls).length = ls.length := by
  induction ls generalizing o with
  | nil => rfl
  | cons l ls ih => simp [encDigits, ih]

@[simp] theorem length_decDigits (o : Orient) (ws : List Octant) : (decDigits o ws).length = ws.length := by
  induction ws generalizing o with
  | nil => rfl
  | cons w ws ih => simp [decDigits, ih]

theorem decDigits_encDigits (o : Orient) (ls : List Octant) : decDigits o (encDigits o ls) = ls := by
  induction ls generalizing o with
  | nil => rfl
  | cons l ls ih => rw [encDigits, decDigits, gc_gcInv, Orient.fromCurve_toCurve, ih]

theorem encDigits_decDigits (o : Orient) (ws : List Octant) : encDigits o (decDigits o ws) = ws := by
  induction ws generalizing o with
  | nil => rfl
  | cons w ws ih => simp only [decDigits, encDigits, Orient.toCurve_fromCurve, gcInv_gc, ih]

theorem decDigits_inj {o : Orient} {ws us : List Octant} : decDigits o ws = decDigits o us ↔ ws = us :=
  (Function.LeftInverse.injective (encDigits_decDigits o)).eq_iff

/-- The octants of the upper levels depend on the digits of those levels alone (R92). -/
theorem take_decDigits (n : Nat) (o : Orient) (ws : List Octant) :
    (decDigits o ws).take n = decDigits o (ws.take n) := by
  induction ws generalizing o n with
  | nil => simp [decDigits]
  | cons w ws ih =>
    cases n with
    | zero => rfl
    | succ n => simp [decDigits, ih]

theorem octantsOf_hilbertDec (h : Key) : octantsOf (hilbertDec h) = decDigits .start (digitsOf h) :=
  octantsOf_cellOfOctants (length_decDigits _ _)

theorem digitsOf_hilbertEnc (p : Coords) : digitsOf (hilbertEnc p) = encDigits .start (octantsOf p) :=
  digitsOf_keyOfDigits (length_encDigits _ _)

theorem hilbertDec_hilbertEnc (p : Coords) : hilbertDec (hilbertEnc p) = p := by
  rw [hilbertDec_eq, digitsOf_hilbertEnc, decDigits_encDigits, cellOfOctants_octantsOf]

theorem hilbertEnc_hilbertDec (h : Key) : hilbertEnc (hilbertDec h) = h := by
  rw [hilbertEnc_eq, octantsOf_hilbertDec, encDigits_decDigits, keyOfDigits_digitsOf]

/-- Settles O30. -/
theorem hilbertRoundTrips : Obligations.HilbertRoundTrips := ⟨hilbertDec_hilbertEnc, hilbertEnc_hilbertDec⟩

/-! ### Nesting (R93e) -/

theorem div_two_pow_eq_iff {w : Nat} (a b : BitVec w) (m : Nat) :
    a.toNat / 2 ^ m = b.toNat / 2 ^ m ↔ ∀ n, m ≤ n → a.getLsbD n = b.getLsbD n := by
  simp only [Nat.eq_iff_testBit_eq, Nat.testBit_div_two_pow, BitVec.testBit_toNat]
  exact ⟨fun h n hn => by simpa [Nat.sub_add_cancel hn] using h (n - m), fun h n => h _ (Nat.le_add_left m n)⟩

theorem digitAt_eq_iff {h k : Key} {l : Nat} :
    digitAt h l = digitAt k l ↔ ∀ j : Fin 3, h.getLsbD (3 * l + j) = k.getLsbD (3 * l + j) := by
  simp only [← getLsbD_digitAt]
  exact ⟨fun heq j => by rw [heq], octant_eq_of_getLsbD_eq⟩

theorem octantAt_eq_iff {p q : Coords} {l : Nat} :
    octantAt p l = octantAt q l ↔ ∀ j, (axis p j).getLsbD l = (axis q j).getLsbD l := by
  simp only [← getLsbD_octantAt]
  exact ⟨fun heq j => by rw [heq], octant_eq_of_getLsbD_eq⟩

theorem mem_take_levels {i l : Nat} : l ∈ levels.take (16 - i) ↔ i ≤ l ∧ l < 16 := by
  simp only [levels, ← List.map_take, List.take_range, List.mem_map, List.mem_range]
  exact ⟨fun ⟨a, ha, hl⟩ => by omega, fun hl => ⟨15 - l, by omega, by omega⟩⟩

theorem take_map_levels_eq_iff {f g : Nat → Octant} {i : Nat} :
    (levels.map f).take (16 - i) = (levels.map g).take (16 - i) ↔ ∀ l, i ≤ l → l < 16 → f l = g l := by
  simp only [← List.map_take, List.map_inj_left, mem_take_levels, and_imp]

theorem key_div_eq_iff {h k : Key} {i : Nat} :
    h.toNat / 2 ^ (3 * i) = k.toNat / 2 ^ (3 * i) ↔
      (digitsOf h).take (16 - i) = (digitsOf k).take (16 - i) := by
  simp only [digitsOf, take_map_levels_eq_iff, digitAt_eq_iff, div_two_pow_eq_iff]
  refine ⟨fun heq l hl _ j => heq _ (by omega), fun heq n hn => ?_⟩
  obtain ⟨l, j, rfl⟩ := eq_three_mul_add_axis n
  by_cases hl : l < 16
  · exact heq l (by omega) hl j
  · rw [BitVec.getLsbD_of_ge h _ (by omega), BitVec.getLsbD_of_ge k _ (by omega)]

theorem axis_div_eq_iff {p q : Coords} {i : Nat} :
    (∀ j, (axis p j).toNat / 2 ^ i = (axis q j).toNat / 2 ^ i) ↔
      (octantsOf p).take (16 - i) = (octantsOf q).take (16 - i) := by
  simp only [octantsOf, take_map_levels_eq_iff, octantAt_eq_iff, div_two_pow_eq_iff]
  refine ⟨fun heq l hl _ j => heq j l hl, fun heq j l hl => ?_⟩
  by_cases hl' : l < 16
  · exact heq l hl hl' j
  · rw [BitVec.getLsbD_of_ge _ l (by omega), BitVec.getLsbD_of_ge _ l (by omega)]

/-- Settles O32: the levels from `i` up come first in both lists, where the digits and the octants decide each other. -/
theorem hilbertKeysNest : Obligations.HilbertKeysNest := by
  intro h k i _
  calc h.toNat / 2 ^ (3 * i) = k.toNat / 2 ^ (3 * i)
    _ ↔ (digitsOf h).take (16 - i) = (digitsOf k).take (16 - i) := key_div_eq_iff
    _ ↔ (octantsOf (hilbertDec h)).take (16 - i) = (octantsOf (hilbertDec k)).take (16 - i) := by
      rw [octantsOf_hilbertDec, octantsOf_hilbertDec, take_decDigits, take_decDigits, decDigits_inj]
    _ ↔ ∀ j, (axis (hilbertDec h) j).toNat / 2 ^ i = (axis (hilbertDec k) j).toNat / 2 ^ i := axis_div_eq_iff.symm
    _ ↔ _ := by simp [Fin.forall_fin_succ, axis]

end Sys2Proof.Machine
end

section
/-! Lists of digits as numbers: a key is the number of its digits, and a coordinate the number of one bit of each
octant. With it, the loops of R91 and R92 in the spec's own form (R94 to R97). -/

namespace Sys2Proof.Machine

/-- The number that a list of octants writes, coarsest first, when each stands for `w` bits. -/
def packed {w : Nat} (f : Octant → BitVec w) : List Octant → Nat
  | [] => 0
  | d :: ds => 2 ^ (w * ds.length) * (f d).toNat + packed f ds

/-- What an octant adds to the coordinate of axis `j` (R12). -/
def axisDigit (j : Fin 3) (l : Octant) : BitVec 1 := BitVec.ofBool (l.getLsbD j)

theorem packed_lt {w : Nat} (f : Octant → BitVec w) (ds : List Octant) : packed f ds < 2 ^ (w * ds.length) := by
  induction ds with
  | nil => simp [packed]
  | cons d ds ih =>
    calc packed f (d :: ds) < 2 ^ (w * ds.length) * ((f d).toNat + 1) := by rw [packed, Nat.mul_add_one]; omega
      _ ≤ 2 ^ (w * ds.length) * 2 ^ w := Nat.mul_le_mul_left _ (f d).isLt
      _ = 2 ^ (w * (d :: ds).length) := by rw [List.length_cons, Nat.mul_add_one, Nat.pow_add]

/-- Bit `n` of the number is bit `n % w` of its digit `n / w`, counted from the finest. -/
theorem testBit_packed {w : Nat} (f : Octant → BitVec w) {ds : List Octant} {n : Nat} (hn : n < w * ds.length) :
    (packed f ds).testBit n = (f (ds.getD (ds.length - 1 - n / w) 0#3)).getLsbD (n % w) := by
  induction ds with
  | nil => simp at hn
  | cons d ds ih =>
    rw [packed, Nat.testBit_two_pow_mul_add _ (packed_lt f ds), BitVec.testBit_toNat]
    rw [List.length_cons, Nat.mul_add_one] at hn
    split
    case isTrue hlow =>
      have hdiv : n / w < ds.length := Nat.div_lt_of_lt_mul hlow
      rw [ih hlow, List.length_cons, show ds.length + 1 - 1 - n / w = ds.length - 1 - n / w + 1 by omega,
        List.getD_cons_succ]
    case isFalse hhigh =>
      obtain ⟨r, rfl⟩ := Nat.exists_eq_add_of_le (Nat.le_of_not_lt hhigh)
      have hr : r < w := by omega
      simp [Nat.mul_add_div (by omega : 0 < w), Nat.div_eq_of_lt hr, Nat.mod_eq_of_lt hr]

theorem ofNat_packed_cons {w : Nat} (v : Nat) (f : Octant → BitVec w) (d : Octant) (ds : List Octant) :
    BitVec.ofNat v (packed f (d :: ds)) =
      ((f d).setWidth v <<< (w * ds.length)) ||| BitVec.ofNat v (packed f ds) := by
  refine BitVec.eq_of_getLsbD_eq fun n hn => ?_
  have hbit : (packed f (d :: ds)).testBit n = if n < w * ds.length then (packed f ds).testBit n else
      (f d).getLsbD (n - w * ds.length) := by
    rw [packed, Nat.testBit_two_pow_mul_add _ (packed_lt f ds), BitVec.testBit_toNat]
  rw [BitVec.getLsbD_or, BitVec.getLsbD_shiftLeft, BitVec.getLsbD_ofNat, BitVec.getLsbD_ofNat,
    BitVec.getLsbD_setWidth, hbit]
  split
  case isTrue hlow => simp [hlow]
  case isFalse hhigh =>
    have hrest : (packed f ds).testBit n = false := by
      refine Nat.testBit_lt_two_pow ((packed_lt f ds).trans_le ?_)
      exact Nat.pow_le_pow_right (by decide) (Nat.le_of_not_lt hhigh)
    simp [hn, hhigh, hrest, show n - w * ds.length < v by omega]

theorem keyOfDigits_eq_packed {ds : List Octant} (hds : ds.length = 16) :
    keyOfDigits ds = BitVec.ofNat 48 (packed id ds) := by
  refine BitVec.eq_of_getLsbD_eq fun n hn => ?_
  rw [BitVec.getLsbD_ofNat, testBit_packed id (by omega), hds, keyOfDigits, getLsbD_bitsOf]
  simp [hn]

theorem axis_cellOfOctants_eq_packed {ls : List Octant} (hls : ls.length = 16) (j : Fin 3) :
    axis (cellOfOctants ls) j = BitVec.ofNat 16 (packed (axisDigit j) ls) := by
  refine BitVec.eq_of_getLsbD_eq fun i hi => ?_
  rw [BitVec.getLsbD_ofNat, testBit_packed (axisDigit j) (by omega), hls, getLsbD_axis_cellOfOctants ls hi]
  simp [hi, axisDigit, Nat.mod_one]

theorem toNat_eq_packed (h : Key) : h.toNat = packed id (digitsOf h) := by
  have hlt : packed id (digitsOf h) < 2 ^ 48 := packed_lt id (digitsOf h)
  conv_lhs => rw [← keyOfDigits_digitsOf h, keyOfDigits_eq_packed (length_digitsOf h)]
  rw [BitVec.toNat_ofNat, Nat.mod_eq_of_lt hlt]

theorem toNat_axis_hilbertDec (h : Key) (j : Fin 3) :
    (axis (hilbertDec h) j).toNat = packed (axisDigit j) (decDigits .start (digitsOf h)) := by
  have hlen : (decDigits .start (digitsOf h)).length = 16 := length_decDigits _ _
  have hlt := packed_lt (axisDigit j) (decDigits .start (digitsOf h))
  rw [hlen] at hlt
  rw [hilbertDec_eq, axis_cellOfOctants_eq_packed hlen, BitVec.toNat_ofNat, Nat.mod_eq_of_lt hlt]

/-! ### The loops (R91, R92) -/

theorem levels_eq_reverse : levels = (List.range 16).reverse := by decide

theorem reverse_range_succ (m : Nat) : (List.range (m + 1)).reverse = m :: (List.range m).reverse := by
  rw [List.range_succ, List.reverse_concat]

theorem octantAt_eq_append (p : Coords) (i : Nat) :
    octantAt p i =
      BitVec.ofBool (p.z.getLsbD i) ++ BitVec.ofBool (p.y.getLsbD i) ++ BitVec.ofBool (p.x.getLsbD i) := by
  have happend : ∀ x y z : Bool, BitVec.cons z (BitVec.cons y (BitVec.cons x 0#0)) =
      BitVec.ofBool z ++ BitVec.ofBool y ++ BitVec.ofBool x := by decide
  exact happend (p.x.getLsbD i) (p.y.getLsbD i) (p.z.getLsbD i)

/-- A turn of the loop of R91 puts the digit of its level into the key. -/
theorem hilbertEncTurn_eq (p : Coords) (k : Key) (o : Orient) (i : Nat) :
    hilbertEncTurn p (k, o) i =
      let w := gcInv (o.toCurve (octantAt p i))
      (k ||| (w.setWidth 48 <<< (3 * i)), o.next w) := by
  rw [octantAt_eq_append]
  rfl

/-- A turn of the loop of R92 puts one bit of the octant of its level into each axis. -/
theorem axis_hilbertDecTurn (h : Key) (c : Coords) (o : Orient) (i : Nat) (j : Fin 3) :
    axis (hilbertDecTurn h (c, o) i).1 j =
      axis c j ||| ((axisDigit j (o.fromCurve (gc (digitAt h i)))).setWidth 16 <<< i) :=
  match j with
  | 0 | 1 | 2 => rfl

theorem hilbertDecTurn_orient (h : Key) (c : Coords) (o : Orient) (i : Nat) :
    (hilbertDecTurn h (c, o) i).2 = o.next (digitAt h i) := rfl

theorem foldl_hilbertEncTurn (p : Coords) (m : Nat) (k : Key) (o : Orient) :
    ((List.range m).reverse.foldl (hilbertEncTurn p) (k, o)).1 =
      k ||| BitVec.ofNat 48 (packed id (encDigits o ((List.range m).reverse.map (octantAt p)))) := by
  induction m generalizing k o with
  | zero => simp [encDigits, packed]
  | succ m ih =>
    rw [reverse_range_succ, List.foldl_cons, hilbertEncTurn_eq, ih, List.map_cons, encDigits, ofNat_packed_cons,
      BitVec.or_assoc]
    simp

theorem foldl_hilbertDecTurn (h : Key) (m : Nat) (c : Coords × Orient) (j : Fin 3) :
    axis ((List.range m).reverse.foldl (hilbertDecTurn h) c).1 j =
      axis c.1 j |||
        BitVec.ofNat 16 (packed (axisDigit j) (decDigits c.2 ((List.range m).reverse.map (digitAt h)))) := by
  induction m generalizing c with
  | zero => simp [decDigits, packed]
  | succ m ih =>
    rw [reverse_range_succ, List.foldl_cons, ih, axis_hilbertDecTurn, hilbertDecTurn_orient, List.map_cons,
      decDigits, ofNat_packed_cons, BitVec.or_assoc]
    simp

theorem hilbertEncLoop_eq (p : Coords) : hilbertEncLoop p = hilbertEnc p := by
  rw [hilbertEnc_eq, keyOfDigits_eq_packed (length_encDigits _ _), octantsOf, levels_eq_reverse]
  exact (foldl_hilbertEncTurn p 16 0#48 .start).trans (BitVec.zero_or ..)

theorem hilbertDecLoop_eq (h : Key) : hilbertDecLoop h = hilbertDec h := by
  refine eq_of_axis_eq fun j => ?_
  rw [hilbertDec_eq, axis_cellOfOctants_eq_packed (length_decDigits _ _), digitsOf, levels_eq_reverse]
  have hzero : axis ⟨0#16, 0#16, 0#16⟩ j = 0#16 := match j with | 0 | 1 | 2 => rfl
  have hloop := foldl_hilbertDecTurn h 16 (⟨0#16, 0#16, 0#16⟩, .start) j
  rw [hzero, BitVec.zero_or] at hloop
  exact hloop

/-! ### The commands (R94 to R97) -/

theorem exec_m2h {s : State} (hb : s.busy = true) (ha : s.abrt = false) :
    exec .m2h s = .next { s with
      result := mkKW (hilbertEnc (mortonDec (kwKey s.keyIn))) .ok, busy := false, done := true, abrt := false,
      vphase := false } :=
  exec_scalar_result (f := false) rfl rfl rfl hb ha

theorem exec_h2m {s : State} (hb : s.busy = true) (ha : s.abrt = false) :
    exec .h2m s = .next { s with
      result := mkKW (mortonEnc (hilbertDec (kwKey s.keyIn))) .ok, busy := false, done := true, abrt := false,
      vphase := false } :=
  exec_scalar_result (f := false) rfl rfl rfl hb ha

/-- Settles O16: the machine's codec is the loops, and each command's element is one word with status 0. -/
theorem hilbertCommandsFollowTheLoops : Obligations.HilbertCommandsFollowTheLoops := by
  intro s hb ha
  simp only [hilbertEncLoop_eq, hilbertDecLoop_eq, ← mkKW_ok, ← mkCW_ok]
  exact ⟨exec_scalar_result (f := false) rfl rfl rfl hb ha, exec_scalar_result (f := false) rfl rfl rfl hb ha,
    exec_m2h hb ha, exec_h2m hb ha⟩

/-- The key word of the key a word holds is that word without its bits above the key (R61, R62). -/
theorem mkKW_kwKey (w : Word) : mkKW (kwKey w) .ok = w &&& 0x0000FFFFFFFFFFFF#64 := by
  have hmask : 0x0000FFFFFFFFFFFF#64 = (BitVec.allOnes 48).setWidth 64 := by decide
  refine BitVec.eq_of_getLsbD_eq fun n hn => ?_
  rw [hmask, getLsbD_mkKW_ok, kwKey, BitVec.getLsbD_extractLsb', BitVec.getLsbD_and, BitVec.getLsbD_setWidth,
    BitVec.getLsbD_allOnes, Nat.zero_add, Bool.and_comm]
  simp [hn]

/-- Settles O33: the second command finds in KEY_IN the key the first one wrote, and the codecs undo each other. -/
theorem keyConversionsAreInverse : Obligations.KeyConversionsAreInverse := by
  intro s hb ha
  refine ⟨⟨_, exec_m2h hb ha, _, exec_h2m rfl rfl, ?_⟩, _, exec_h2m hb ha, _, exec_m2h rfl rfl, ?_⟩
  · rw [kwKey_mkKW, hilbertDec_hilbertEnc, mortonEnc_mortonDec, mkKW_kwKey]
  · rw [kwKey_mkKW, mortonDec_mortonEnc, hilbertEnc_hilbertDec, mkKW_kwKey]

end Sys2Proof.Machine
end

section
/-! The Hilbert curve is continuous (R93c, R93d). Inside a cube the curve enters at one corner and leaves at another,
and where it goes from one child to the next, the corner it leaves by touches the corner it enters by. -/

namespace Sys2Proof.Machine

/-! ### The corners of a cube -/

/-- The corner at which the curve leaves a cube: its last octant. It enters at `o.e`, its first. -/
def Orient.exitCorner (o : Orient) : Octant := o.fromCurve (gc 7#3)

/-- The recursion keeps d below 3 (R90), so that 24 states are all there are. -/
theorem Orient.forall_of_lt {P : Orient → Prop} (h : ∀ (e : Octant) (d : Fin 3), P ⟨e, d⟩) {o : Orient}
    (ho : o.d < 3) : P o :=
  h o.e ⟨o.d, ho⟩

theorem Orient.next_d_lt (o : Orient) (w : Octant) : (o.next w).d < 3 := Nat.mod_lt _ (by decide)

/-- The first octant of the curve in a cube is its entry corner, and so it is in that octant. -/
theorem Orient.first_child {o : Orient} (ho : o.d < 3) : o.fromCurve (gc 0#3) = o.e ∧ (o.next 0#3).e = o.e :=
  forall_of_lt (P := fun o => o.fromCurve (gc 0#3) = o.e ∧ (o.next 0#3).e = o.e) (by decide) ho

/-- In the last octant of a cube the curve leaves at the corner it leaves the cube by. -/
theorem Orient.exitCorner_last_child {o : Orient} (ho : o.d < 3) : (o.next 7#3).exitCorner = o.exitCorner :=
  forall_of_lt (P := fun o => (o.next 7#3).exitCorner = o.exitCorner) (by decide) ho

/-- Octants `l` and `m` share a face, and corner `c` of the first touches corner `c'` of the second across it. -/
def CornersTouch (l c m c' : Octant) : Prop :=
  ∃ g : Fin 3, (m.getLsbD g = !l.getLsbD g ∧ c.getLsbD g = m.getLsbD g ∧ c'.getLsbD g = l.getLsbD g) ∧
    ∀ j : Fin 3, j ≠ g → l.getLsbD j = m.getLsbD j ∧ c.getLsbD j = c'.getLsbD j

/-- The exit corner of each child of a cube touches the entry corner of the next child. -/
theorem Orient.children_touch {o : Orient} (ho : o.d < 3) (w : Octant) (hw : w ≠ 7#3) :
    CornersTouch (o.fromCurve (gc w)) (o.next w).exitCorner (o.fromCurve (gc (w + 1#3))) (o.next (w + 1#3)).e :=
  forall_of_lt (P := fun o => ∀ w, w ≠ 7#3 →
    CornersTouch (o.fromCurve (gc w)) (o.next w).exitCorner (o.fromCurve (gc (w + 1#3))) (o.next (w + 1#3)).e)
    (by unfold CornersTouch; decide) ho w hw

/-! ### Lists of digits with consecutive numbers -/

theorem toNat_axisDigit (j : Fin 3) (l : Octant) : (axisDigit j l).toNat = (l.getLsbD j).toNat :=
  BitVec.toNat_ofBool _

/-- The coordinate of a corner: all ones or all zeros. -/
theorem packed_axisDigit_replicate (j : Fin 3) (n : Nat) (c : Octant) :
    packed (axisDigit j) (List.replicate n c) = (2 ^ n - 1) * (c.getLsbD j).toNat := by
  induction n with
  | zero => simp [packed]
  | succ n ih =>
    rw [List.replicate_succ, packed, ih, toNat_axisDigit, List.length_replicate, Nat.one_mul, ← Nat.add_mul]
    have hpos := Nat.two_pow_pos n
    congr 1
    omega

/-- The lowest number is written with digits 0 alone, which name the entry corner. -/
theorem decDigits_of_packed_eq_zero {us : List Octant} (h : packed id us = 0) {o : Orient} (ho : o.d < 3) :
    decDigits o us = List.replicate us.length o.e := by
  induction us generalizing o with
  | nil => rfl
  | cons u us ih =>
    obtain ⟨hu, hus⟩ := Nat.add_eq_zero_iff.mp h
    have hzero : u = 0#3 := BitVec.eq_of_toNat_eq (by simpa using hu)
    obtain ⟨hfirst, hentry⟩ := o.first_child ho
    rw [decDigits, hzero, hfirst, ih hus (o.next_d_lt _), hentry, List.length_cons, List.replicate_succ]

/-- A number and its successor, digit and rest: the rest goes up, or it was the highest and the digit goes up. -/
theorem succ_cases {b a r a' r' : Nat} (hr : r < b) (hr' : r' < b) (h : b * a + r + 1 = b * a' + r') :
    (a' = a ∧ r + 1 = r') ∨ (a' = a + 1 ∧ r + 1 = b ∧ r' = 0) := by
  have hunique {d s : Nat} (hs : s < b) (heq : s + b * d = r' + b * a') : d = a' ∧ s = r' := by
    have hb : 0 < b := by omega
    obtain ⟨hdiv, hmod⟩ := (Nat.div_mod_unique hb).mpr ⟨heq, hs⟩
    obtain ⟨hdiv', hmod'⟩ := (Nat.div_mod_unique hb).mpr ⟨rfl, hr'⟩
    exact ⟨hdiv.symm.trans hdiv', hmod.symm.trans hmod'⟩
  rcases Nat.lt_or_ge (r + 1) b with hlt | hge
  · obtain ⟨hdigit, hrest⟩ := hunique (d := a) hlt (by omega)
    exact .inl ⟨hdigit.symm, hrest⟩
  · have htop : r + 1 = b := by omega
    obtain ⟨hdigit, hrest⟩ := hunique (d := a + 1) (s := 0) (by omega) (by rw [Nat.mul_add_one]; omega)
    exact .inr ⟨hdigit.symm, htop, hrest.symm⟩

/-- The highest number is written with digits 7 alone, which name the exit corner. -/
theorem decDigits_of_packed_succ_eq {ws : List Octant} (h : packed id ws + 1 = 2 ^ (3 * ws.length)) {o : Orient}
    (ho : o.d < 3) : decDigits o ws = List.replicate ws.length o.exitCorner := by
  induction ws generalizing o with
  | nil => rfl
  | cons w ws ih =>
    have hlt := packed_lt id ws
    have hnext : 2 ^ (3 * ws.length) * w.toNat + packed id ws + 1 = 2 ^ (3 * ws.length) * 8 + 0 := by
      rw [List.length_cons, Nat.mul_add_one, Nat.pow_add] at h
      exact h
    have hcases := succ_cases hlt (Nat.two_pow_pos _) hnext
    have hw := w.isLt
    have hseven : w = 7#3 := BitVec.eq_of_toNat_eq (by simp; omega)
    have hrest : packed id ws + 1 = 2 ^ (3 * ws.length) := by omega
    rw [decDigits, hseven, ih hrest (o.next_d_lt _), o.exitCorner_last_child ho, List.length_cons,
      List.replicate_succ]
    rfl

/-- The cells of two lists of octants differ by 1 in one coordinate (R93c). -/
def AxisStep (ls ms : List Octant) : Prop :=
  ∃ g : Fin 3,
    (packed (axisDigit g) ls + 1 = packed (axisDigit g) ms ∨ packed (axisDigit g) ms + 1 = packed (axisDigit g) ls) ∧
    ∀ j, j ≠ g → packed (axisDigit j) ls = packed (axisDigit j) ms

theorem AxisStep.cons {ls ms : List Octant} (h : AxisStep ls ms) (hlen : ls.length = ms.length) (l : Octant) :
    AxisStep (l :: ls) (l :: ms) := by
  obtain ⟨g, hstep, hothers⟩ := h
  refine ⟨g, ?_, fun j hj => ?_⟩
  · rw [packed, packed, hlen]
    omega
  · rw [packed, packed, hlen, hothers j hj]

theorem AxisStep.of_cornersTouch {l c m c' : Octant} (h : CornersTouch l c m c') (n : Nat) :
    AxisStep (l :: List.replicate n c) (m :: List.replicate n c') := by
  obtain ⟨g, ⟨hm, hc, hc'⟩, hothers⟩ := h
  have hpos := Nat.two_pow_pos n
  refine ⟨g, ?_, fun j hj => ?_⟩
  · simp only [packed, packed_axisDigit_replicate, toNat_axisDigit, hm, hc, hc', List.length_replicate, Nat.one_mul]
    cases l.getLsbD g with
    | false =>
      simp only [Bool.not_false, Bool.toNat_false, Bool.toNat_true]
      omega
    | true =>
      simp only [Bool.not_true, Bool.toNat_false, Bool.toNat_true]
      omega
  · obtain ⟨hlm, hcc'⟩ := hothers j hj
    simp only [packed, packed_axisDigit_replicate, toNat_axisDigit, hlm, hcc', List.length_replicate]

/-- Consecutive numbers name neighboring cells (R93c): below their common digits, one list goes on in the last corner
of a child and the other in the first corner of the next child. -/
theorem axisStep_decDigits {ws us : List Octant} (hlen : ws.length = us.length)
    (h : packed id ws + 1 = packed id us) {o : Orient} (ho : o.d < 3) :
    AxisStep (decDigits o ws) (decDigits o us) := by
  induction ws generalizing us o with
  | nil =>
    rw [List.eq_nil_of_length_eq_zero hlen.symm] at h
    simp [packed] at h
  | cons w ws ih =>
    obtain _ | ⟨u, us⟩ := us
    · simp at hlen
    have hlen' : ws.length = us.length := Nat.succ.inj hlen
    have hws := packed_lt id ws
    have hus := packed_lt id us
    rw [packed, packed, ← hlen'] at h
    rw [← hlen'] at hus
    rw [decDigits, decDigits]
    obtain ⟨hdigit, hrest⟩ | ⟨hdigit, hhigh, hlow⟩ := succ_cases hws hus h
    · obtain rfl : u = w := BitVec.eq_of_toNat_eq hdigit
      exact (ih hlen' hrest (o.next_d_lt u)).cons (by simp [hlen']) _
    · simp only [id] at hdigit
      have hu := u.isLt
      have hw : w ≠ 7#3 := by rintro rfl; simp at hdigit; omega
      obtain rfl : u = w + 1#3 := BitVec.eq_of_toNat_eq (by simp [hdigit]; omega)
      rw [decDigits_of_packed_succ_eq hhigh (o.next_d_lt w), decDigits_of_packed_eq_zero hlow (o.next_d_lt _), hlen']
      exact .of_cornersTouch (o.children_touch ho w hw) _

/-- Settles O31: the ends by evaluation, the steps by the lists of digits of a key and its successor. -/
theorem hilbertCurveIsContinuous : Obligations.HilbertCurveIsContinuous := by
  refine ⟨by decide, by decide, fun h hlt => ?_⟩
  have hsucc : (h + 1#48).toNat = h.toNat + 1 := by
    rw [BitVec.toNat_add]
    exact Nat.mod_eq_of_lt (by simp; omega)
  rw [toNat_eq_packed, toNat_eq_packed] at hsucc
  obtain ⟨g, hstep, hothers⟩ := axisStep_decDigits (o := .start) (by simp) hsucc.symm (by decide)
  simp only [← toNat_axis_hilbertDec, BitVec.toNat_inj] at hstep hothers
  match g with
  | 0 => exact .inl ⟨hstep, hothers 1 (by decide), hothers 2 (by decide)⟩
  | 1 => exact .inr (.inl ⟨hothers 0 (by decide), hstep, hothers 2 (by decide)⟩)
  | 2 => exact .inr (.inr ⟨hothers 0 (by decide), hothers 1 (by decide), hstep⟩)

end Sys2Proof.Machine
end

section
/-! The sum rule of parity and signed coordinates (R98, R99). -/

namespace Sys2Proof.Machine

/-- Settles O34: the circuit is the definition of `evenCell`, and its value is the parity of the sum. -/
theorem parityCircuitIsTheSumRule : Obligations.ParityCircuitIsTheSumRule :=
  fun p => ⟨evenCell_iff p, rfl⟩

/-- Two's complement keeps the parity of a coordinate: 2^16 is even (R99 a). -/
theorem toNat_ofInt_mod_two (i : Int) : ((BitVec.ofInt 16 i).toNat : Int) % 2 = i % 2 := by
  have hrepr : ((BitVec.ofInt 16 i).toNat : Int) = i % 65536 := by
    rw [BitVec.toNat_ofInt]
    exact Int.toNat_of_nonneg (Int.emod_nonneg i (by decide))
  rw [hrepr]
  exact Int.emod_emod_of_dvd i (by decide)

/-- The validator on patterns of any integers, signed or past 16 bits, answers by their sum (R99 a). -/
theorem evenCell_ofInt_iff (x y z : Int) :
    evenCell ⟨BitVec.ofInt 16 x, BitVec.ofInt 16 y, BitVec.ofInt 16 z⟩ = true ↔ (x + y + z) % 2 = 0 := by
  have hx := toNat_ofInt_mod_two x
  have hy := toNat_ofInt_mod_two y
  have hz := toNat_ofInt_mod_two z
  rw [evenCell_iff]
  dsimp only
  omega

/-- An offset added to each axis keeps the validator's answer right iff it is even (R99 b). -/
theorem evenCell_ofInt_add_iff {o : Int} (x y z : Int) :
    (evenCell ⟨BitVec.ofInt 16 (x + o), BitVec.ofInt 16 (y + o), BitVec.ofInt 16 (z + o)⟩ = true ↔
      (x + y + z) % 2 = 0) ↔ o % 2 = 0 := by
  rw [evenCell_ofInt_iff]
  omega

/-- Settles O35: the patterns of any integers have the parity of their sum, and 32768 is an even offset. -/
theorem parityOfSignedCoordinates : Obligations.ParityOfSignedCoordinates := by
  intro x y z _ _ _ _ _ _
  exact ⟨evenCell_ofInt_iff x y z, (evenCell_ofInt_add_iff x y z).mpr (by decide)⟩

end Sys2Proof.Machine
end

section
/-! The neighbor slots as displacements of a cell (R102, R103), and the laws of the neighbor relation that follow
(R105 to R107). -/

namespace Sys2Proof.Machine

/-! ### The neighbor at an offset -/

/-- Cell `q` is cell `p` moved by an offset, over unbounded integers (R101). -/
def Displaced (p : Coords) (o : Offset) (q : Coords) : Prop :=
  (q.x.toNat : Int) = p.x.toNat + o.dx ∧ (q.y.toNat : Int) = p.y.toNat + o.dy ∧
    (q.z.toNat : Int) = p.z.toNat + o.dz

/-- An offset leads from cell `p` to a cell of the domain (R103). -/
def StaysInside (p : Coords) (o : Offset) : Prop :=
  0 ≤ (p.x.toNat : Int) + o.dx ∧ (p.x.toNat : Int) + o.dx ≤ 65535 ∧
    0 ≤ (p.y.toNat : Int) + o.dy ∧ (p.y.toNat : Int) + o.dy ≤ 65535 ∧
    0 ≤ (p.z.toNat : Int) + o.dz ∧ (p.z.toNat : Int) + o.dz ≤ 65535

theorem inDomain_iff (n : Int) : inDomain n = true ↔ 0 ≤ n ∧ n ≤ 65535 := by
  simp [inDomain]

/-- An integer in the domain is the value of the coordinate it is stored as (R6). -/
theorem ofInt_eq_iff {n : Int} (h0 : 0 ≤ n) (h1 : n ≤ 65535) (v : Coord) :
    BitVec.ofInt 16 n = v ↔ (v.toNat : Int) = n := by
  have hn : (BitVec.ofInt 16 n).toNat = n.toNat := by
    rw [BitVec.toNat_ofInt, Int.emod_eq_of_lt h0 (by omega)]
  rw [← BitVec.toNat_inj, hn]
  omega

theorem neighborAt_of_staysInside {p : Coords} {o : Offset} (h : StaysInside p o) :
    neighborAt p o = some ⟨BitVec.ofInt 16 (p.x.toNat + o.dx), BitVec.ofInt 16 (p.y.toNat + o.dy),
      BitVec.ofInt 16 (p.z.toNat + o.dz)⟩ := by
  obtain ⟨hx0, hx1, hy0, hy1, hz0, hz1⟩ := h
  simp [neighborAt, (inDomain_iff _).mpr ⟨hx0, hx1⟩, (inDomain_iff _).mpr ⟨hy0, hy1⟩,
    (inDomain_iff _).mpr ⟨hz0, hz1⟩]

/-- A slot is out of range exactly where its integer triple leaves the domain (R103). -/
theorem neighborAt_eq_none_iff {p : Coords} {o : Offset} : neighborAt p o = none ↔ ¬ StaysInside p o := by
  constructor
  · intro hnone hin
    rw [neighborAt_of_staysInside hin] at hnone
    contradiction
  · intro hout
    refine if_neg fun hin => hout ?_
    simp only [Bool.and_eq_true, inDomain_iff] at hin
    obtain ⟨⟨⟨hx0, hx1⟩, hy0, hy1⟩, hz0, hz1⟩ := hin
    exact ⟨hx0, hx1, hy0, hy1, hz0, hz1⟩

/-- A cell is displaced only to places inside the domain. -/
theorem Displaced.staysInside {p q : Coords} {o : Offset} (h : Displaced p o q) : StaysInside p o := by
  obtain ⟨hx, hy, hz⟩ := h
  have hqx := q.x.isLt
  have hqy := q.y.isLt
  have hqz := q.z.isLt
  unfold StaysInside
  omega

/-- The neighbor at an offset is the displaced cell (R103). -/
theorem neighborAt_eq_some_iff {p q : Coords} {o : Offset} : neighborAt p o = some q ↔ Displaced p o q := by
  by_cases hin : StaysInside p o
  · have ⟨hx0, hx1, hy0, hy1, hz0, hz1⟩ := hin
    obtain ⟨x, y, z⟩ := q
    rw [neighborAt_of_staysInside hin, Option.some.injEq, Coords.mk.injEq, ofInt_eq_iff hx0 hx1,
      ofInt_eq_iff hy0 hy1, ofInt_eq_iff hz0 hz1, Displaced]
  · rw [neighborAt_eq_none_iff.mpr hin]
    exact iff_of_false nofun fun h => hin h.staysInside

/-! ### The slots -/

/-- The table holds the offsets of R102's closed form. -/
theorem offsets_getElem?_eq_some_iff {k : Nat} {o : Offset} :
    offsets[k]? = some o ↔ k < 14 ∧ slotOffset k = o := by
  by_cases hk : k < 14
  · have htable : ∀ k : Fin 14, offsets[k.val]? = some (slotOffset k) := by decide
    simp [htable ⟨k, hk⟩, hk]
  · simp [List.getElem?_eq_none (show offsets.length ≤ k from Nat.le_of_not_lt hk), hk]

theorem mem_offsets_iff {o : Offset} : o ∈ offsets ↔ ∃ k : Fin 14, slotOffset k = o := by
  simp only [List.mem_iff_getElem?, offsets_getElem?_eq_some_iff, Fin.exists_iff, exists_prop]

theorem slotHolds_iff {p q : Coords} {k : Nat} : slotHolds p k q ↔ k < 14 ∧ Displaced p (slotOffset k) q := by
  simp only [slotHolds, offsets_getElem?_eq_some_iff, neighborAt_eq_some_iff, and_assoc, exists_and_left,
    exists_eq_left']

/-! ### Parity, distance and distinctness (R106, R107 b, d) -/

/-- The offset of a slot before 8 has squared length 3 and an odd sum, of one from 8 squared length 4 and an even
sum (R102, R106). -/
theorem slotOffset_length_and_parity : ∀ k < 14,
    let o := slotOffset k
    if k < 8 then o.dx ^ 2 + o.dy ^ 2 + o.dz ^ 2 = 3 ∧ (o.dx + o.dy + o.dz) % 2 = 1
    else o.dx ^ 2 + o.dy ^ 2 + o.dz ^ 2 = 4 ∧ (o.dx + o.dy + o.dz) % 2 = 0 := by decide

/-- The squared distance of a displaced cell is the squared length of the offset. -/
theorem Displaced.distance {p q : Coords} {o : Offset} (h : Displaced p o q) :
    ((q.x.toNat : Int) - p.x.toNat) ^ 2 + ((q.y.toNat : Int) - p.y.toNat) ^ 2
      + ((q.z.toNat : Int) - p.z.toNat) ^ 2 = o.dx ^ 2 + o.dy ^ 2 + o.dz ^ 2 := by
  obtain ⟨hx, hy, hz⟩ := h
  rw [hx, hy, hz, add_sub_cancel_left, add_sub_cancel_left, add_sub_cancel_left]

/-- An offset with an odd sum flips the parity. -/
theorem Displaced.evenCell_of_odd {p q : Coords} {o : Offset} (h : Displaced p o q)
    (ho : (o.dx + o.dy + o.dz) % 2 = 1) : evenCell q = !evenCell p := by
  obtain ⟨hx, hy, hz⟩ := h
  rw [Bool.eq_iff_iff, Bool.not_eq_true', ← Bool.not_eq_true, evenCell_iff, evenCell_iff]
  omega

/-- An offset with an even sum keeps the parity. -/
theorem Displaced.evenCell_of_even {p q : Coords} {o : Offset} (h : Displaced p o q)
    (ho : (o.dx + o.dy + o.dz) % 2 = 0) : evenCell q = evenCell p := by
  obtain ⟨hx, hy, hz⟩ := h
  rw [Bool.eq_iff_iff, evenCell_iff, evenCell_iff]
  omega

/-- Settles O37: the length and the sum of the slot's offset give the distance and the parity of its cell. -/
theorem neighborParityAndDistance : Obligations.NeighborParityAndDistance := by
  intro p q k hslot
  obtain ⟨hk, hq⟩ := slotHolds_iff.mp hslot
  have hoffset := slotOffset_length_and_parity k hk
  dsimp only at hoffset ⊢
  rw [hq.distance]
  split at hoffset
  · next hdiagonal =>
    obtain ⟨hlength, hsum⟩ := hoffset
    rw [if_pos hdiagonal]
    exact ⟨hq.evenCell_of_odd hsum, hlength⟩
  · next haxis =>
    obtain ⟨hlength, hsum⟩ := hoffset
    rw [if_neg haxis]
    exact ⟨hq.evenCell_of_even hsum, hlength⟩

/-- A displacement names its offset. -/
theorem Displaced.offset_eq {p q : Coords} {o o' : Offset} (h : Displaced p o q) (h' : Displaced p o' q) :
    o = o' := by
  obtain ⟨hx, hy, hz⟩ := h
  obtain ⟨hx', hy', hz'⟩ := h'
  rw [Offset.mk.injEq]
  omega

/-- No two slots have one offset (R102). -/
theorem slotOffset_inj : ∀ k < 14, ∀ k' < 14, slotOffset k = slotOffset k' → k = k' := by decide

/-- Settles O38: a slot's cell lies at distance 3 or 4, and the cell with the slot's offset names the slot. -/
theorem neighborsAreDistinct : Obligations.NeighborsAreDistinct := by
  intro p q q' k k' hslot hslot'
  obtain ⟨hk, hq⟩ := slotHolds_iff.mp hslot
  obtain ⟨hk', hq'⟩ := slotHolds_iff.mp hslot'
  constructor
  · rintro rfl
    have hdistance := neighborParityAndDistance q q k hslot
    simp at hdistance
  · rintro hne rfl
    exact hne (slotOffset_inj k hk k' hk' (hq.offset_eq hq'))

/-! ### The opposite slot (R107 c) -/

/-- The opposite slot exists and has the opposite offset (R102). -/
theorem slotOffset_opposite : ∀ k < 14,
    (if k < 8 then k ^^^ 7 else k ^^^ 1) < 14 ∧
      slotOffset (if k < 8 then k ^^^ 7 else k ^^^ 1) =
        ⟨-(slotOffset k).dx, -(slotOffset k).dy, -(slotOffset k).dz⟩ := by decide

theorem Displaced.symm {p q : Coords} {o : Offset} (h : Displaced p o q) :
    Displaced q ⟨-o.dx, -o.dy, -o.dz⟩ p := by
  obtain ⟨hx, hy, hz⟩ := h
  refine ⟨?_, ?_, ?_⟩
  all_goals
    dsimp only
    omega

/-- Settles O39: the opposite slot leads back. -/
theorem neighborsAreSymmetric : Obligations.NeighborsAreSymmetric := by
  intro p q k hslot
  obtain ⟨hk, hq⟩ := slotHolds_iff.mp hslot
  obtain ⟨hopp, hoffset⟩ := slotOffset_opposite k hk
  exact slotHolds_iff.mpr ⟨hopp, hoffset ▸ hq.symm⟩

end Sys2Proof.Machine
end

section
/-! The neighbor function slot by slot: when it fails, what each slot holds (R103 to R105), and the commands
(R107 e to R111). -/

namespace Sys2Proof.Machine

/-! ### Failure (R104, R105) -/

/-- The neighbor function fails: F = 1 and some slot is out of range (R103). -/
def NeighborsFail (p : Coords) (f : Bool) : Prop := f = true ∧ ∃ k : Fin 14, ¬ StaysInside p (slotOffset k)

theorem neighborsFail_iff_exists_none {p : Coords} {f : Bool} :
    NeighborsFail p f ↔ f = true ∧ ∃ o ∈ offsets, neighborAt p o = none := by
  simp only [NeighborsFail, mem_offsets_iff, neighborAt_eq_none_iff]
  constructor
  · rintro ⟨hf, k, hk⟩
    exact ⟨hf, _, ⟨k, rfl⟩, hk⟩
  · rintro ⟨hf, _, ⟨k, rfl⟩, hk⟩
    exact ⟨hf, k, hk⟩

theorem neighbors_of_fail {p : Coords} {f : Bool} (h : NeighborsFail p f) (enc : Coords → Word) :
    neighbors p f enc = { outs := List.replicate 14 outOfRangeWord, st := .outOfRange } := by
  obtain ⟨rfl, o, ho, hnone⟩ := neighborsFail_iff_exists_none.mp h
  rcases neighbors_cases p true enc with ⟨-, -, hout⟩ | ⟨hok | hok, -⟩
  · exact hout
  · contradiction
  · exact absurd hnone (hok o ho)

theorem neighbors_of_not_fail {p : Coords} {f : Bool} (h : ¬ NeighborsFail p f) (enc : Coords → Word) :
    neighbors p f enc =
      { outs := offsets.map fun o => ((neighborAt p o).map enc).getD outOfRangeWord, st := .ok } := by
  rcases neighbors_cases p f enc with ⟨hf, hnone, -⟩ | ⟨-, hout⟩
  · exact absurd (neighborsFail_iff_exists_none.mpr ⟨hf, hnone⟩) h
  · exact hout

theorem neighbors_st_eq_outOfRange_iff (p : Coords) (f : Bool) (enc : Coords → Word) :
    (neighbors p f enc).st = .outOfRange ↔ NeighborsFail p f := by
  by_cases h : NeighborsFail p f
  · simp [neighbors_of_fail h, h]
  · simp [neighbors_of_not_fail h, h]

/-- No offset moves a coordinate by more than 2 (R102). -/
theorem offsets_bound : ∀ o ∈ offsets,
    -2 ≤ o.dx ∧ o.dx ≤ 2 ∧ -2 ≤ o.dy ∧ o.dy ≤ 2 ∧ -2 ≤ o.dz ∧ o.dz ≤ 2 := by decide

/-- A cell has all its neighbors exactly where each coordinate can move by 2 either way: no offset moves further,
and the axis offsets move that far (R105). -/
theorem forall_offsets_staysInside_iff (p : Coords) :
    (∀ o ∈ offsets, StaysInside p o) ↔ ∀ v ∈ [p.x, p.y, p.z], 2 ≤ v.toNat ∧ v.toNat ≤ 65533 := by
  simp only [List.forall_mem_cons, List.not_mem_nil, false_imp_iff, implies_true, and_true]
  constructor
  · intro h
    obtain ⟨-, hx1, -⟩ := h ⟨2, 0, 0⟩ (by decide)
    obtain ⟨hx0, -⟩ := h ⟨-2, 0, 0⟩ (by decide)
    obtain ⟨-, -, -, hy1, -⟩ := h ⟨0, 2, 0⟩ (by decide)
    obtain ⟨-, -, hy0, -⟩ := h ⟨0, -2, 0⟩ (by decide)
    obtain ⟨-, -, -, -, -, hz1⟩ := h ⟨0, 0, 2⟩ (by decide)
    obtain ⟨-, -, -, -, hz0, -⟩ := h ⟨0, 0, -2⟩ (by decide)
    dsimp only at hx0 hx1 hy0 hy1 hz0 hz1
    omega
  · rintro ⟨hx, hy, hz⟩ o ho
    have hbound := offsets_bound o ho
    unfold StaysInside
    omega

/-- Settles O36: a slot is out of range exactly where a coordinate cannot move by 2. -/
theorem neighborsFailExactlyAtTheEdges : Obligations.NeighborsFailExactlyAtTheEdges := by
  intro p enc
  have hedge (v : Coord) : ¬ (2 ≤ v.toNat ∧ v.toNat ≤ 65533) ↔
      v.toNat = 0 ∨ v.toNat = 1 ∨ v.toNat = 65534 ∨ v.toNat = 65535 := by
    have := v.isLt
    omega
  calc (neighbors p true enc).st = .outOfRange
      ↔ ∃ o ∈ offsets, ¬ StaysInside p o := by
        simp only [neighbors_st_eq_outOfRange_iff, neighborsFail_iff_exists_none, neighborAt_eq_none_iff, true_and]
    _ ↔ ¬ ∀ o ∈ offsets, StaysInside p o := by simp only [not_forall, exists_prop]
    _ ↔ ∃ v ∈ [p.x, p.y, p.z], ¬ (2 ≤ v.toNat ∧ v.toNat ≤ 65533) := by
        rw [forall_offsets_staysInside_iff]
        simp only [not_forall, exists_prop]
    _ ↔ _ := by simp only [hedge]

/-! ### The slots' words (R103) -/

/-- Where the neighbor function fails, every slot has the out-of-range mark (R103). -/
theorem slotWord_of_fail {p : Coords} {f : Bool} (h : NeighborsFail p f) (enc : Coords → Word) {k : Nat}
    (hk : k < 14) : (neighbors p f enc).outs.getD k 0#64 = outOfRangeWord := by
  rw [neighbors_of_fail h]
  exact List.getD_replicate _ hk

/-- Else each slot has its neighbor, or the out-of-range mark (R103). -/
theorem slotWord_of_not_fail {p : Coords} {f : Bool} (h : ¬ NeighborsFail p f) (enc : Coords → Word) {k : Nat}
    (hk : k < 14) : (neighbors p f enc).outs.getD k 0#64 =
      ((neighborAt p (slotOffset k)).map enc).getD outOfRangeWord := by
  have hoffset : offsets[k]? = some (slotOffset k) := offsets_getElem?_eq_some_iff.mpr ⟨hk, rfl⟩
  simp [neighbors_of_not_fail h, hoffset]

/-- A slot holds one cell, or none, whatever the encoding (R103). -/
theorem exists_slotCell (p : Coords) (f : Bool) {k : Nat} (hk : k < 14) :
    ∃ c : Option Coords, ∀ enc, (neighbors p f enc).outs.getD k 0#64 = (c.map enc).getD outOfRangeWord := by
  by_cases h : NeighborsFail p f
  · exact ⟨none, fun enc => slotWord_of_fail h enc hk⟩
  · exact ⟨_, fun enc => slotWord_of_not_fail h enc hk⟩

/-- A key held in a word with nothing above it is read back (R61). -/
theorem kwKey_setWidth (k : Key) : kwKey (k.setWidth 64) = k := by
  have hword : k.setWidth 64 = mkKW k .ok := by simp [mkKW, Err.code]
  rw [hword, kwKey_mkKW]

/-- Settles O40: both commands start from one cell, so each slot holds one cell in two encodings. -/
theorem neighborsDoNotDependOnTheKeyFormat : Obligations.NeighborsDoNotDependOnTheKeyFormat := by
  intro f k j hj
  obtain ⟨c, hc⟩ := exists_slotCell (mortonDec k) f hj
  simp only [elem, elemNbrm, elemNbrh, kwKey_setWidth, hilbertDec_hilbertEnc, hc]
  cases c with
  | none => simp [outOfRangeWord, Err.code]
  | some q => simp [hilbertDec_hilbertEnc]

/-! ### The commands (R108 to R111) -/

/-- ENGINE's step of a neighbor command leaves the neighbors of its cell and the mask of the valid slots, where the
encoding makes words with status 0 (R80, R103, R108). -/
theorem exec_neighbor {i : Instr} {fn : Func} {f : Bool} {s : State} {p : Coords} {enc : Coords → Word}
    (hf : scalarForm i = some (fn, f)) (hfn : fn.isNeighbor = true)
    (helem : elem fn f (scalarOperand fn s) = neighbors p f enc) (henc : ∀ q, wordStatus (enc q) = 0#4)
    (hb : s.busy = true) (ha : s.abrt = false) : ∃ t, exec i s = .next t ∧ neighborOutcome s t p f enc := by
  have hmark {w : Word} (hw : w = outOfRangeWord) : w = 0x0300000000000000#64 ∧ (wordStatus w == 0#4) = false := by
    subst hw
    decide
  rw [exec_scalar hf, scalarCommand_completes i fn f hb ha, scalarComplete, helem]
  refine ⟨_, rfl, nbrOf (neighbors p f enc).outs, maskOf (neighbors p f enc).outs, ?_⟩
  simp only [getElem_nbrOf, getLsbD_maskOf _ _ (Fin.isLt _)]
  refine ⟨fun h k => hmark (slotWord_of_fail h enc k.isLt), fun h k => ⟨fun hout => hmark ?_, fun q hx hy hz => ?_⟩,
    fun h => ?_, fun h => ?_⟩
  · rw [slotWord_of_not_fail h enc k.isLt, neighborAt_eq_none_iff.mpr hout]
    rfl
  · rw [slotWord_of_not_fail h enc k.isLt, neighborAt_eq_some_iff.mpr ⟨hx, hy, hz⟩]
    simp [henc]
  · simp [neighbors_of_fail h, putResults, hfn, raiseError, setErrIndex, finish]
  · simp [neighbors_of_not_fail h, putResults, hfn, finish]

/-- Settles O18: each command is the neighbor function at the cell of its operand, in its own encoding. -/
theorem neighborCommandsGiveTheFourteenNeighbors : Obligations.NeighborCommandsGiveTheFourteenNeighbors := by
  intro s f hb ha
  simp only [← mkCW_ok, ← mkKW_ok]
  exact ⟨exec_neighbor rfl rfl rfl (fun q => wordStatus_mkKW _ _) hb ha,
    exec_neighbor rfl rfl rfl (fun q => wordStatus_mkKW _ _) hb ha,
    exec_neighbor rfl rfl rfl (fun q => wordStatus_mkKW _ _) hb ha⟩

end Sys2Proof.Machine
end

section
/-! One ENGINE step of a batch command: the end of each pass (R116), a validation step (R117), and a write step whose
accesses are all admitted, or whose read or one of whose writes is refused (R118, R132). -/

namespace Sys2Proof.Machine

/-! ### The passes (R116, R117) -/

/-- With no abort pending, ENGINE's step at the end of the validation pass begins the write pass (R116). -/
theorem batchCommand_endsValidation (i : Instr) (fn : Func) (f : Bool) {v : State} (hb : v.busy = true)
    (ha : v.abrt = false) (hv : v.vphase = true) (hc : v.cursor = v.count.toNat) :
    batchCommand i fn f v = { v with vphase := false, cursor := 0 } := by
  simp [batchCommand, engineStep, batchStep, hb, ha, hv, hc]

/-- With no abort pending, ENGINE's step in the validation pass reads the element at the cursor (R116). -/
theorem batchCommand_validates (i : Instr) (fn : Func) (f : Bool) {v : State} (hb : v.busy = true)
    (ha : v.abrt = false) (hv : v.vphase = true) (hc : v.cursor ≠ v.count.toNat) :
    batchCommand i fn f v = validateStep fn f v.cursor v := by
  simp [batchCommand, engineStep, batchStep, hb, ha, hv, hc]

/-- Settles O20, by the pass the command is in. -/
theorem batchPassesEnd : Obligations.BatchPassesEnd := by
  intro i fn f a s hf hb ha hc
  rw [exec_batch hf]
  cases hv : s.vphase with
  | true => rw [batchCommand_endsValidation i fn f hb ha hv hc, if_pos rfl]
  | false =>
    rw [batchCommand_finishes i fn f hb ha hv hc, if_neg Bool.false_ne_true]
    rfl

/-- Settles O21, by the outcomes of a validation step. -/
theorem batchValidationStepReadsOneElement : Obligations.BatchValidationStepReadsOneElement := by
  intro i fn f a s hf hb ha hv hc hread addr st
  rw [exec_batch hf, batchCommand_validates i fn f hb ha hv hc]
  rcases validateStep_cases fn f s.cursor s with ⟨hrefused, -⟩ | ⟨-, ⟨hst, h⟩ | ⟨hst, h⟩⟩
  · exact absurd hread (Bool.eq_false_iff.mp hrefused)
  · rw [h]
    exact congrArg _ (if_pos hst).symm
  · rw [h]
    exact congrArg _ (if_neg hst).symm

theorem validateStep_refused {fn : Func} {f : Bool} {n : Nat} {s : State}
    (hread : admits s.platform .read (inAddr s n) = false) :
    validateStep fn f n s = raiseError .busError (some (elemIndex n)) s := by
  rw [validateStep, portRead_refused hread]

theorem writeStep_refused {fn : Func} {f : Bool} {n : Nat} {s : State}
    (hread : admits s.platform .read (inAddr s n) = false) :
    writeStep fn f n s = raiseError .busError (some (elemIndex n)) s := by
  rw [writeStep, portRead_refused hread]

/-- Settles O22: the step of either pass begins with the read. -/
theorem refusedReadEndsTheBatch : Obligations.RefusedReadEndsTheBatch := by
  intro i fn f a s hf hb ha hc hread
  rw [exec_batch hf]
  cases hv : s.vphase with
  | true =>
    rw [batchCommand_validates i fn f hb ha hv hc, validateStep_refused hread]
    rfl
  | false =>
    rw [batchCommand_writes i fn f hb ha hv hc, writeStep_refused hread]
    rfl

/-! ### The write of one element (R112, R118) -/

/-- The address of word `j` of output element `n`, as one displacement from DST_ADDR (R112). -/
theorem outAddr_add_word (fn : Func) (s : State) (n j : Nat) :
    outAddr fn s n + BitVec.ofNat 64 (8 * j) = s.dstAddr + BitVec.ofNat 64 (outSize fn * n + 8 * j) := by
  rw [outAddr, BitVec.add_assoc, ← BitVec.ofNat_add]

theorem outSize_of_word {fn : Func} (h : fn.isNeighbor = false) : outSize fn = 8 := by simp [outSize, h]

theorem outSize_of_neighbor {fn : Func} (h : fn.isNeighbor = true) : outSize fn = 112 := by simp [outSize, h]

/-- Output elements lie at aligned addresses where DST_ADDR is aligned (R112). -/
theorem outAddr_aligned (fn : Func) {s : State} (h : s.dstAddr.toNat % 8 = 0) (n : Nat) :
    (outAddr fn s n).toNat % 8 = 0 := by
  obtain ⟨q, hq⟩ := Nat.dvd_of_mod_eq_zero (outSize_mod_eight fn)
  rw [outAddr, hq, Nat.mul_assoc]
  exact aligned_add_words h (q * n)

/-- What ENGINE's step in the write pass does where the platform admits its accesses (R116, R118). -/
theorem exec_writesElement {i : Instr} {fn : Func} {f a : Bool} {s : State} {r : ElemResult}
    (hf : batchForm i = some (fn, f, a)) (hb : s.busy = true) (ha : s.abrt = false) (hv : s.vphase = false)
    (hc : s.cursor ≠ s.count.toNat) (hr : elem fn f (readWord s.mem (inAddr s s.cursor)) = r)
    (hread : admits s.platform .read (inAddr s s.cursor) = true)
    (hwrite : ∀ j, j < r.outs.length →
      admits s.platform .write (outAddr fn s s.cursor + BitVec.ofNat 64 (8 * j)) = true) :
    exec i s = .next (elementRecorded s r.st (storeWords (outAddr fn s s.cursor) r.outs s.mem)
      (((List.range r.outs.length).reverse.map fun j =>
          ⟨.write, outAddr fn s s.cursor + BitVec.ofNat 64 (8 * j)⟩) ++
        ⟨.read, inAddr s s.cursor⟩ :: s.bus)) := by
  rw [exec_batch hf, batchCommand_writes i fn f hb ha hv hc, writeStep_admitted hr hread hwrite, writesRecord_eq]

/-- Settles O23: the words of the element are one, stored where the element lies. -/
theorem batchWriteStepStoresOneWord : Obligations.BatchWriteStepStoresOneWord := by
  intro i fn f a s hf hn hwf hb ha hv hc hread hadm src dst r
  obtain ⟨v, hout⟩ : ∃ v, r.outs = [v] := ⟨_, elem_outs_single hn f _⟩
  have hsrc : inAddr s s.cursor = src := rfl
  have hdst : outAddr fn s s.cursor = dst := by rw [outAddr, outSize_of_word hn]
  have hwrite (j : Nat) (hj : j < r.outs.length) :
      admits s.platform .write (outAddr fn s s.cursor + BitVec.ofNat 64 (8 * j)) = true := by
    obtain rfl : j = 0 := by simpa [hout] using hj
    simpa [hdst] using hadm
  refine ⟨writeWord s.mem dst v, ?_, ?_, fun k hk => readByte_writeWord_other hk⟩
  · rw [exec_writesElement (r := r) hf hb ha hv hc rfl hread hwrite]
    simp [hout, hsrc, hdst, storeWords]
  · rw [hout, readWord_writeWord_self hwf]

/-- Settles O24: fourteen words stored one after the other at the place of the element. -/
theorem batchWriteStepStoresFourteenWords : Obligations.BatchWriteStepStoresFourteenWords := by
  intro i fn f a s hf hn hwf halign hb ha hv hc src dst r hread hadm
  have hlen : r.outs.length = 14 := by simp [r, elem_outs_length, hn]
  have hdst (j : Nat) : outAddr fn s s.cursor + BitVec.ofNat 64 (8 * j) = dst j := by
    rw [outAddr_add_word, outSize_of_neighbor hn]
  have hexec := exec_writesElement (r := r) hf hb ha hv hc rfl hread fun j hj => by
    rw [hdst]
    exact hadm j (hlen ▸ hj)
  simp only [hlen, hdst] at hexec
  refine ⟨_, hexec, List.ext_getElem (by simp [hlen]) fun j hj _ => ?_, fun k hk => ?_⟩
  · have hword := readWord_storeWords_self hwf (outAddr_aligned fn halign s.cursor) (by omega) hj
    rw [List.getElem?_eq_getElem hj, Option.some.injEq, hdst] at hword
    rw [List.getElem_map, List.getElem_range, hword]
  · refine readByte_storeWords_other fun j l hj hl => ?_
    rw [hdst]
    exact hk j l (hlen ▸ hj) hl

/-- Where the platform refuses the write of word `j`, the words before it are stored and the command ends (R118,
R132, R136). -/
theorem writeStep_refusedWrite {fn : Func} {f : Bool} {s : State} {n j : Nat} {r : ElemResult}
    (hr : elem fn f (readWord s.mem (inAddr s n)) = r) (hread : admits s.platform .read (inAddr s n) = true)
    (hj : j < r.outs.length)
    (hwrite : ∀ l, l < j → admits s.platform .write (outAddr fn s n + BitVec.ofNat 64 (8 * l)) = true)
    (hrefused : admits s.platform .write (outAddr fn s n + BitVec.ofNat 64 (8 * j)) = false) :
    writeStep fn f n s = raiseError .busError (some (elemIndex n)) { s with
      mem := storeWords (outAddr fn s n) (r.outs.take j) s.mem
      bus := ((List.range j).reverse.map fun l => ⟨.write, outAddr fn s n + BitVec.ofNat 64 (8 * l)⟩) ++
        ⟨.read, inAddr s n⟩ :: s.bus } := by
  rw [writeStep, portRead_admitted hread]
  dsimp only
  have hstored := portWrites_refused (s := { s with bus := ⟨.read, inAddr s n⟩ :: s.bus }) hj hwrite hrefused
  rw [hr, hstored, ← writesRecord_eq]

/-- Settles O25: the words stored are those before the refused one. -/
theorem refusedWriteKeepsTheWordsBefore : Obligations.RefusedWriteKeepsTheWordsBefore := by
  intro i fn f a s j hf hwf halign hb ha hv hc src osz dst r hj hread hadm hrefused
  have hlen : osz = 8 * r.outs.length := outSize_eq_length fn f _
  have hsmall : osz ≤ 112 := by dsimp only [osz]; split <;> omega
  have hdst (l : Nat) : outAddr fn s s.cursor + BitVec.ofNat 64 (8 * l) = dst l := outAddr_add_word fn s _ l
  have hstep := writeStep_refusedWrite (r := r) rfl hread (by omega) (fun l hl => hdst l ▸ hadm l hl)
    (hdst j ▸ hrefused)
  simp only [hdst] at hstep
  refine ⟨storeWords (outAddr fn s s.cursor) (r.outs.take j) s.mem, ?_, fun l hl => ?_, fun k hk => ?_⟩
  · rw [exec_batch hf, batchCommand_writes i fn f hb ha hv hc, hstep]
    rfl
  · have htake : l < (r.outs.take j).length := by rw [List.length_take]; omega
    rw [← hdst, readWord_storeWords_self hwf (outAddr_aligned fn halign s.cursor) (by rw [List.length_take]; omega)
      htake, List.getElem?_take_of_lt hl]
  · refine readByte_storeWords_other fun l m hl hm => ?_
    rw [hdst]
    exact hk l m (by rw [List.length_take] at hl; omega) hm

end Sys2Proof.Machine
end

section
/-! A whole batch with A = 1 (R114, R117, R119): the validation pass as far as its elements are valid, the rejection at
the first invalid one, and the write pass after a pass with none. -/

namespace Sys2Proof.Machine

/-! ### The validation pass (R117) -/

/-- A batch command whose checks hold is accepted (R73, R113). -/
theorem exec_batch_accepts {i : Instr} {fn : Func} {f a : Bool} {s : State} (hf : batchForm i = some (fn, f, a))
    (hb : s.busy = false) (hacc : batchAccepted fn s) :
    exec i s = .next (accept (encode i) (prologue (encode i) s)) := by
  rw [exec_batch_idle hf hb, issueBatch, batchCheck_eq_none.mpr hacc]

/-- `v` is a state of the validation pass of a batch command issued in `s`, with the first `n` elements read and valid:
nothing is written, counted or recorded (R117). -/
structure ValidationPass (s : State) (n : Nat) (v : State) : Prop where
  busy : v.busy = true
  abrt : v.abrt = false
  vphase : v.vphase = true
  cursor : v.cursor = n
  progress : v.progress = 0#32
  operands : SameOperands s v
  results : SameResults s v
  platform : v.platform = s.platform
  mem : v.mem = s.mem
  failCount : v.failCount = 0#32
  err : v.err = .ok
  errIndex : v.errIndex = Config.noElement

/-- A batch command accepted with A = 1 is at the start of its validation pass (R73, R116). -/
theorem validationPass_accept {i : Instr} {fn : Func} {f : Bool} (hf : batchForm i = some (fn, f, true)) (s : State) :
    ValidationPass s 0 (accept (encode i) (prologue (encode i) s)) := by
  rw [accept_batch hf]
  exact ⟨rfl, rfl, rfl, rfl, rfl, ⟨rfl, rfl, rfl, rfl, rfl⟩, ⟨rfl, rfl, rfl⟩, rfl, rfl, rfl, rfl, rfl⟩

/-- The pass reads the input array of the state the command was issued in (R112). -/
theorem ValidationPass.inAddr_cursor {s v : State} {n : Nat} (h : ValidationPass s n v) :
    inAddr v v.cursor = inAddr s n := by
  obtain ⟨-, -, hsrc, -, -⟩ := h.operands
  rw [inAddr, inAddr, hsrc, h.cursor]

/-- One step of ENGINE reads the element at the cursor (R117). -/
theorem ValidationPass.exec_eq {i : Instr} {fn : Func} {f a : Bool} {s v : State} {n : Nat} (h : ValidationPass s n v)
    (hf : batchForm i = some (fn, f, a)) (hn : n < s.count.toNat)
    (hread : admits s.platform .read (inAddr s n) = true) :
    ∃ bus, exec i v = .next (
      if (elemOf fn f s n).st = .ok then { v with cursor := n + 1, bus := bus }
      else { v with
        bus := bus, failCount := 1#32, err := (elemOf fn f s n).st, errIndex := BitVec.ofNat 32 n,
        busy := false, done := true, abrt := false, vphase := false }) := by
  obtain ⟨-, -, -, -, hcount⟩ := h.operands
  have hne : v.cursor ≠ v.count.toNat := by rw [h.cursor, hcount]; exact hn.ne
  have hadm : admits v.platform .read (inAddr v v.cursor) = true := by rwa [h.platform, h.inAddr_cursor]
  have hr : elem fn f (readWord v.mem (inAddr v v.cursor)) = elemOf fn f s n := by
    rw [h.mem, h.inAddr_cursor, elemOf, inputWord]
  have hstep := batchValidationStepReadsOneElement i fn f a v hf h.busy h.abrt h.vphase hne hadm
  refine ⟨⟨.read, inAddr v v.cursor⟩ :: v.bus, ?_⟩
  rw [← hr, ← h.cursor]
  exact hstep

/-- A valid element moves the pass on (R117). -/
theorem ValidationPass.exec_next {i : Instr} {fn : Func} {f a : Bool} {s v : State} {n : Nat}
    (h : ValidationPass s n v) (hf : batchForm i = some (fn, f, a)) (hn : n < s.count.toNat)
    (hread : admits s.platform .read (inAddr s n) = true) (hok : (elemOf fn f s n).st = .ok) :
    ∃ u, exec i v = .next u ∧ ValidationPass s (n + 1) u := by
  obtain ⟨bus, hstep⟩ := h.exec_eq hf hn hread
  rw [if_pos hok] at hstep
  exact ⟨_, hstep, { h with cursor := rfl }⟩

/-- `n` steps of ENGINE from the start of the validation pass read the first `n` elements, where those are valid
(R117). -/
theorem ValidationPass.engineRun_next {i : Instr} {fn : Func} {f a : Bool} {s t : State} (h : ValidationPass s 0 t)
    (hf : batchForm i = some (fn, f, a)) {n : Nat} (hn : n ≤ s.count.toNat)
    (hread : ∀ m, m < n → admits s.platform .read (inAddr s m) = true)
    (hok : ∀ m, m < n → (elemOf fn f s m).st = .ok) :
    ∃ v, engineRun i n t = .next v ∧ ValidationPass s n v := by
  induction n with
  | zero => exact ⟨t, rfl, h⟩
  | succ n ih =>
    obtain ⟨v, hrun, hv⟩ := ih (by omega) (fun m hm => hread m (by omega)) fun m hm => hok m (by omega)
    rw [engineRun_succ hrun]
    exact hv.exec_next hf hn (hread n n.lt_succ_self) (hok n n.lt_succ_self)

/-- Settles O27: the valid elements move the pass on, and the step after them reads the invalid one. -/
theorem invalidElementRejectsTheWholeBatch : Obligations.InvalidElementRejectsTheWholeBatch := by
  intro i fn f s n0 hf hb hacc hn hread hok hbad
  have hsmall := s.count.isLt
  obtain ⟨v, hrun, hv⟩ :=
    (validationPass_accept hf s).engineRun_next hf hn.le (fun m hm => hread m hm.le) hok
  obtain ⟨bus, hstep⟩ := hv.exec_eq hf hn (hread n0 le_rfl)
  rw [if_neg (show (elemOf fn f s n0).st ≠ .ok from hbad)] at hstep
  refine ⟨_, _, exec_batch_accepts hf hb hacc, (engineRun_succ hrun).trans hstep, rfl, rfl, hv.mem, rfl, ?_, rfl,
    hv.progress⟩
  rw [BitVec.toNat_ofNat, Nat.mod_eq_of_lt (by omega)]

/-! ### The write pass after it (R116, R119) -/

/-- At the end of the validation pass ENGINE's step begins the write pass, with memory and record as at the issue
(R116). -/
theorem ValidationPass.exec_end {i : Instr} {fn : Func} {f a : Bool} {s v : State}
    (h : ValidationPass s s.count.toNat v) (hf : batchForm i = some (fn, f, a)) :
    ∃ u, exec i v = .next u ∧ WritePass fn f s 0 u := by
  obtain ⟨-, -, -, -, hcount⟩ := h.operands
  have hend : v.cursor = v.count.toNat := by rw [h.cursor, hcount]
  refine ⟨{ v with vphase := false, cursor := 0 }, ?_, ?_⟩
  · rw [exec_batch hf, batchCommand_endsValidation i fn f h.busy h.abrt h.vphase hend]
  · exact ⟨h.busy, h.abrt, rfl, rfl, h.progress, h.operands, h.results, h.platform, h.mem, h.failCount, h.err,
      h.errIndex⟩

/-- A run of ENGINE's steps goes on from the end of its first part. -/
theorem engineRun_add {i : Instr} {n : Nat} {s t : State} (h : engineRun i n s = .next t) (m : Nat) :
    engineRun i (n + m) s = engineRun i m t := by
  induction m generalizing n t with
  | zero => exact h
  | succ m ih =>
    obtain ⟨u, hu⟩ := exec_next i t
    rw [show n + (m + 1) = n + 1 + m by omega, engineRun, hu]
    exact ih ((engineRun_succ h).trans hu)

/-- With no failing element, the record at the end of the write pass names none (R118, R119). -/
theorem WritePass.record_of_valid {fn : Func} {f : Bool} {s v : State} (h : WritePass fn f s s.count.toNat v)
    (hok : ∀ n, n < s.count.toNat → (elemOf fn f s n).st = .ok) :
    v.err = .ok ∧ v.errIndex = 0xFFFFFFFF#32 ∧ v.failCount = 0#32 ∧ v.progress = s.count := by
  have hnone := firstFailure_eq_none hok
  have hzero : failures fn f s s.count.toNat = 0 := by simpa [failures, fails] using hok
  rw [h.err, h.errIndex, h.failCount, h.progress, hnone, hzero]
  exact ⟨rfl, rfl, rfl, BitVec.eq_of_toNat_eq (by simp)⟩

/-- Settles O28: both commands come to the same write pass, with A = 1 after the validation pass. -/
theorem validBatchIsIndifferentToThePolicy : Obligations.ValidBatchIsIndifferentToThePolicy := by
  intro i i0 fn f s hf hf0 hb hacc hadm hok
  have ⟨hreads, _⟩ := hadm
  obtain ⟨v, hvalidate, hv⟩ := (validationPass_accept hf s).engineRun_next hf le_rfl hreads hok
  obtain ⟨w, hbegin, hw⟩ := hv.exec_end hf
  obtain ⟨e, hwrite, he⟩ := hw.engineRun_finish hf hacc hadm
  obtain ⟨e0, hwrite0, he0⟩ := (writePass_accept hf0 s).engineRun_finish hf0 hacc hadm
  obtain ⟨herr, hindex, hfail, hprogress⟩ := he.record_of_valid hok
  obtain ⟨herr0, hindex0, hfail0, hprogress0⟩ := he0.record_of_valid hok
  have hrun : engineRun i (2 * s.count.toNat + 2) (accept (encode i) (prologue (encode i) s)) = .next (finish e) := by
    have hsteps : 2 * s.count.toNat + 2 = (s.count.toNat + 1) + (s.count.toNat + 1) := by omega
    rw [hsteps, engineRun_add ((engineRun_succ hvalidate).trans hbegin), hwrite]
  have hmem : e.mem = e0.mem := he.mem.trans he0.mem.symm
  exact ⟨_, finish e, _, finish e0, exec_batch_accepts hf hb hacc, hrun, exec_batch_accepts hf0 hb hacc, hwrite0,
    rfl, rfl, hmem, herr, hindex, hfail, hprogress, rfl, rfl, herr0, hindex0, hfail0, hprogress0⟩

end Sys2Proof.Machine
end

section
/-! IRQ at the end of a command (R75, R77, R137): a command that leaves the block idle leaves DONE set, and no command
touches CTRL.IRQ_EN. -/

namespace Sys2Proof.Machine

/-- A command takes `s` to `t`, keeps CTRL.IRQ_EN, and has set DONE where it leaves the block idle. -/
structure DoneWhenIdle (s t : State) : Prop where
  irqEn : t.irqEn = s.irqEn
  done : t.busy = false → t.done = true

theorem DoneWhenIdle.irq_eq {s t : State} (h : DoneWhenIdle s t) (hb : t.busy = false) : irq t = s.irqEn := by
  rw [irq, h.done hb, h.irqEn, Bool.true_and]

/-- `finish()` sets DONE (R77). -/
theorem DoneWhenIdle.finished {s u : State} (h : u.irqEn = s.irqEn) : DoneWhenIdle s (finish u) := ⟨h, fun _ => rfl⟩

/-- An error ends the command by `finish()` (R78). -/
theorem DoneWhenIdle.raised {s u : State} {e : Err} {index : Option (BitVec 32)} (h : u.irqEn = s.irqEn) :
    DoneWhenIdle s (raiseError e index u) :=
  .finished ((setErrIndex_irqEn ..).trans h)

/-- A command still in progress owes nothing yet. -/
theorem DoneWhenIdle.of_busy {s t : State} (h : t.irqEn = s.irqEn) (hb : t.busy = true) : DoneWhenIdle s t :=
  ⟨h, fun hidle => absurd hb (by simp [hidle])⟩

theorem scalarCommand_doneWhenIdle (i : Instr) (fn : Func) (f : Bool) (s : State) :
    DoneWhenIdle s (scalarCommand i fn f s) := by
  cases hb : s.busy with
  | false =>
    rw [scalarCommand, hb, if_neg Bool.false_ne_true, issueScalar]
    exact .of_busy rfl rfl
  | true =>
    rcases scalarCommand_busy_cases i fn f s hb with ⟨-, h⟩ | ⟨-, ⟨-, h⟩ | ⟨-, h⟩⟩ <;> rw [h]
    · exact .raised rfl
    · exact .finished (putResults_irqEn ..)
    · exact .raised (putResults_irqEn ..)

/-- A batch command whose checks fail is rejected with DONE set; else it is in progress (R73, R75, R113). -/
theorem issueBatch_doneWhenIdle (i : Instr) (fn : Func) (s : State) : DoneWhenIdle s (issueBatch i fn s) := by
  unfold issueBatch
  cases batchCheck fn s with
  | some e => exact ⟨rfl, fun _ => rfl⟩
  | none => exact .of_busy rfl rfl

theorem validateStep_doneWhenIdle (fn : Func) (f : Bool) {s : State} (hb : s.busy = true) :
    DoneWhenIdle s (validateStep fn f s.cursor s) := by
  rcases validateStep_cases fn f s.cursor s with ⟨-, h⟩ | ⟨-, ⟨-, h⟩ | ⟨-, h⟩⟩ <;> rw [h]
  · exact .raised rfl
  · exact .of_busy rfl hb
  · exact .raised rfl

theorem writeStep_doneWhenIdle (fn : Func) (f : Bool) {s : State} (hb : s.busy = true) :
    DoneWhenIdle s (writeStep fn f s.cursor s) := by
  rcases writeStep_cases fn f s.cursor s with ⟨-, h⟩ | ⟨-, ⟨n, -, h⟩ | h⟩ <;> rw [h]
  · exact .raised rfl
  · exact .raised rfl
  · exact .of_busy (elementWritten_irqEn ..) ((elementWritten_busy ..).trans hb)

theorem batchCommand_doneWhenIdle (i : Instr) (fn : Func) (f : Bool) (s : State) :
    DoneWhenIdle s (batchCommand i fn f s) := by
  cases hb : s.busy with
  | false =>
    rw [batchCommand, hb, if_neg Bool.false_ne_true]
    exact issueBatch_doneWhenIdle i fn s
  | true =>
    rcases batchCommand_busy_cases i fn f s hb with
      ⟨-, h⟩ | ⟨-, -, -, h⟩ | ⟨-, -, -, h⟩ | ⟨-, -, -, h⟩ | ⟨-, -, -, h⟩ <;> rw [h]
    · exact .raised rfl
    · exact .of_busy rfl hb
    · exact .finished rfl
    · exact validateStep_doneWhenIdle fn f hb
    · exact writeStep_doneWhenIdle fn f hb

/-- ABORT is left out: on an idle block it changes nothing, whatever DONE is (R82). -/
theorem exec_doneWhenIdle {i : Instr} (hi : i ≠ .abort) {s t : State} (h : exec i s = .next t) : DoneWhenIdle s t := by
  rcases instr_forms i with ⟨fn, f, hf⟩ | ⟨fn, f, a, hf⟩ | rfl
  · rw [exec_scalar hf, Host.Outcome.next.injEq] at h
    exact h ▸ scalarCommand_doneWhenIdle i fn f s
  · rw [exec_batch hf, Host.Outcome.next.injEq] at h
    exact h ▸ batchCommand_doneWhenIdle i fn f s
  · exact absurd rfl hi

/-- Settles O47: a command that leaves the block idle has set DONE, so IRQ is CTRL.IRQ_EN, which it kept. -/
theorem completionsRaiseTheInterrupt : Obligations.CompletionsRaiseTheInterrupt :=
  fun _ _ _ h hi hb => (exec_doneWhenIdle hi h).irq_eq hb

end Sys2Proof.Machine
end

section
/-! The reset event (R141). -/

namespace Sys2Proof.Machine

/-- No register of the window shows what reset keeps: memory, the platform and the model's own fields (R17, R37). -/
theorem readReg_resetBlock (r : Reg) (s : State) : readReg r (resetBlock s) = readReg r State.reset := by
  cases r <;> rfl

theorem windowReads_resetBlock (s : State) : windowReads (resetBlock s) = windowReads State.reset := by
  simp only [windowReads_eq, readReg_resetBlock]

theorem irq_resetBlock (s : State) : irq (resetBlock s) = false := rfl

/-- Settles O49: the step is `resetBlock` after the move is taken, which changes `sched` and `turn` alone. -/
theorem resetEvent : Obligations.ResetEvent := by
  intro s hmove
  have hstep : step s = .next (resetBlock (takeMove s)) := step_reset hmove
  refine ⟨_, hstep, resetBlock_cursor _, irq_resetBlock _, windowReads_resetBlock _, ?_⟩
  simp

end Sys2Proof.Machine
end
